-- ==== Sys2Proof/Word.lean ====
section
/-! DEFINITION. The byte, and the byte sequences that cross the command port (spec/00_scope.md R6). -/

namespace Sys2Proof

/-- A byte, bits numbered from 0, the least significant (R6). -/
abbrev Byte := BitVec 8

/-- A command packet or a response packet: the bytes in transmission order (R50, R51). -/
abbrev Packet := List Byte

end Sys2Proof
end

