-- ==== Sys2Proof/Config.lean ====
section
/-! DEFINITION. The parameters the source leaves open (spec/00_scope.md R5), and the opaque constants that stand for
those the spec adopts no default for. -/

namespace Sys2Proof

/-- The parameters of one instance (R5). They are constants of the instance (R22): no step changes them.
DESIGN CHOICE, log 3: `State` carries this record, so that a statement over all states is a statement over all
parameter values. Safe. -/
structure Config where
  /-- `WHITEN_MASK`, `M[0..63]` (R138). -/
  whitenMask : Vector Byte 64
  /-- `RS_PRIM_POLY` (R101). -/
  rsPrimPoly : BitVec 9
  /-- `RS_ALPHA` (R101). -/
  rsAlpha : Byte
  /-- `RS_FCR` (R104). -/
  rsFcr : Nat
  /-- `RS_PAR_BASE[0..1]` (R106). -/
  rsParBase : Vector Nat 2
  /-- `RS_DEC_WRITES_PARITY` (R113). -/
  rsDecWritesParity : Bool
  /-- `BLOCK_OFF[0..5]` (R36). -/
  blockOff : Vector Nat 6
  /-- `BLOCK_LEN[0..5]` (R36). -/
  blockLen : Vector Nat 6
  /-- `SLICE_OFF` (R37). -/
  sliceOff : Nat
  /-- `FRAME_HEADER` (R5): no command uses it. -/
  frameHeader : Vector Byte 8
deriving DecidableEq, Repr

/-- The mask of the machine after reset: the spec adopts no default (R138, D14), so nothing is known of it.
DESIGN CHOICE, log 5. Safe. -/
opaque Config.freeWhitenMask : Vector Byte 64

/-- `RS_DEC_WRITES_PARITY` of the machine after reset: the spec adopts no default (D11).
DESIGN CHOICE, log 6. Safe. -/
opaque Config.freeRsDecWritesParity : Bool

/-- `FRAME_HEADER` of the machine after reset: the spec adopts no default (D24).
DESIGN CHOICE, log 7. Safe. -/
opaque Config.freeFrameHeader : Vector Byte 8

end Sys2Proof
end

