-- ==== Sys2Proof/Machine/Params.lean ====
section
/-! DEFINITION. The constants the source fixes (spec/00_scope.md R4) and the parameters of the machine after
reset (R5, spec/20_memory.md R36). -/

namespace Sys2Proof

/-- `MSG_SIZE` (R4): bytes of the message buffer. -/
def msgSize : Nat := 1024

/-- `SFT_SIZE` (R4): bytes of the subframe table. -/
def sftSize : Nat := 816

/-- First payload byte of the frame (R34): data symbol 0 of RS stream 0. -/
def payloadBase : Nat := 0x038

/-- `RS_K` (R4): data symbols of one RS stream. -/
def rsDataLen : Nat := 132

/-- `RS_NPAR` (R4): parity symbols of one RS stream. -/
def rsParityLen : Nat := 24

/-- Symbols of one codeword (R100): 24 parity and 132 data. -/
def rsCodeLen : Nat := 156

/-- `RS_T` (R4): symbol errors per stream that are corrected. -/
def rsRadius : Nat := 12

/-- `SLICE_LEN` (R4): bytes of one subframe slice. -/
def sliceLen : Nat := 16

/-- `LAST_SUBFRAME` (R4): the highest subframe number. -/
def lastSubframe : Nat := 50

/-- `SUBFRAME_NUMBER_OFF` (R4): offset in `MSG` of the subframe number. -/
def subframeNumberOff : Nat := 0x052

/-- `CRC_POLY` (R4). -/
def crcPoly : BitVec 16 := 0x1021#16

/-- `CRC_INIT` (R4). -/
def crcInit : BitVec 16 := 0xFFFF#16

/-- `BLOCK_ID[0..5]` (R4): the ID bytes of STATUS, MEAS, GPSINFO, GPSRAW, GPSPOS, EMPTY. -/
def blockId : Vector Byte 6 := #v[0x79#8, 0x7A#8, 0x7C#8, 0x7D#8, 0x7B#8, 0x76#8]

/-- The parameters of the machine after reset: the defaults of R5 and R36 where the spec gives one (PRESUMED, the
spec marks them as general knowledge; log 4; unsafe), an opaque constant where it gives none. -/
def Config.atReset : Config where
  whitenMask := Config.freeWhitenMask
  rsPrimPoly := 0x11D#9
  rsAlpha := 0x02#8
  rsFcr := 0
  rsParBase := #v[0x008, 0x020]
  rsDecWritesParity := Config.freeRsDecWritesParity
  blockOff := #v[0x039, 0x065, 0x093, 0x0B5, 0x112, 0x12B]
  blockLen := #v[0x28, 0x2A, 0x1E, 0x59, 0x15, 0x11]
  sliceOff := 0x053
  frameHeader := Config.freeFrameHeader

end Sys2Proof
end

