-- ==== Sys2Proof/Syntax.lean ====
section
/-! DEFINITION. The 36 commands of spec/30_encoding.md R59 with their operands as they stand in the packet (R54), and
the five command errors of spec/60_exceptions.md R240. -/

namespace Sys2Proof

/-- The command errors (R240). Each ends a command before it changes any state. -/
inductive CommandError where
  | illegalOpcode
  | badLength
  | badArgument
  | addressRange
  | subframeRange
deriving DecidableEq, Repr

/-- The eight packet formats `N`, `B`, `A`, `R`, `V`, `I`, `S`, `D` (R52). -/
inductive Format where
  | n | b | a | r | v | i | s | d
deriving DecidableEq, Repr

/-- The commands (R59). Operands are raw (R54): an address is its 16 bits, a block index its byte, so that the
checks R61 puts after the length check stand in the meanings. `n` of `CRC16.I` and `SET.STR` is the length of the
data. -/
inductive Instr where
  | nop
  | rdStatus
  | clrErr
  | reset
  | crc16 (addr len : BitVec 16)
  | crc16I (data : List Byte)
  | rdCrc
  | blkHdr (blk : Byte)
  | blkSetcrc (blk : Byte)
  | blkChkcrc (blk : Byte)
  | blkBuild (blk : Byte) (data : List Byte)
  | blkRead (blk : Byte)
  | rsEnc
  | rsDec
  | whiten (addr len : BitVec 16)
  | getU8 (addr : BitVec 16)
  | getU16 (addr : BitVec 16)
  | getU24 (addr : BitVec 16)
  | getU32 (addr : BitVec 16)
  | getS8 (addr : BitVec 16)
  | getS16 (addr : BitVec 16)
  | getS32 (addr : BitVec 16)
  | getF32 (addr : BitVec 16)
  | getStr (addr len : BitVec 16)
  | setU8 (addr : BitVec 16) (val : BitVec 32)
  | setU16 (addr : BitVec 16) (val : BitVec 32)
  | setU24 (addr : BitVec 16) (val : BitVec 32)
  | setU32 (addr : BitVec 16) (val : BitVec 32)
  | setS8 (addr : BitVec 16) (val : BitVec 32)
  | setS16 (addr : BitVec 16) (val : BitVec 32)
  | setS32 (addr : BitVec 16) (val : BitVec 32)
  | setF32 (addr : BitVec 16) (val : BitVec 32)
  | setStr (addr width : BitVec 16) (data : List Byte)
  | sfCapture
  | sfRdSeen
  | sfClear
deriving DecidableEq, Repr

end Sys2Proof
end

