-- ==== Sys2Proof/WellFormed.lean ====
section
/-! DEFINITION. Which commands have a packet: the length of the data must fit the 16-bit count `n`
(spec/30_encoding.md R52, R57). Every other operand fits by its type. -/

namespace Sys2Proof

/-- The command can be written as a packet: `n` of formats `I` and `S` is an unsigned 16-bit count (R57). Whether
its operands are legal is checked when it executes (R61, checks 4 to 6). -/
def Instr.wellFormed : Instr → Bool
  | .crc16I data => data.length < 2 ^ 16
  | .setStr _ _ data => data.length < 2 ^ 16
  | .nop | .rdStatus | .clrErr | .reset | .crc16 _ _ | .rdCrc => true
  | .blkHdr _ | .blkSetcrc _ | .blkChkcrc _ | .blkBuild _ _ | .blkRead _ => true
  | .rsEnc | .rsDec | .whiten _ _ => true
  | .getU8 _ | .getU16 _ | .getU24 _ | .getU32 _ => true
  | .getS8 _ | .getS16 _ | .getS32 _ | .getF32 _ | .getStr _ _ => true
  | .setU8 _ _ | .setU16 _ _ | .setU24 _ _ | .setU32 _ _ => true
  | .setS8 _ _ | .setS16 _ _ | .setS32 _ _ | .setF32 _ _ => true
  | .sfCapture | .sfRdSeen | .sfClear => true

end Sys2Proof
end

