-- ==== Sys2Proof/Decode.lean ====
section
/-! DEFINITION. Command packets (spec/30_encoding.md R50 to R61): byte order, the decoder, the encoder. The decoder
does the first three checks of R61 (empty packet, opcode, packet length); the others stand in the meanings. -/

namespace Sys2Proof

/-- `le(n, v)` (R6): the little-endian bytes of `v`, `n` of them. -/
def leBytes : Nat → Nat → List Byte
  | 0, _ => []
  | n + 1, v => BitVec.ofNat 8 v :: leBytes n (v / 256)

/-- `unle(s)` (R6): the number whose little-endian bytes are `s`. -/
def unle : List Byte → Nat
  | [] => 0
  | b :: bs => b.toNat + 256 * unle bs

/-- A `u16` operand from its two bytes, the first the low one (R55). -/
def u16 (b0 b1 : Byte) : BitVec 16 := BitVec.ofNat 16 (unle [b0, b1])

/-- A `u32` operand from its four bytes, the first the lowest (R55). -/
def u32 (b0 b1 b2 b3 : Byte) : BitVec 32 := BitVec.ofNat 32 (unle [b0, b1, b2, b3])

/-- Format `N` (R52): no operand byte. -/
def formatN (i : Instr) : Packet → Except CommandError Instr
  | [] => .ok i
  | _ => .error .badLength

/-- Format `B` (R52): the block byte. -/
def formatB (i : Byte → Instr) : Packet → Except CommandError Instr
  | [blk] => .ok (i blk)
  | _ => .error .badLength

/-- Format `A` (R52): the address. -/
def formatA (i : BitVec 16 → Instr) : Packet → Except CommandError Instr
  | [a0, a1] => .ok (i (u16 a0 a1))
  | _ => .error .badLength

/-- Format `R` (R52): address and length. -/
def formatR (i : BitVec 16 → BitVec 16 → Instr) : Packet → Except CommandError Instr
  | [a0, a1, l0, l1] => .ok (i (u16 a0 a1) (u16 l0 l1))
  | _ => .error .badLength

/-- Format `V` (R52): address and 32-bit value. -/
def formatV (i : BitVec 16 → BitVec 32 → Instr) : Packet → Except CommandError Instr
  | [a0, a1, v0, v1, v2, v3] => .ok (i (u16 a0 a1) (u32 v0 v1 v2 v3))
  | _ => .error .badLength

/-- Format `I` (R52, R53): the count `n` and exactly `n` data bytes. -/
def formatI (i : List Byte → Instr) : Packet → Except CommandError Instr
  | n0 :: n1 :: data => if data.length = (u16 n0 n1).toNat then .ok (i data) else .error .badLength
  | _ => .error .badLength

/-- Format `S` (R52, R53): address, field width, the count `n` and exactly `n` data bytes. -/
def formatS (i : BitVec 16 → BitVec 16 → List Byte → Instr) : Packet → Except CommandError Instr
  | a0 :: a1 :: w0 :: w1 :: n0 :: n1 :: data =>
    if data.length = (u16 n0 n1).toNat then .ok (i (u16 a0 a1) (u16 w0 w1) data) else .error .badLength
  | _ => .error .badLength

/-- Format `D` (R52, R53): the block byte, then the data. The required length depends on the block, and its check
comes after that of the block index, so it stands in the meaning of `BLK.BUILD` (R195; log 10). -/
def formatD (i : Byte → List Byte → Instr) : Packet → Except CommandError Instr
  | blk :: data => .ok (i blk data)
  | [] => .error .badLength

/-- The decoder, total on every byte sequence (R60): a command, or the error of the first check that fails among
R61's checks 1 to 3. -/
def decode : Packet → Except CommandError Instr
  | [] => .error .badLength
  | opc :: rest =>
    match opc.toNat with
    | 0x00 => formatN .nop rest
    | 0x01 => formatN .rdStatus rest
    | 0x02 => formatN .clrErr rest
    | 0x03 => formatN .reset rest
    | 0x10 => formatR .crc16 rest
    | 0x11 => formatI .crc16I rest
    | 0x12 => formatN .rdCrc rest
    | 0x20 => formatB .blkHdr rest
    | 0x21 => formatB .blkSetcrc rest
    | 0x22 => formatB .blkChkcrc rest
    | 0x23 => formatD .blkBuild rest
    | 0x24 => formatB .blkRead rest
    | 0x30 => formatN .rsEnc rest
    | 0x31 => formatN .rsDec rest
    | 0x38 => formatR .whiten rest
    | 0x40 => formatA .getU8 rest
    | 0x41 => formatA .getU16 rest
    | 0x42 => formatA .getU24 rest
    | 0x43 => formatA .getU32 rest
    | 0x44 => formatA .getS8 rest
    | 0x45 => formatA .getS16 rest
    | 0x46 => formatA .getS32 rest
    | 0x47 => formatA .getF32 rest
    | 0x48 => formatR .getStr rest
    | 0x50 => formatV .setU8 rest
    | 0x51 => formatV .setU16 rest
    | 0x52 => formatV .setU24 rest
    | 0x53 => formatV .setU32 rest
    | 0x54 => formatV .setS8 rest
    | 0x55 => formatV .setS16 rest
    | 0x56 => formatV .setS32 rest
    | 0x57 => formatV .setF32 rest
    | 0x58 => formatS .setStr rest
    | 0x60 => formatN .sfCapture rest
    | 0x61 => formatN .sfRdSeen rest
    | 0x62 => formatN .sfClear rest
    | _ => .error .illegalOpcode

/-- The opcode of a command (R59). -/
def Instr.opcode : Instr → Byte
  | .nop => 0x00#8
  | .rdStatus => 0x01#8
  | .clrErr => 0x02#8
  | .reset => 0x03#8
  | .crc16 _ _ => 0x10#8
  | .crc16I _ => 0x11#8
  | .rdCrc => 0x12#8
  | .blkHdr _ => 0x20#8
  | .blkSetcrc _ => 0x21#8
  | .blkChkcrc _ => 0x22#8
  | .blkBuild _ _ => 0x23#8
  | .blkRead _ => 0x24#8
  | .rsEnc => 0x30#8
  | .rsDec => 0x31#8
  | .whiten _ _ => 0x38#8
  | .getU8 _ => 0x40#8
  | .getU16 _ => 0x41#8
  | .getU24 _ => 0x42#8
  | .getU32 _ => 0x43#8
  | .getS8 _ => 0x44#8
  | .getS16 _ => 0x45#8
  | .getS32 _ => 0x46#8
  | .getF32 _ => 0x47#8
  | .getStr _ _ => 0x48#8
  | .setU8 _ _ => 0x50#8
  | .setU16 _ _ => 0x51#8
  | .setU24 _ _ => 0x52#8
  | .setU32 _ _ => 0x53#8
  | .setS8 _ _ => 0x54#8
  | .setS16 _ _ => 0x55#8
  | .setS32 _ _ => 0x56#8
  | .setF32 _ _ => 0x57#8
  | .setStr _ _ _ => 0x58#8
  | .sfCapture => 0x60#8
  | .sfRdSeen => 0x61#8
  | .sfClear => 0x62#8

/-- The operand bytes of a command, after the opcode (R52, R55). -/
def Instr.operands : Instr → Packet
  | .nop | .rdStatus | .clrErr | .reset | .rdCrc | .rsEnc | .rsDec | .sfCapture | .sfRdSeen | .sfClear => []
  | .blkHdr blk | .blkSetcrc blk | .blkChkcrc blk | .blkRead blk => [blk]
  | .getU8 addr | .getU16 addr | .getU24 addr | .getU32 addr
  | .getS8 addr | .getS16 addr | .getS32 addr | .getF32 addr => leBytes 2 addr.toNat
  | .crc16 addr len | .whiten addr len | .getStr addr len => leBytes 2 addr.toNat ++ leBytes 2 len.toNat
  | .setU8 addr val | .setU16 addr val | .setU24 addr val | .setU32 addr val
  | .setS8 addr val | .setS16 addr val | .setS32 addr val | .setF32 addr val =>
    leBytes 2 addr.toNat ++ leBytes 4 val.toNat
  | .crc16I data => leBytes 2 data.length ++ data
  | .setStr addr width data =>
    leBytes 2 addr.toNat ++ leBytes 2 width.toNat ++ leBytes 2 data.length ++ data
  | .blkBuild blk data => blk :: data

/-- The packet of a command (R50, R52). -/
def encode (i : Instr) : Packet := i.opcode :: i.operands

/-- The format of an opcode (R52, R59). -/
def formatOf (opc : Nat) : Option Format :=
  if opc ∈ [0x00, 0x01, 0x02, 0x03, 0x12, 0x30, 0x31, 0x60, 0x61, 0x62] then some .n
  else if opc ∈ [0x20, 0x21, 0x22, 0x24] then some .b
  else if opc ∈ [0x40, 0x41, 0x42, 0x43, 0x44, 0x45, 0x46, 0x47] then some .a
  else if opc ∈ [0x10, 0x38, 0x48] then some .r
  else if opc ∈ [0x50, 0x51, 0x52, 0x53, 0x54, 0x55, 0x56, 0x57] then some .v
  else if opc = 0x11 then some .i
  else if opc = 0x58 then some .s
  else if opc = 0x23 then some .d
  else none

/-- The length R53 requires of a packet of a format, from its bytes; `blockLen` is `BLOCK_LEN`. -/
def requiredLength (blockLen : Vector Nat 6) (byte : Nat → Nat) : Format → Nat
  | .n => 1
  | .b => 2
  | .a => 3
  | .r => 5
  | .v => 7
  | .i => 3 + (byte 1 + 256 * byte 2)
  | .s => 7 + (byte 5 + 256 * byte 6)
  | .d => 2 + (blockLen[byte 1]?).getD 0

/-- The packet an opcode-table row stands for when its bits are `w` (bit 0 the least significant of byte 0, later
bytes counting on): the row's bytes and then zero bytes up to the length R53 requires, with the block lengths of the
machine after reset; the row's bytes alone where the opcode is illegal (log 11). -/
def tablePacket (nbits w : Nat) : Packet :=
  let v := w % 2 ^ nbits
  let needed := match formatOf (v % 256) with
    | some f => requiredLength Config.atReset.blockLen (fun k => v / 256 ^ k % 256) f
    | none => 1
  leBytes (max (nbits / 8) needed) v

/-- What the decoder reads from the packet of `tablePacket`; none where it refuses. -/
def decodeTableWord (nbits w : Nat) : Option Instr :=
  match decode (tablePacket nbits w) with
  | .ok i => some i
  | .error _ => none

end Sys2Proof
end

