-- ==== Sys2Proof/Machine/State.lean ====
section
/-! DEFINITION. All state of the core (spec/10_state.md R10 to R20), the reset values (R21), and the reasons a step
could stop: the core has none. -/

namespace Sys2Proof.Machine

/-- One byte memory, `MSG` or `SFT`, as the list of its cells that differ from `Memory.unlisted`, addresses strictly
rising (`Memory.wf`). -/
abbrev Memory := List Host.Cell

/-- The stored fields of `STATUS` (R16). `RS_OK` and `SF_COMPLETE` are computed (R18) and bit 11 reads 0, so they are
not stored (log 9). -/
structure Status where
  /-- `RS_REC0`, bit 0: RS stream 0 was recoverable at the last `RS.DEC`. -/
  rsRec0 : Bool
  /-- `RS_REC1`, bit 1: RS stream 1 was recoverable at the last `RS.DEC`. -/
  rsRec1 : Bool
  /-- `CRC_OK[0..5]`, bits 3 to 8. -/
  crcOk : Vector Bool 6
  /-- `SFM_HIT`, bit 10. -/
  sfmHit : Bool
  /-- `ERR_OPC`, bit 12, sticky. -/
  errOpc : Bool
  /-- `ERR_ARG`, bit 13, sticky. -/
  errArg : Bool
  /-- `ERR_ADDR`, bit 14, sticky. -/
  errAddr : Bool
  /-- `ERR_SF`, bit 15, sticky. -/
  errSf : Bool
deriving DecidableEq, Repr

/-- `STATUS` after reset: every stored field 0 (R21). -/
def Status.zero : Status where
  rsRec0 := false
  rsRec1 := false
  crcOk := #v[false, false, false, false, false, false]
  sfmHit := false
  errOpc := false
  errArg := false
  errAddr := false
  errSf := false

/-- The state of one instance of the core. -/
structure State where
  /-- The parameters of the instance (R5): constants, which no step changes (R22; log 3). -/
  cfg : Config
  /-- `MSG`, the message buffer (R10). -/
  msg : Memory
  /-- `SFT`, the subframe table (R11). -/
  sft : Memory
  /-- `SEEN`, the seen bitmap (R14). -/
  seen : BitVec 51
  /-- `CRCR`, the CRC result register (R15). -/
  crcr : BitVec 16
  /-- `STATUS`, its stored fields (R16). -/
  status : Status
  /-- The model's own: the packets the host has still to present at the command port, oldest first (R8; log 1). -/
  input : List Packet
  /-- The model's own: the responses returned at the command port, oldest first (R8, R51; log 1). -/
  output : List Packet
deriving DecidableEq, Repr

/-- The machine right after power-on (R21, R270), for any parameters and any contents of the two memories: the spec
leaves both free. -/
def State.powerOn (cfg : Config) (msg sft : Memory) : State where
  cfg := cfg
  msg := msg
  sft := sft
  seen := 0#51
  crcr := 0xFFFF#16
  status := Status.zero
  input := []
  output := []

/-- The machine right after reset: `State.powerOn` with the parameters of `Config.atReset` and both memories with
nothing listed (log 4, log 8). -/
def State.reset : State := State.powerOn Config.atReset [] []

/-- The reasons a step stops with a fault. There are none, which is safe: a command error is a response (R241), no
condition halts the core (R245), and every packet has exactly one response and one next state (R288). -/
inductive Fault where
deriving DecidableEq, Repr

/-- The reasons a step is refused. -/
inductive Refusal where
  /-- An instruction without a meaning, by its mnemonic. Nobody raises it: every command has its meaning. Safe. -/
  | notModelled (mnemonic : String)
deriving DecidableEq, Repr

end Sys2Proof.Machine
end

