-- ==== Sys2Proof/Machine/Flags.lean ====
section
/-! DEFINITION. The fields of `STATUS` (spec/10_state.md R16 to R19) and of `SEEN` (R14): how they are computed,
recorded and read. -/

namespace Sys2Proof.Machine

/-- `STATUS.RS_OK`: both streams recoverable (R18). -/
def Status.rsOk (st : Status) : Bool := st.rsRec0 && st.rsRec1

/-- `STATUS.RS_REC[k] <- ok` (R113). -/
def Status.setRsRec (k : Fin 2) (ok : Bool) (st : Status) : Status :=
  if k = 0 then { st with rsRec0 := ok } else { st with rsRec1 := ok }

/-- `STATUS.CRC_OK[k] <- ok` (R193, R194). -/
def Status.setCrcOk (k : Fin 6) (ok : Bool) (st : Status) : Status :=
  { st with crcOk := st.crcOk.set k ok }

/-- `STATUS.SFM_HIT <- hit` (R180). -/
def Status.setSfmHit (hit : Bool) (st : Status) : Status := { st with sfmHit := hit }

/-- The sticky bit of an error's class becomes 1; one that is 1 stays 1 (R242). -/
def Status.setError (e : CommandError) (st : Status) : Status :=
  match e with
  | .illegalOpcode => { st with errOpc := true }
  | .badLength => { st with errArg := true }
  | .badArgument => { st with errArg := true }
  | .addressRange => { st with errAddr := true }
  | .subframeRange => { st with errSf := true }

/-- `STATUS[15:12] <- 0` (R232). -/
def Status.clearErrors (st : Status) : Status :=
  { st with errOpc := false, errArg := false, errAddr := false, errSf := false }

/-- `STATUS.SF_COMPLETE`: all 51 bits of `SEEN` are 1 (R18). -/
def sfComplete (seen : BitVec 51) : Bool := seen == BitVec.allOnes 51

/-- `SEEN[k] <- 1` (R200). -/
def markSeen (k : Nat) (seen : BitVec 51) : BitVec 51 := seen ||| (1#51 <<< k)

/-- The 16 bits `RD.STATUS` reads (R16), bit 0 first: the stored fields, the two computed ones, and bit 11 as 0. -/
def State.statusWord (s : State) : BitVec 16 :=
  BitVec.ofBoolListLE
    [s.status.rsRec0, s.status.rsRec1, s.status.rsOk,
     s.status.crcOk[0], s.status.crcOk[1], s.status.crcOk[2],
     s.status.crcOk[3], s.status.crcOk[4], s.status.crcOk[5],
     sfComplete s.seen, s.status.sfmHit, false,
     s.status.errOpc, s.status.errArg, s.status.errAddr, s.status.errSf]

/-- The return code of an error (R240). -/
def errorCode : CommandError → Byte
  | .illegalOpcode => 0x01#8
  | .badLength => 0x02#8
  | .badArgument => 0x03#8
  | .addressRange => 0x04#8
  | .subframeRange => 0x05#8

end Sys2Proof.Machine
end

