-- ==== Sys2Proof/Machine/Operands.lean ====
section
/-! DEFINITION. Operands: address spaces and the address operand (spec/20_memory.md R30, R31; spec/30_encoding.md
R56), the block operand (R58), and the field types of the accessors (spec/43_field_accessors.md R151, R152). -/

namespace Sys2Proof.Machine

/-- The two memories (R30). -/
inductive Bank where
  | msg
  | sft
deriving DecidableEq, Repr

/-- The three address spaces (R30). `SFM` has no storage of its own, so only a `Bank` can be read. -/
inductive Space where
  | bank (b : Bank)
  | sfm
deriving DecidableEq, Repr

/-- The size of a memory (R30). -/
def Bank.size : Bank → Nat
  | .msg => msgSize
  | .sft => sftSize

/-- The size of an address space (R30): `SFM` is as large as the table it is addressed by. -/
def Space.size : Space → Nat
  | .bank b => b.size
  | .sfm => sftSize

/-- The address operand (R56): `SEL` in bits 15:14, bits 13:10 zero, the offset in bits 9:0. -/
def decodeAddr (addr : BitVec 16) : Except CommandError (Space × Nat) :=
  if addr.extractLsb' 10 4 ≠ 0#4 then .error .badArgument
  else
    let off := (addr.extractLsb' 0 10).toNat
    match (addr.extractLsb' 14 2).toNat with
    | 0 => .ok (.bank .msg, off)
    | 1 => .ok (.bank .sft, off)
    | 2 => .ok (.sfm, off)
    | _ => .error .badArgument

/-- The address operand of a command that reads: `SFM` is refused (R56). -/
def decodeReadAddr (addr : BitVec 16) : Except CommandError (Bank × Nat) :=
  match decodeAddr addr with
  | .ok (.bank b, off) => .ok (b, off)
  | .ok (.sfm, _) => .error .badArgument
  | .error e => .error e

/-- The range check (R31): `n` bytes at `off` of a space of `size` bytes. Addresses do not wrap. -/
def checkRange (size off n : Nat) : Except CommandError Unit :=
  if off + n ≤ size then .ok () else .error .addressRange

/-- A check whose failure is `BAD_ARGUMENT` (R61, check 4). -/
def checkArgument (legal : Bool) : Except CommandError Unit :=
  if legal then .ok () else .error .badArgument

/-- A check whose failure is `BAD_LENGTH` (R195). -/
def checkLength (legal : Bool) : Except CommandError Unit :=
  if legal then .ok () else .error .badLength

/-- The block operand (R58). -/
def decodeBlk (blk : Byte) : Except CommandError (Fin 6) :=
  if h : blk.toNat < 6 then .ok ⟨blk.toNat, h⟩ else .error .badArgument

/-- The scalar field types (R151). -/
inductive FieldType where
  | u8 | u16 | u24 | u32 | s8 | s16 | s32 | f32
deriving DecidableEq, Repr

/-- The width of a field in bytes (R151). -/
def FieldType.width : FieldType → Nat
  | .u8 => 1
  | .u16 => 2
  | .u24 => 3
  | .u32 => 4
  | .s8 => 1
  | .s16 => 2
  | .s32 => 4
  | .f32 => 4

/-- The 32-bit pattern of a field's raw number (R152): zero-extended, sign-extended, or as it is. Two's complement
and the binary32 layout are the spec's general knowledge (log 17). -/
def FieldType.extend (t : FieldType) (raw : Nat) : BitVec 32 :=
  match t with
  | .u8 => (BitVec.ofNat 8 raw).zeroExtend 32
  | .u16 => (BitVec.ofNat 16 raw).zeroExtend 32
  | .u24 => (BitVec.ofNat 24 raw).zeroExtend 32
  | .u32 => BitVec.ofNat 32 raw
  | .s8 => (BitVec.ofNat 8 raw).signExtend 32
  | .s16 => (BitVec.ofNat 16 raw).signExtend 32
  | .s32 => BitVec.ofNat 32 raw
  | .f32 => BitVec.ofNat 32 raw

/-- The patterns a field can hold (R152, `fits` of R162 to R169). -/
def FieldType.fits (t : FieldType) (val : BitVec 32) : Bool :=
  match t with
  | .u8 => val.toNat ≤ 0xFF
  | .u16 => val.toNat ≤ 0xFFFF
  | .u24 => val.toNat ≤ 0xFFFFFF
  | .u32 => true
  | .s8 => decide (val.toNat ≤ 0x7F) || decide (0xFFFFFF80 ≤ val.toNat)
  | .s16 => decide (val.toNat ≤ 0x7FFF) || decide (0xFFFF8000 ≤ val.toNat)
  | .s32 => true
  | .f32 => true

end Sys2Proof.Machine
end

