-- ==== Sys2Proof/Machine/Ops.lean ====
section
/-! DEFINITION. Memory, the window `SFM`, the command port, and command errors: the operations every meaning is built
from (spec/20_memory.md R30 to R33; spec/43_field_accessors.md R180; spec/60_exceptions.md R240 to R245). -/

namespace Sys2Proof.Machine

/-! ### Memory -/

/-- What a byte that is not listed reads as. The spec leaves the power-on contents free (R21, R288); DESIGN CHOICE
0x00, log 8, unsafe for a claim about `State.reset` alone. -/
def Memory.unlisted : Byte := 0x00#8

/-- One byte (R32). -/
def Memory.read (m : Memory) (a : Nat) : Byte :=
  match m with
  | [] => Memory.unlisted
  | c :: cs => if c.1 = a then c.2 else Memory.read cs a

/-- Storing one byte (R32), keeping the canonical form. -/
def Memory.write (m : Memory) (a : Nat) (b : Byte) : Memory :=
  match m with
  | [] => if b = Memory.unlisted then [] else [(a, b)]
  | c :: cs =>
    if a < c.1 then (if b = Memory.unlisted then c :: cs else (a, b) :: c :: cs)
    else if a = c.1 then (if b = Memory.unlisted then cs else (a, b) :: cs)
    else c :: Memory.write cs a b

/-- Every address is at least `lo`, they rise strictly, they are below `size`, and no byte is the unlisted one. -/
def Memory.wfFrom (size lo : Nat) (m : Memory) : Bool :=
  match m with
  | [] => true
  | c :: cs =>
    decide (lo ≤ c.1) && decide (c.1 < size) && decide (c.2 ≠ Memory.unlisted) && Memory.wfFrom size (c.1 + 1) cs

/-- The canonical form of a memory of `size` bytes. -/
def Memory.wf (size : Nat) (m : Memory) : Bool := Memory.wfFrom size 0 m

/-- `MemRead(sp, a, n)` on one memory (R32). -/
def Memory.readBytes (m : Memory) (a : Nat) : Nat → List Byte
  | 0 => []
  | n + 1 => m.read a :: Memory.readBytes m (a + 1) n

/-- `MemWrite(sp, a, n, s)` on one memory (R32). -/
def Memory.writeBytes (m : Memory) (a : Nat) : List Byte → Memory
  | [] => m
  | b :: bs => Memory.writeBytes (m.write a b) (a + 1) bs

/-- Stores each cell's byte at its address, in the order of the list. -/
def Memory.writeCells (m : Memory) : List Host.Cell → Memory
  | [] => m
  | c :: cs => Memory.writeCells (m.write c.1 c.2) cs

/-- The memory of a bank. -/
def State.bank (s : State) : Bank → Memory
  | .msg => s.msg
  | .sft => s.sft

/-- `MemRead` (R32) on a bank: it changes nothing. -/
def State.readBytes (s : State) (b : Bank) (off n : Nat) : List Byte := (s.bank b).readBytes off n

/-- `MemWrite` (R32) on a bank. -/
def State.writeBank (s : State) (b : Bank) (off : Nat) (bytes : List Byte) : State :=
  match b with
  | .msg => { s with msg := s.msg.writeBytes off bytes }
  | .sft => { s with sft := s.sft.writeBytes off bytes }

/-- `MSG[0x052]`, the subframe number of the frame in the buffer (R23). -/
def State.subframeNumber (s : State) : Nat := (s.msg.read subframeNumberOff).toNat

/-- The bytes of a write to `SFM` that land, each with its place in `MSG` (R180): the byte at table address `t` lands
at `SLICE_OFF + t mod 16` exactly when `t div 16` is the carried slice `k`. -/
def windowCells (sliceOff k : Nat) (t : Nat) : List Byte → List Host.Cell
  | [] => []
  | b :: bs =>
    if t / sliceLen = k then (sliceOff + t % sliceLen, b) :: windowCells sliceOff k (t + 1) bs
    else windowCells sliceOff k (t + 1) bs

/-- The cells a write of `bytes` at table address `a` stores through the window in state `s` (R180): the subframe
number is read once, before any byte is written. -/
def State.windowCells (s : State) (a : Nat) (bytes : List Byte) : List Host.Cell :=
  Sys2Proof.Machine.windowCells s.cfg.sliceOff s.subframeNumber a bytes

/-- `MemWrite(SFM, a, n, s)` (R180). A miss writes nothing and is not an error. -/
def State.writeWindow (s : State) (a : Nat) (bytes : List Byte) : State :=
  { s with
    msg := s.msg.writeCells (s.windowCells a bytes)
    status := s.status.setSfmHit (!(s.windowCells a bytes).isEmpty) }

/-- `MemWrite` on any space (R32, R180). -/
def State.writeSpace (s : State) (sp : Space) (off : Nat) (bytes : List Byte) : State :=
  match sp with
  | .bank b => s.writeBank b off bytes
  | .sfm => s.writeWindow off bytes

/-! ### The command port -/

/-- The host presents its next packet: the packet, and the state with the packet taken from the port; none when the
host presents none (R8; log 1). -/
def State.nextPacket (s : State) : Option (Packet × State) :=
  match s.input with
  | [] => none
  | p :: rest => some (p, { s with input := rest })

/-- `respond(payload)` (R7): the response `OK` and the payload (R51). -/
def State.respond (s : State) (payload : Packet) : State :=
  { s with output := s.output ++ [0x00#8 :: payload] }

/-! ### Command errors -/

/-- Taking a command error (R241): the sticky bit of its class, then the response of one byte, its code; nothing else
changes. Nothing is saved, so there is no return from it: the next command runs in the state it left (R245). -/
def State.raise (s : State) (e : CommandError) : State :=
  { s with status := s.status.setError e, output := s.output ++ [[errorCode e]] }

/-- The end of a command that was executed in `s`: its new state and its response payload, or the error it raised,
taken in `s` itself, so that an abandoned command has changed nothing (R241). -/
def finish (s : State) : Except CommandError (State × Packet) → Host.Outcome State Fault Refusal
  | .ok (t, payload) => .next (t.respond payload)
  | .error e => .next (s.raise e)

end Sys2Proof.Machine
end

