-- ==== Sys2Proof/Machine/Crc.lean ====
section
/-! DEFINITION. CRC-16 (spec/40_crc16.md): the function and its three commands. -/

namespace Sys2Proof.Machine

/-- One shift step of R80: bit 15 goes out, and selects whether the polynomial is added. -/
def crcShift (c : BitVec 16) : BitVec 16 :=
  if c.msb then (c <<< 1) ^^^ crcPoly else c <<< 1

/-- The 8 shift steps of R80. -/
def crcShift8 (c : BitVec 16) : BitVec 16 :=
  crcShift (crcShift (crcShift (crcShift (crcShift (crcShift (crcShift (crcShift c)))))))

/-- One byte of R80: it enters at bits 15:8, bit 7 first. -/
def crcByte (c : BitVec 16) (b : Byte) : BitVec 16 :=
  crcShift8 (c ^^^ (b.zeroExtend 16 <<< 8))

/-- The register after a byte sequence, from the register `c`. -/
def crcFrom (c : BitVec 16) (s : List Byte) : BitVec 16 := s.foldl crcByte c

/-- `crc16` (R80): initial value 0xFFFF, no final XOR. -/
def crc16 (s : List Byte) : BitVec 16 := crcFrom crcInit s

/-- `CRC16 addr, len` (R84). -/
def execCrc16 (addr len : BitVec 16) (s : State) : Host.Outcome State Fault Refusal :=
  finish s do
    let (b, off) ← decodeReadAddr addr
    checkRange b.size off len.toNat
    let v := crc16 (s.readBytes b off len.toNat)
    .ok ({ s with crcr := v }, leBytes 2 v.toNat)

/-- `CRC16.I data` (R85). Its length check is the decoder's (R61, check 3). -/
def execCrc16I (data : List Byte) (s : State) : Host.Outcome State Fault Refusal :=
  finish s (.ok ({ s with crcr := crc16 data }, leBytes 2 (crc16 data).toNat))

/-- `RD.CRC` (R86). -/
def execRdCrc (s : State) : Host.Outcome State Fault Refusal :=
  finish s (.ok (s, leBytes 2 s.crcr.toNat))

end Sys2Proof.Machine
end

