-- ==== Sys2Proof/Machine/Blocks.lean ====
section
/-! DEFINITION. The block commands (spec/44_blocks_subframes.md R190 to R198) over the layout of
spec/20_memory.md R35. -/

namespace Sys2Proof.Machine

/-- `B`: where block `k` starts in `MSG` (R190). -/
def State.blockBase (s : State) (k : Fin 6) : Nat := s.cfg.blockOff[k]

/-- `L`: the data length of block `k` (R190). -/
def State.blockLength (s : State) (k : Fin 6) : Nat := s.cfg.blockLen[k]

/-- The two-byte header of block `k`: its ID and its length byte (R192). -/
def State.blockHeader (s : State) (k : Fin 6) : List Byte :=
  [blockId[k], BitVec.ofNat 8 (s.blockLength k)]

/-- The data span `MSG[B+2 .. B+1+L]` (R35). -/
def State.blockData (s : State) (k : Fin 6) : List Byte :=
  s.msg.readBytes (s.blockBase k + 2) (s.blockLength k)

/-- Where the CRC field of block `k` stands: `B + 2 + L` (R35). -/
def State.blockCrcOff (s : State) (k : Fin 6) : Nat := s.blockBase k + 2 + s.blockLength k

/-- The stored CRC of block `k`, low byte first (R87). -/
def State.storedCrc (s : State) (k : Fin 6) : Nat := unle (s.msg.readBytes (s.blockCrcOff k) 2)

/-- Whether the stored CRC of block `k` equals the computed one (R194). -/
def State.blockCrcMatches (s : State) (k : Fin 6) : Bool :=
  s.storedCrc k == (crc16 (s.blockData k)).toNat

/-- Writing the CRC `c` into the CRC field of block `k` and recording it: `CRCR` is `c` and `CRC_OK[k]` is 1
(R193). -/
def State.storeBlockCrc (s : State) (k : Fin 6) (c : BitVec 16) : State :=
  { s with
    msg := s.msg.writeBytes (s.blockCrcOff k) (leBytes 2 c.toNat)
    crcr := c
    status := s.status.setCrcOk k true }

/-- Recording the comparison of block `k`: `CRCR` is the computed CRC, `CRC_OK[k]` the result (R194). -/
def State.recordBlockCheck (s : State) (k : Fin 6) : State :=
  { s with
    crcr := crc16 (s.blockData k)
    status := s.status.setCrcOk k (s.blockCrcMatches k) }

/-- The validity byte of `BLK.READ` (R196): bit 0 CRC match, bit 1 ID, bit 2 length byte, bits 7:3 zero. -/
def State.validityByte (s : State) (k : Fin 6) : Byte :=
  BitVec.ofBoolListLE
    [s.blockCrcMatches k,
     s.msg.read (s.blockBase k) == blockId[k],
     (s.msg.read (s.blockBase k + 1)).toNat == s.blockLength k,
     false, false, false, false, false]

/-- `BLK.HDR blk` (R192). -/
def execBlkHdr (blk : Byte) (s : State) : Host.Outcome State Fault Refusal :=
  finish s do
    let k ← decodeBlk blk
    .ok ({ s with msg := s.msg.writeBytes (s.blockBase k) (s.blockHeader k) }, [])

/-- `BLK.SETCRC blk` (R193). -/
def execBlkSetcrc (blk : Byte) (s : State) : Host.Outcome State Fault Refusal :=
  finish s do
    let k ← decodeBlk blk
    .ok (s.storeBlockCrc k (crc16 (s.blockData k)), [])

/-- `BLK.CHKCRC blk` (R194). A mismatch is a result, not an error (R247). -/
def execBlkChkcrc (blk : Byte) (s : State) : Host.Outcome State Fault Refusal :=
  finish s do
    let k ← decodeBlk blk
    .ok (s.recordBlockCheck k, [if s.blockCrcMatches k then 0x01#8 else 0x00#8])

/-- `BLK.BUILD blk, data` (R195): the block index before the length, which depends on it. -/
def execBlkBuild (blk : Byte) (data : List Byte) (s : State) : Host.Outcome State Fault Refusal :=
  finish s do
    let k ← decodeBlk blk
    checkLength (data.length == s.blockLength k)
    let t := { s with msg := s.msg.writeBytes (s.blockBase k) (s.blockHeader k ++ data) }
    .ok (t.storeBlockCrc k (crc16 data), [])

/-- `BLK.READ blk` (R196): the data is returned whatever the validity byte says. -/
def execBlkRead (blk : Byte) (s : State) : Host.Outcome State Fault Refusal :=
  finish s do
    let k ← decodeBlk blk
    .ok (s.recordBlockCheck k, s.validityByte k :: s.blockData k)

end Sys2Proof.Machine
end

