-- ==== Sys2Proof/Machine/Getters.lean ====
section
/-! DEFINITION. The reading accessors (spec/43_field_accessors.md R153 to R161, R171). -/

namespace Sys2Proof.Machine

/-- The common procedure of `GET.<T>` (R153). -/
def getField (t : FieldType) (addr : BitVec 16) (s : State) : Host.Outcome State Fault Refusal :=
  finish s do
    let (b, off) ← decodeReadAddr addr
    checkRange b.size off t.width
    .ok (s, leBytes 4 (t.extend (unle (s.readBytes b off t.width))).toNat)

/-- `GET.U8` (R154). -/
def execGetU8 (addr : BitVec 16) (s : State) : Host.Outcome State Fault Refusal := getField .u8 addr s

/-- `GET.U16` (R155). -/
def execGetU16 (addr : BitVec 16) (s : State) : Host.Outcome State Fault Refusal := getField .u16 addr s

/-- `GET.U24` (R156). -/
def execGetU24 (addr : BitVec 16) (s : State) : Host.Outcome State Fault Refusal := getField .u24 addr s

/-- `GET.U32` (R157). -/
def execGetU32 (addr : BitVec 16) (s : State) : Host.Outcome State Fault Refusal := getField .u32 addr s

/-- `GET.S8` (R158). -/
def execGetS8 (addr : BitVec 16) (s : State) : Host.Outcome State Fault Refusal := getField .s8 addr s

/-- `GET.S16` (R159). -/
def execGetS16 (addr : BitVec 16) (s : State) : Host.Outcome State Fault Refusal := getField .s16 addr s

/-- `GET.S32` (R160). -/
def execGetS32 (addr : BitVec 16) (s : State) : Host.Outcome State Fault Refusal := getField .s32 addr s

/-- `GET.F32` (R161): the 32 bits pass through unchanged. -/
def execGetF32 (addr : BitVec 16) (s : State) : Host.Outcome State Fault Refusal := getField .f32 addr s

/-- `GET.STR addr, len` (R171): the raw bytes, padding included. -/
def execGetStr (addr len : BitVec 16) (s : State) : Host.Outcome State Fault Refusal :=
  finish s do
    let (b, off) ← decodeReadAddr addr
    checkRange b.size off len.toNat
    .ok (s, s.readBytes b off len.toNat)

end Sys2Proof.Machine
end

