-- ==== Sys2Proof/Machine/Galois.lean ====
section
/-! DEFINITION. Arithmetic in GF(256) and over its polynomials (spec/41_reed_solomon.md R101 to R103), and a solver of
linear systems. `p` is `RS_PRIM_POLY` throughout. -/

namespace Sys2Proof.Machine

/-- Multiplication by `x` (R101): shift in 9 bits, reduce back to 8. -/
def gfDouble (p : BitVec 9) (a : Byte) : Byte :=
  let a9 := a.zeroExtend 9 <<< 1
  (if a9.getLsbD 8 then a9 ^^^ p else a9).truncate 8

/-- `n` rounds of the loop of R101, with the running sum `r`. -/
def gfMulLoop (p : BitVec 9) (n : Nat) (a b r : Byte) : Byte :=
  match n with
  | 0 => r
  | n + 1 => gfMulLoop p n (gfDouble p a) (b >>> 1) (if b.getLsbD 0 then r ^^^ a else r)

/-- `gf_mul(a, b)` (R101). -/
def gfMul (p : BitVec 9) (a b : Byte) : Byte := gfMulLoop p 8 a b 0#8

/-- `a^e`, by repeated multiplication (log 13). -/
def gfPow (p : BitVec 9) (a : Byte) : Nat → Byte
  | 0 => 1#8
  | e + 1 => gfMul p (gfPow p a e) a

/-- `gf_inv(a)` (R103): `a^254`, since every nonzero element has `a^255 = 1` (log 13). -/
def gfInv (p : BitVec 9) (a : Byte) : Byte := gfPow p a 254

/-- `poly_eval(c, x)` (R103): coefficients in ascending degree, Horner from the highest. -/
def polyEval (p : BitVec 9) (c : List Byte) (x : Byte) : Byte :=
  c.foldr (fun ci y => gfMul p y x ^^^ ci) 0#8

/-- `(x + r) * c(x)`, coefficients in ascending degree. -/
def polyMulLinear (p : BitVec 9) (r : Byte) (c : List Byte) : List Byte :=
  List.zipWith (· ^^^ ·) (0#8 :: c) (c.map (gfMul p r) ++ [0#8])

/-- `q + f * r`, coefficient by coefficient. -/
def addScaled (p : BitVec 9) (q : List Byte) (f : Byte) (r : List Byte) : List Byte :=
  List.zipWith (fun qi ri => qi ^^^ gfMul p f ri) q r

/-- The value of a row at `x`: the sum of its coefficients times the unknowns, plus its last entry, the constant.
The row is the equation that this value is 0. -/
def rowValue (p : BitVec 9) : List Byte → List Byte → Byte
  | a :: row, x :: xs => gfMul p a x ^^^ rowValue p row xs
  | c :: _, [] => c
  | [], _ => 0#8

/-- A solution of the rows in `n` unknowns, if there is one, by elimination of the first unknown with the first row
that has it; an unknown no row has is set to 0. -/
def solveLinear (p : BitVec 9) (n : Nat) (rows : List (List Byte)) : Option (List Byte) :=
  match n with
  | 0 => if rows.all (fun r => r.headD 0#8 == 0#8) then some [] else none
  | n + 1 =>
    match rows.find? (fun r => r.headD 0#8 != 0#8) with
    | none => (solveLinear p n (rows.map List.tail)).map (0#8 :: ·)
    | some r =>
      let pivot := r.tail.map (gfMul p (gfInv p (r.headD 0#8)))
      (solveLinear p n (rows.map fun q => addScaled p q.tail (q.headD 0#8) pivot)).map
        fun xs => rowValue p pivot xs :: xs

end Sys2Proof.Machine
end

