-- ==== Sys2Proof/Machine/ReedSolomon.lean ====
section
/-! DEFINITION. The Reed-Solomon encoder and decoder (spec/41_reed_solomon.md). -/

namespace Sys2Proof.Machine

/-! ### The code -/

/-- `alpha^e` (R102, R103): exponents count modulo 255. -/
def alphaPow (c : Config) (e : Nat) : Byte := gfPow c.rsPrimPoly c.rsAlpha (e % 255)

/-- The root `alpha^(RS_FCR+k)` of the generator polynomial (R104). -/
def rsRoot (c : Config) (k : Nat) : Byte := alphaPow c (c.rsFcr + k)

/-- The generator polynomial `g`, 25 coefficients in ascending degree (R104). -/
def rsGenerator (c : Config) : List Byte :=
  (List.range rsParityLen).foldl (fun g k => polyMulLinear c.rsPrimPoly (rsRoot c k) g) [1#8]

/-- One step of the shift register of R107 with the next data symbol `d`, `g` the generator. -/
def rsShift (p : BitVec 9) (g : List Byte) (d : Byte) (rem : List Byte) : List Byte :=
  let fb := d ^^^ rem.getLastD 0#8
  let shifted := 0#8 :: rem.dropLast
  if fb = 0#8 then shifted else addScaled p shifted fb g

/-- `rs_parity(d)` (R107): the highest degree is fed first. -/
def rsParity (c : Config) (d : List Byte) : List Byte :=
  d.foldr (rsShift c.rsPrimPoly (rsGenerator c)) (List.replicate rsParityLen 0#8)

/-- The 24 syndromes `S_k(w)` (R108). -/
def syndromes (c : Config) (w : List Byte) : List Byte :=
  (List.range rsParityLen).map fun k => polyEval c.rsPrimPoly w (rsRoot c k)

/-- All 24 syndromes are zero: for 156 symbols, `w` is a codeword (R104, R108). -/
def isCodeword (c : Config) (w : List Byte) : Bool := (syndromes c w).all (· == 0#8)

/-! ### The decoder (R109 by the steps of R110) -/

/-- The equations of R110 for a locator of length `L`: for `n = L..23`, the unknowns `L1..LL` times
`S[n-1]..S[n-L]`, plus `S[n]`, is 0. -/
def locatorRows (synd : List Byte) (l : Nat) : List (List Byte) :=
  (List.range' l (rsParityLen - l)).map fun n =>
    ((List.range l).map fun i => synd.getD (n - 1 - i) 0#8) ++ [synd.getD n 0#8]

/-- The error locator (R110 step 1): the shortest `1 + L1 x + ... + LL x^L` with `1 ≤ L ≤ 12` that satisfies the
equations, by solving them for each length in turn (log 12). -/
def errorLocator (c : Config) (synd : List Byte) : Option (List Byte) :=
  (List.range' 1 rsRadius).findSome? fun l =>
    (solveLinear c.rsPrimPoly l (locatorRows synd l)).map (1#8 :: ·)

/-- The error positions (R110 step 2): the `j` in 0..254 with `Lambda(alpha^(-j)) = 0`. -/
def errorPositions (c : Config) (locator : List Byte) : List Nat :=
  (List.range 255).filter fun j => polyEval c.rsPrimPoly locator (alphaPow c (255 - j)) == 0#8

/-- The equations of the error values (R110 step 3), for `k = 0..L-1`. -/
def errorRows (c : Config) (synd : List Byte) (pos : List Nat) : List (List Byte) :=
  (List.range pos.length).map fun k =>
    (pos.map fun j => alphaPow c ((c.rsFcr + k) * j)) ++ [synd.getD k 0#8]

/-- `w` with each error value added at its position (R110 step 3). -/
def addErrors (w : List Byte) (errors : List (Nat × Byte)) : List Byte :=
  errors.foldl (fun c e => c.modify e.1 (· ^^^ e.2)) w

/-- Steps 2 to 4 of R110 for a given locator; the last is band1's post-correction parity check. -/
def correctWith (c : Config) (w synd locator : List Byte) : Option (List Byte) :=
  let pos := errorPositions c locator
  if locator.getLastD 0#8 = 0#8 then none
  else if pos.length ≠ locator.length - 1 then none
  else if pos.any (rsCodeLen ≤ ·) then none
  else
    match solveLinear c.rsPrimPoly pos.length (errorRows c synd pos) with
    | none => none
    | some values =>
      let fixed := addErrors w (pos.zip values)
      if isCodeword c fixed then some fixed else none

/-- The codeword within 12 symbols of `w`, if there is one (R109). -/
def rsCorrect (c : Config) (w : List Byte) : Option (List Byte) :=
  if isCodeword c w then some w
  else
    match errorLocator c (syndromes c w) with
    | none => none
    | some locator => correctWith c w (syndromes c w) locator

/-- `rs_decode(w)` (R109): `(true, c)`, or `(false, w)`. -/
def rsDecode (c : Config) (w : List Byte) : Bool × List Byte :=
  match rsCorrect c w with
  | some fixed => (true, fixed)
  | none => (false, w)

/-! ### The streams in the frame -/

/-- `DATA_BASE[k]` (R106): 56 for stream 0, 57 for stream 1. -/
def dataBase (k : Fin 2) : Nat := payloadBase + k

/-- `PAR_BASE[k]` (R106). -/
def parBase (c : Config) (k : Fin 2) : Nat := c.rsParBase[k]

/-- The 132 data symbols of stream `k`, ascending degree (R105, R106). -/
def State.streamData (s : State) (k : Fin 2) : List Byte :=
  (List.range rsDataLen).map fun i => s.msg.read (dataBase k + 2 * i)

/-- The 24 parity symbols of stream `k`, ascending degree (R106). -/
def State.streamParity (s : State) (k : Fin 2) : List Byte :=
  s.msg.readBytes (parBase s.cfg k) rsParityLen

/-- The codeword `cw_k` (R106). -/
def State.codeword (s : State) (k : Fin 2) : List Byte := s.streamParity k ++ s.streamData k

/-- Where the data symbols `d` of stream `k` are stored (R106): every other byte. -/
def dataCells (k : Fin 2) (d : List Byte) : List Host.Cell :=
  d.zipIdx.map fun x => (dataBase k + 2 * x.2, x.1)

/-- Recomputing the parity of stream `k` (R112). -/
def State.encodeStream (s : State) (k : Fin 2) : State :=
  { s with msg := s.msg.writeBytes (parBase s.cfg k) (rsParity s.cfg (s.streamData k)) }

/-- Writing back the corrected word `w` of stream `k` (R113): its data, and its parity if the parameter says so. -/
def State.storeCorrected (s : State) (k : Fin 2) (w : List Byte) : State :=
  let data := s.msg.writeCells (dataCells k (w.drop rsParityLen))
  { s with
    msg := if s.cfg.rsDecWritesParity then data.writeBytes (parBase s.cfg k) (w.take rsParityLen) else data }

/-- Decoding stream `k` (R113): the record `RS_REC[k]`, and the write-back only if the stream is recoverable. -/
def State.decodeStream (s : State) (k : Fin 2) : State :=
  let r := rsDecode s.cfg (s.codeword k)
  let t := { s with status := s.status.setRsRec k r.1 }
  if r.1 then t.storeCorrected k r.2 else t

/-- The response byte of `RS.DEC` (R113): bit 0 `RS_REC0`, bit 1 `RS_REC1`, bit 2 `RS_OK`, bits 7:3 zero. -/
def Status.rsByte (st : Status) : Byte :=
  BitVec.ofBoolListLE [st.rsRec0, st.rsRec1, st.rsOk, false, false, false, false, false]

/-! ### Commands -/

/-- `RS.ENC` (R112). -/
def execRsEnc (s : State) : Host.Outcome State Fault Refusal :=
  finish s (.ok ((s.encodeStream 0).encodeStream 1, []))

/-- `RS.DEC` (R113). An unrecoverable stream is a result, not an error (R247). -/
def execRsDec (s : State) : Host.Outcome State Fault Refusal :=
  let t := (s.decodeStream 0).decodeStream 1
  finish s (.ok (t, [t.status.rsByte]))

end Sys2Proof.Machine
end

