-- ==== Sys2Proof/Machine/Setters.lean ====
section
/-! DEFINITION. The writing accessors (spec/43_field_accessors.md R162 to R170, R172), on `MSG`, `SFT` and the window
`SFM`. -/

namespace Sys2Proof.Machine

/-- The common procedure of `SET.<T>` (R170): the value test stands before the range test. -/
def setField (t : FieldType) (addr : BitVec 16) (val : BitVec 32) (s : State) : Host.Outcome State Fault Refusal :=
  finish s do
    let (sp, off) ← decodeAddr addr
    checkArgument (t.fits val)
    checkRange sp.size off t.width
    .ok (s.writeSpace sp off (leBytes t.width val.toNat), [])

/-- `SET.U8` (R162). -/
def execSetU8 (addr : BitVec 16) (val : BitVec 32) (s : State) : Host.Outcome State Fault Refusal :=
  setField .u8 addr val s

/-- `SET.U16` (R163). -/
def execSetU16 (addr : BitVec 16) (val : BitVec 32) (s : State) : Host.Outcome State Fault Refusal :=
  setField .u16 addr val s

/-- `SET.U24` (R164). -/
def execSetU24 (addr : BitVec 16) (val : BitVec 32) (s : State) : Host.Outcome State Fault Refusal :=
  setField .u24 addr val s

/-- `SET.U32` (R165). -/
def execSetU32 (addr : BitVec 16) (val : BitVec 32) (s : State) : Host.Outcome State Fault Refusal :=
  setField .u32 addr val s

/-- `SET.S8` (R166). -/
def execSetS8 (addr : BitVec 16) (val : BitVec 32) (s : State) : Host.Outcome State Fault Refusal :=
  setField .s8 addr val s

/-- `SET.S16` (R167). -/
def execSetS16 (addr : BitVec 16) (val : BitVec 32) (s : State) : Host.Outcome State Fault Refusal :=
  setField .s16 addr val s

/-- `SET.S32` (R168). -/
def execSetS32 (addr : BitVec 16) (val : BitVec 32) (s : State) : Host.Outcome State Fault Refusal :=
  setField .s32 addr val s

/-- `SET.F32` (R169): the pattern is stored bit for bit. -/
def execSetF32 (addr : BitVec 16) (val : BitVec 32) (s : State) : Host.Outcome State Fault Refusal :=
  setField .f32 addr val s

/-- The bytes `SET.STR` writes (R172): the data, then zeros up to the field's width. -/
def padded (width : Nat) (data : List Byte) : List Byte :=
  data ++ List.replicate (width - data.length) 0x00#8

/-- `SET.STR addr, width, data` (R172): never truncated. Its length check is the decoder's (R61, check 3). -/
def execSetStr (addr width : BitVec 16) (data : List Byte) (s : State) : Host.Outcome State Fault Refusal :=
  finish s do
    let (sp, off) ← decodeAddr addr
    checkArgument (data.length ≤ width.toNat)
    checkRange sp.size off width.toNat
    .ok (s.writeSpace sp off (padded width.toNat data), [])

end Sys2Proof.Machine
end

