-- ==== Sys2Proof/Machine/Subframes.lean ====
section
/-! DEFINITION. The subframe table commands (spec/44_blocks_subframes.md R200 to R204). -/

namespace Sys2Proof.Machine

/-- The 16 bytes the frame contributes to the table: `MSG[SLICE_OFF .. SLICE_OFF+15]` (R37). -/
def State.carriedSlice (s : State) : List Byte := s.msg.readBytes s.cfg.sliceOff sliceLen

/-- `SF.CAPTURE` (R200): the slice is overwritten whole; a subframe number above 50 is refused. -/
def execSfCapture (s : State) : Host.Outcome State Fault Refusal :=
  finish s
    (if lastSubframe < s.subframeNumber then .error .subframeRange
     else
      .ok
        ({ s with
            sft := s.sft.writeBytes (sliceLen * s.subframeNumber) s.carriedSlice
            seen := markSeen s.subframeNumber s.seen },
          []))

/-- `SF.RD.SEEN` (R201): `SEEN` as 7 bytes, little-endian. -/
def execSfRdSeen (s : State) : Host.Outcome State Fault Refusal :=
  finish s (.ok (s, leBytes 7 s.seen.toNat))

/-- `SF.CLEAR` (R202): `SEEN` becomes 0, the table keeps its bytes. -/
def execSfClear (s : State) : Host.Outcome State Fault Refusal :=
  finish s (.ok ({ s with seen := 0#51 }, []))

end Sys2Proof.Machine
end

