-- ==== Sys2Proof/Machine/System.lean ====
section
/-! DEFINITION. The system commands (spec/45_system.md). -/

namespace Sys2Proof.Machine

/-- The effect of the reset event on a running instance (R270): `SEEN`, `CRCR` and `STATUS` take their reset values,
both memories keep their contents. The port's two lists are the host's (log 1). -/
def State.resetRegisters (s : State) : State :=
  { s with seen := 0#51, crcr := crcInit, status := Status.zero }

/-- `NOP` (R230). -/
def execNop (s : State) : Host.Outcome State Fault Refusal :=
  finish s (.ok (s, []))

/-- `RD.STATUS` (R231): `STATUS`, low byte first; reading clears nothing. -/
def execRdStatus (s : State) : Host.Outcome State Fault Refusal :=
  finish s (.ok (s, leBytes 2 s.statusWord.toNat))

/-- `CLR.ERR` (R232): the four sticky bits become 0. -/
def execClrErr (s : State) : Host.Outcome State Fault Refusal :=
  finish s (.ok ({ s with status := s.status.clearErrors }, []))

/-- `RESET` (R233): the reset event, then the response. -/
def execReset (s : State) : Host.Outcome State Fault Refusal :=
  finish s (.ok (s.resetRegisters, []))

end Sys2Proof.Machine
end

