-- ==== Sys2Proof/Machine/Whitening.lean ====
section
/-! DEFINITION. The whitening transform (spec/42_whitening.md), XOR first and bit reversal after it
(spec/90_conflicts.md C1). -/

namespace Sys2Proof.Machine

/-- `rev8` (R130): bit `i` of the argument is bit `7 - i` of the result. -/
def rev8 (b : Byte) : Byte :=
  BitVec.ofBoolListLE
    [b.getLsbD 7, b.getLsbD 6, b.getLsbD 5, b.getLsbD 4, b.getLsbD 3, b.getLsbD 2, b.getLsbD 1, b.getLsbD 0]

/-- `M[i mod 64]` (R132). -/
def maskByte (mask : Vector Byte 64) (i : Nat) : Byte :=
  mask[i % 64]'(Nat.mod_lt i (by decide))

/-- `whiten` of a sequence whose first byte has index `i` (R132). -/
def whitenFrom (mask : Vector Byte 64) (i : Nat) : List Byte → List Byte
  | [] => []
  | x :: xs => rev8 (x ^^^ maskByte mask i) :: whitenFrom mask (i + 1) xs

/-- `whiten(x)` (R132): the mask index counts from the start of the sequence. -/
def whiten (mask : Vector Byte 64) (x : List Byte) : List Byte := whitenFrom mask 0 x

/-- `unwhiten` of a sequence whose first byte has index `i` (R135). -/
def unwhitenFrom (mask : Vector Byte 64) (i : Nat) : List Byte → List Byte
  | [] => []
  | y :: ys => (rev8 y ^^^ maskByte mask i) :: unwhitenFrom mask (i + 1) ys

/-- The true inverse of `whiten` (R135). No command computes it; statements speak of it. -/
def unwhiten (mask : Vector Byte 64) (y : List Byte) : List Byte := unwhitenFrom mask 0 y

/-- `WHITEN addr, len` (R133): in place, the mask phase starting at the first byte of the range. -/
def execWhiten (addr len : BitVec 16) (s : State) : Host.Outcome State Fault Refusal :=
  finish s do
    let (b, off) ← decodeReadAddr addr
    checkRange b.size off len.toNat
    .ok (s.writeBank b off (whiten s.cfg.whitenMask (s.readBytes b off len.toNat)), [])

end Sys2Proof.Machine
end

