-- ==== Sys2Proof/Machine/Dispatch.lean ====
section
/-! DEFINITION. One arm per command of spec/30_encoding.md R59. -/

namespace Sys2Proof.Machine

def exec (i : Instr) (s : State) : Host.Outcome State Fault Refusal :=
  match i with
  | .nop => Sys2Proof.Machine.execNop s
  | .rdStatus => Sys2Proof.Machine.execRdStatus s
  | .clrErr => Sys2Proof.Machine.execClrErr s
  | .reset => Sys2Proof.Machine.execReset s
  | .crc16 addr len => Sys2Proof.Machine.execCrc16 addr len s
  | .crc16I data => Sys2Proof.Machine.execCrc16I data s
  | .rdCrc => Sys2Proof.Machine.execRdCrc s
  | .blkHdr blk => Sys2Proof.Machine.execBlkHdr blk s
  | .blkSetcrc blk => Sys2Proof.Machine.execBlkSetcrc blk s
  | .blkChkcrc blk => Sys2Proof.Machine.execBlkChkcrc blk s
  | .blkBuild blk data => Sys2Proof.Machine.execBlkBuild blk data s
  | .blkRead blk => Sys2Proof.Machine.execBlkRead blk s
  | .rsEnc => Sys2Proof.Machine.execRsEnc s
  | .rsDec => Sys2Proof.Machine.execRsDec s
  | .whiten addr len => Sys2Proof.Machine.execWhiten addr len s
  | .getU8 addr => Sys2Proof.Machine.execGetU8 addr s
  | .getU16 addr => Sys2Proof.Machine.execGetU16 addr s
  | .getU24 addr => Sys2Proof.Machine.execGetU24 addr s
  | .getU32 addr => Sys2Proof.Machine.execGetU32 addr s
  | .getS8 addr => Sys2Proof.Machine.execGetS8 addr s
  | .getS16 addr => Sys2Proof.Machine.execGetS16 addr s
  | .getS32 addr => Sys2Proof.Machine.execGetS32 addr s
  | .getF32 addr => Sys2Proof.Machine.execGetF32 addr s
  | .getStr addr len => Sys2Proof.Machine.execGetStr addr len s
  | .setU8 addr val => Sys2Proof.Machine.execSetU8 addr val s
  | .setU16 addr val => Sys2Proof.Machine.execSetU16 addr val s
  | .setU24 addr val => Sys2Proof.Machine.execSetU24 addr val s
  | .setU32 addr val => Sys2Proof.Machine.execSetU32 addr val s
  | .setS8 addr val => Sys2Proof.Machine.execSetS8 addr val s
  | .setS16 addr val => Sys2Proof.Machine.execSetS16 addr val s
  | .setS32 addr val => Sys2Proof.Machine.execSetS32 addr val s
  | .setF32 addr val => Sys2Proof.Machine.execSetF32 addr val s
  | .setStr addr width data => Sys2Proof.Machine.execSetStr addr width data s
  | .sfCapture => Sys2Proof.Machine.execSfCapture s
  | .sfRdSeen => Sys2Proof.Machine.execSfRdSeen s
  | .sfClear => Sys2Proof.Machine.execSfClear s

end Sys2Proof.Machine
end

