-- ==== Sys2Proof/Machine/Step.lean ====
section
/-! DEFINITION. One step of the core: one command packet in, one response packet out (spec/00_scope.md R8). -/

namespace Sys2Proof.Machine

/-- The core takes the packet at the command port, and executes the command or takes the error the decoder found
(R60, R241). With no packet presented it is idle and holds its state (R255; log 1). -/
def step (s : State) : Host.Outcome State Fault Refusal :=
  match s.nextPacket with
  | none => .next s
  | some (p, t) =>
    match decode p with
    | .ok i => exec i t
    | .error e => finish t (.error e)

/-- The state in which the host presents the packet of an opcode-table word next (log 2, log 11). -/
def State.withFetchWord (s : State) (nbits w : Nat) : State :=
  { s with input := tablePacket nbits w :: s.input }

end Sys2Proof.Machine
end

