-- ==== Sys2Proof/Safety.lean ====
section
/-! DEFINITION. What claims ask of a state: parameters that meet the spec's constraints (spec/00_scope.md R5,
spec/20_memory.md R36), and memories in canonical form inside their sizes (R30). -/

namespace Sys2Proof

/-- The product of two polynomials over GF(2), written as numbers, for `a` below `2^n`. -/
def polyMul2 (n a b : Nat) : Nat :=
  match n with
  | 0 => 0
  | n + 1 => (if a.testBit n then b <<< n else 0) ^^^ polyMul2 n a b

/-- `RS_PRIM_POLY` has degree 8 and is irreducible over GF(2) (R5): it is no product of a factor of degree 1 to 4
and one of degree 1 to 7. -/
def Config.primIrreducible (c : Config) : Bool :=
  c.rsPrimPoly.getLsbD 8 &&
    (List.range 30).all fun a => (List.range 254).all fun b =>
      polyMul2 5 (a + 2) (b + 2) != c.rsPrimPoly.toNat

/-- Whether no power of `a` with exponent 1 to `n` is 1, `x` being `a^0`. -/
def noEarlierOne (p : BitVec 9) (a : Byte) (n : Nat) : Bool :=
  (List.range n).all fun e => Machine.gfPow p a (e + 1) != 1#8

/-- `RS_ALPHA` has multiplicative order 255 (R5, R101). -/
def Config.alphaPrimitive (c : Config) : Bool :=
  noEarlierOne c.rsPrimPoly c.rsAlpha 254 && Machine.gfPow c.rsPrimPoly c.rsAlpha 255 == 1#8

/-- The parity halves are the two 24-byte halves of 0x008..0x037, in either order (R5). -/
def Config.parityHalves (c : Config) : Bool :=
  (c.rsParBase[0] == 0x008 && c.rsParBase[1] == 0x020) || (c.rsParBase[0] == 0x020 && c.rsParBase[1] == 0x008)

/-- The blocks tile 0x039..0x13F in index order (R36). -/
def Config.blocksTile (c : Config) : Bool :=
  c.blockOff[0] == 0x039 &&
    c.blockOff[1] == c.blockOff[0] + c.blockLen[0] + 4 &&
    c.blockOff[2] == c.blockOff[1] + c.blockLen[1] + 4 &&
    c.blockOff[3] == c.blockOff[2] + c.blockLen[2] + 4 &&
    c.blockOff[4] == c.blockOff[3] + c.blockLen[3] + 4 &&
    c.blockOff[5] == c.blockOff[4] + c.blockLen[4] + 4 &&
    c.blockOff[5] + c.blockLen[5] + 4 == 0x140 &&
    c.blockLen.all (· ≤ 255)

/-- The slice lies in `MSG` and does not contain offset 0x052 (R5). -/
def Config.sliceFits (c : Config) : Bool :=
  decide (c.sliceOff + sliceLen ≤ msgSize) &&
    (decide (subframeNumberOff < c.sliceOff) || decide (c.sliceOff + sliceLen ≤ subframeNumberOff))

/-- The constraints every value of the parameters must meet (R5, R36). `WHITEN_MASK`, `RS_DEC_WRITES_PARITY` and
`FRAME_HEADER` have none. -/
structure Config.Admissible (c : Config) : Prop where
  irreducible : c.primIrreducible = true
  primitive : c.alphaPrimitive = true
  fcr : c.rsFcr ≤ 254
  parity : c.parityHalves = true
  blocks : c.blocksTile = true
  slice : c.sliceFits = true

/-- The invariant of the machine: admissible parameters, and both memories in canonical form inside their sizes. -/
structure Machine.State.Inv (s : Machine.State) : Prop where
  admissible : s.cfg.Admissible
  msg_wf : Machine.Memory.wf msgSize s.msg = true
  sft_wf : Machine.Memory.wf sftSize s.sft = true

end Sys2Proof
end

