-- ==== Sys2Proof/Certificates/Slice0/Obligations.lean ====
section
/-! DEFINITION. What is to be proved of the model, one `def Obligations.<Name> : Prop` each, and the words the
statements share (`Sys2Proof.Claims`). -/

namespace Sys2Proof.Claims

open Sys2Proof.Machine

/-! ### Operands, written from the spec -/

/-- The size of a memory (R30). -/
def bankSize : Bank → Nat
  | .msg => 1024
  | .sft => 816

/-- The address operand `MSG:off` or `SFT:off` (R56): `SEL * 2^14 + OFF`. -/
def bankAddr (b : Bank) (off : Nat) : BitVec 16 :=
  match b with
  | .msg => BitVec.ofNat 16 off
  | .sft => BitVec.ofNat 16 (0x4000 + off)

/-- The address operand `SFM:off` (R56). -/
def windowAddr (off : Nat) : BitVec 16 := BitVec.ofNat 16 (0x8000 + off)

/-- An address operand that every command refuses (R56): a reserved bit is set, or the select is 3. -/
def badAddr (addr : BitVec 16) : Prop := addr.toNat / 1024 % 16 ≠ 0 ∨ addr.toNat / 16384 = 3

/-- An address operand that a command that reads refuses (R56): also the select of `SFM`. -/
def badReadAddr (addr : BitVec 16) : Prop := badAddr addr ∨ addr.toNat / 16384 = 2

/-- The block operand of block `k` (R58). -/
def blkByte (k : Fin 6) : Byte := BitVec.ofNat 8 k

/-- The ID byte of block `k` (R4). -/
def idByte (k : Fin 6) : Byte := [0x79#8, 0x7A#8, 0x7C#8, 0x7D#8, 0x7B#8, 0x76#8].getD k 0#8

/-- Byte `i` of a number of `w` bits, byte 0 the lowest (R6). -/
def byteOf {w : Nat} (v : BitVec w) (i : Nat) : Byte := v.extractLsb' (8 * i) 8

/-- The 36 opcodes (R59). -/
def opcodes : List Nat :=
  [0x00, 0x01, 0x02, 0x03, 0x10, 0x11, 0x12, 0x20, 0x21, 0x22, 0x23, 0x24, 0x30, 0x31, 0x38,
   0x40, 0x41, 0x42, 0x43, 0x44, 0x45, 0x46, 0x47, 0x48,
   0x50, 0x51, 0x52, 0x53, 0x54, 0x55, 0x56, 0x57, 0x58, 0x60, 0x61, 0x62]

/-! ### Memory, byte by byte -/

/-- The bytes `m[off .. off+n-1]` (R32). -/
def span (m : Memory) (off n : Nat) : List Byte := (List.range n).map fun i => Memory.read m (off + i)

/-- `m'` is `m` with `bytes` stored from `off` on, and every other byte as it was. -/
def Stores (m m' : Memory) (off : Nat) (bytes : List Byte) : Prop :=
  ∀ a, Memory.read m' a =
    if off ≤ a ∧ a < off + bytes.length then bytes.getD (a - off) 0#8 else Memory.read m a

/-- The state with one memory replaced. -/
def withBank (s : State) (b : Bank) (m : Memory) : State :=
  match b with
  | .msg => { s with msg := m }
  | .sft => { s with sft := m }

/-! ### Answers and errors -/

/-- The state with the response `OK` and a payload added, and nothing else changed (R51). -/
def answered (s : State) (payload : Packet) : State :=
  { s with output := s.output ++ [0x00#8 :: payload] }

/-- `STATUS` after an error with code `rc`: its sticky bit is 1, every other field as it was (R242). -/
def sticky (rc : Byte) (st : Status) : Status :=
  { st with
    errOpc := st.errOpc || rc == 0x01#8
    errArg := st.errArg || (rc == 0x02#8 || rc == 0x03#8)
    errAddr := st.errAddr || rc == 0x04#8
    errSf := st.errSf || rc == 0x05#8 }

/-- The state after a command error with code `rc`: the sticky bit, the response, and nothing else (R241). -/
def failed (s : State) (rc : Byte) : State :=
  { s with status := sticky rc s.status, output := s.output ++ [[rc]] }

/-! ### Accessors, one row per type (R151) -/

/-- A `GET.<T>` with its width and its opcode. -/
structure Getter where
  instr : BitVec 16 → Instr
  width : Nat
  opcode : Byte

/-- The eight scalar getters (R151). -/
def getters : List Getter :=
  [⟨Instr.getU8, 1, 0x40#8⟩, ⟨Instr.getU16, 2, 0x41#8⟩, ⟨Instr.getU24, 3, 0x42#8⟩, ⟨Instr.getU32, 4, 0x43#8⟩,
   ⟨Instr.getS8, 1, 0x44#8⟩, ⟨Instr.getS16, 2, 0x45#8⟩, ⟨Instr.getS32, 4, 0x46#8⟩, ⟨Instr.getF32, 4, 0x47#8⟩]

/-- A `SET.<T>` with its width and the patterns that fit. -/
structure Setter where
  instr : BitVec 16 → BitVec 32 → Instr
  width : Nat
  fits : BitVec 32 → Bool

/-- A pattern that fits an unsigned field of `n` bits (R152). -/
def fitsUnsigned (n : Nat) (val : BitVec 32) : Bool := val.toNat < 2 ^ n

/-- A pattern that, as a two's-complement number, fits a signed field of `n` bits (R152). -/
def fitsSigned (n : Nat) (val : BitVec 32) : Bool :=
  decide (val.toNat < 2 ^ (n - 1)) || decide (2 ^ 32 - 2 ^ (n - 1) ≤ val.toNat)

/-- The eight scalar setters (R162 to R169). -/
def setters : List Setter :=
  [⟨Instr.setU8, 1, fitsUnsigned 8⟩, ⟨Instr.setU16, 2, fitsUnsigned 16⟩, ⟨Instr.setU24, 3, fitsUnsigned 24⟩,
   ⟨Instr.setU32, 4, fun _ => true⟩, ⟨Instr.setS8, 1, fitsSigned 8⟩, ⟨Instr.setS16, 2, fitsSigned 16⟩,
   ⟨Instr.setS32, 4, fun _ => true⟩, ⟨Instr.setF32, 4, fun _ => true⟩]

/-- The bytes a setter stores: the low bytes of its value, lowest first (R170). -/
def fieldBytes (g : Setter) (val : BitVec 32) : List Byte := (List.range g.width).map (byteOf val)

/-- The four bytes of a value in a packet, lowest first (R152). -/
def valueBytes (val : BitVec 32) : List Byte := (List.range 4).map (byteOf val)

/-- `t` is `s` after a write of `bytes` at table address `a` through `SFM` (R180): byte `16k + j` of the table, for
the carried slice `k`, lands at `SLICE_OFF + j`; `SFM_HIT` says whether any byte landed; nothing else changes but
the response. -/
def WindowStores (s t : State) (a : Nat) (bytes : List Byte) : Prop :=
  let k := (Memory.read s.msg 0x052).toNat
  t = { s with
        msg := t.msg
        status := { s.status with sfmHit := t.status.sfmHit }
        output := s.output ++ [[0x00#8]] } ∧
    (t.status.sfmHit = true ↔ ∃ i, i < bytes.length ∧ (a + i) / 16 = k) ∧
    ∀ x, Memory.read t.msg x =
      if s.cfg.sliceOff ≤ x ∧ x < s.cfg.sliceOff + 16 ∧ a ≤ 16 * k + (x - s.cfg.sliceOff) ∧
          16 * k + (x - s.cfg.sliceOff) < a + bytes.length then
        bytes.getD (16 * k + (x - s.cfg.sliceOff) - a) 0#8
      else Memory.read s.msg x

/-! ### Blocks and streams -/

/-- The computed CRC of block `k`: of its data span only (R87). -/
def blockCrc (s : State) (k : Fin 6) : BitVec 16 :=
  crc16 (span s.msg (s.cfg.blockOff[k] + 2) s.cfg.blockLen[k])

/-- The stored CRC of block `k`, low byte first (R87). -/
def storedBlockCrc (s : State) (k : Fin 6) : Nat :=
  (Memory.read s.msg (s.cfg.blockOff[k] + 2 + s.cfg.blockLen[k])).toNat +
    256 * (Memory.read s.msg (s.cfg.blockOff[k] + 3 + s.cfg.blockLen[k])).toNat

/-- The comparison of block `k` (R194). -/
def crcMatch (s : State) (k : Fin 6) : Bool := decide (storedBlockCrc s k = (blockCrc s k).toNat)

/-- The 132 data symbols of stream `k`, ascending degree (R105, R106). -/
def dataOf (s : State) (k : Fin 2) : List Byte :=
  (List.range 132).map fun i => Memory.read s.msg (56 + k + 2 * i)

/-- The codeword of stream `k` (R106). -/
def codewordOf (s : State) (k : Fin 2) : List Byte := span s.msg s.cfg.rsParBase[k] 24 ++ dataOf s k

/-- In how many positions two words differ. -/
def distance (a b : List Byte) : Nat := (List.zipWith (· != ·) a b).count true

/-- The commands run one after the other, from `s` to `t`. -/
def Runs (s : State) : List Instr → State → Prop
  | [], t => t = s
  | i :: is, t => ∃ u, exec i s = .next u ∧ Runs u is t

/-! ### Which command writes what -/

/-- The commands that write `CRCR` (R15, R233). -/
def writesCrcr : Instr → Bool
  | .crc16 _ _ | .crc16I _ | .blkSetcrc _ | .blkChkcrc _ | .blkBuild _ _ | .blkRead _ | .reset => true
  | _ => false

/-- The commands that write `SEEN` (R14, R233). -/
def writesSeen : Instr → Bool
  | .sfCapture | .sfClear | .reset => true
  | _ => false

/-- The commands that write `RS_REC0` and `RS_REC1` (R16, R233). -/
def writesRsRec : Instr → Bool
  | .rsDec | .reset => true
  | _ => false

/-- The commands that write `CRC_OK[k]` (R16, R233). -/
def writesCrcOk (k : Fin 6) : Instr → Bool
  | .blkSetcrc b | .blkChkcrc b | .blkBuild b _ | .blkRead b => b.toNat == k
  | .reset => true
  | _ => false

/-- `SET.<T>` and `SET.STR` (R162 to R169, R172). -/
def isSet : Instr → Bool
  | .setU8 _ _ | .setU16 _ _ | .setU24 _ _ | .setU32 _ _ => true
  | .setS8 _ _ | .setS16 _ _ | .setS32 _ _ | .setF32 _ _ | .setStr _ _ _ => true
  | _ => false

/-- The block commands (R190). -/
def isBlock : Instr → Bool
  | .blkHdr _ | .blkSetcrc _ | .blkChkcrc _ | .blkBuild _ _ | .blkRead _ => true
  | _ => false

/-- The commands that write `MSG` (R10). -/
def writesMsg : Instr → Bool
  | .blkHdr _ | .blkSetcrc _ | .blkBuild _ _ | .rsEnc | .rsDec | .whiten _ _ => true
  | i => isSet i

/-- The commands that write `SFT` (R11). -/
def writesSft : Instr → Bool
  | .sfCapture | .whiten _ _ => true
  | i => isSet i

end Sys2Proof.Claims

open Sys2Proof Sys2Proof.Machine Sys2Proof.Claims

/-! ## System commands -/

/-- R230: `NOP` answers with an empty payload and changes no state; its packet with any extra byte is BAD_LENGTH. -/
def Obligations.NopAnswersAndChangesNothing : Prop :=
  (∀ s : State, exec .nop s = .next (answered s [])) ∧
  decode [0x00#8] = .ok .nop ∧
  ∀ (b : Byte) (rest : Packet), decode (0x00#8 :: b :: rest) = .error .badLength

/-- R231: `RD.STATUS` answers the 16 bits of `STATUS`, low byte first, by the layout of R16 with the two computed
bits of R18, and changes nothing. -/
def Obligations.RdStatusAnswersEveryStatusBit : Prop :=
  decode [0x01#8] = .ok .rdStatus ∧
  ∀ s : State, ∃ b0 b1 : Byte,
    exec .rdStatus s = .next (answered s [b0, b1]) ∧
    b0.getLsbD 0 = s.status.rsRec0 ∧ b0.getLsbD 1 = s.status.rsRec1 ∧
    b0.getLsbD 2 = (s.status.rsRec0 && s.status.rsRec1) ∧
    b0.getLsbD 3 = s.status.crcOk[0] ∧ b0.getLsbD 4 = s.status.crcOk[1] ∧ b0.getLsbD 5 = s.status.crcOk[2] ∧
    b0.getLsbD 6 = s.status.crcOk[3] ∧ b0.getLsbD 7 = s.status.crcOk[4] ∧ b1.getLsbD 0 = s.status.crcOk[5] ∧
    (b1.getLsbD 1 = true ↔ ∀ k, k < 51 → s.seen.getLsbD k = true) ∧
    b1.getLsbD 2 = s.status.sfmHit ∧ b1.getLsbD 3 = false ∧
    b1.getLsbD 4 = s.status.errOpc ∧ b1.getLsbD 5 = s.status.errArg ∧
    b1.getLsbD 6 = s.status.errAddr ∧ b1.getLsbD 7 = s.status.errSf

/-- R232: `CLR.ERR` clears the four sticky error bits and nothing else. -/
def Obligations.ClrErrClearsOnlyTheStickyBits : Prop :=
  decode [0x02#8] = .ok .clrErr ∧
  ∀ s : State, exec .clrErr s = .next (answered
    { s with status := { s.status with errOpc := false, errArg := false, errAddr := false, errSf := false } } [])

/-- R21, R233: after power-on, for any parameters and any contents of the two memories, `SEEN` is 0, `CRCR` is
0xFFFF and `STATUS` reads 0x0000; the `RESET` command sets the same values, keeps both memories, and answers. A
`RESET` packet of another length is BAD_LENGTH. -/
def Obligations.ResetSetsTheRegistersAndKeepsMemory : Prop :=
  (∀ (cfg : Config) (m f : Memory),
    (State.powerOn cfg m f).seen = 0#51 ∧ (State.powerOn cfg m f).crcr = 0xFFFF#16 ∧
      (State.powerOn cfg m f).statusWord = 0x0000#16 ∧
      (State.powerOn cfg m f).msg = m ∧ (State.powerOn cfg m f).sft = f) ∧
  decode [0x03#8] = .ok .reset ∧
  (∀ (b : Byte) (rest : Packet), decode (0x03#8 :: b :: rest) = .error .badLength) ∧
  ∀ s : State, ∃ t, exec .reset s = .next t ∧
    t = { s with seen := 0#51, crcr := 0xFFFF#16, status := t.status, output := s.output ++ [[0x00#8]] } ∧
    t.statusWord = 0x0000#16

/-! ## One step -/

/-- When the packet at the port decodes to a command, the step is that command, executed in the state with the
packet taken from the port. The port as a list is the model's choice, log 1. -/
def Obligations.StepRunsTheDecodedCommand : Prop :=
  ∀ (s : State) (p : Packet) (rest : List Packet) (i : Instr),
    s.input = p :: rest → decode p = .ok i → step s = exec i { s with input := rest }

/-- When the decoder refuses the packet, it names ILLEGAL_OPCODE or BAD_LENGTH, and the step takes that error. The port
as a list is the model's choice, log 1. -/
def Obligations.StepTakesTheDecodersError : Prop :=
  ∀ (s : State) (p : Packet) (rest : List Packet) (e : CommandError),
    s.input = p :: rest → decode p = .error e →
      (e = .illegalOpcode ∧ step s = .next (failed { s with input := rest } 0x01#8)) ∨
      (e = .badLength ∧ step s = .next (failed { s with input := rest } 0x02#8))

/-- With no packet presented the core holds its state (R255); that this is a step is the model's choice, log 1. -/
def Obligations.IdleStepHoldsTheState : Prop :=
  ∀ s : State, s.input = [] → step s = .next s

/-- R51: every packet gets exactly one response; its first byte is a return code from 0 to 5, and a nonzero code is
followed by nothing. In particular no step faults or is refused. -/
def Obligations.EveryPacketGetsOneResponse : Prop :=
  ∀ (s : State) (p : Packet) (rest : List Packet), s.input = p :: rest →
    ∃ (t : State) (rc : Byte) (payload : Packet),
      step s = .next t ∧ t.input = rest ∧ t.output = s.output ++ [rc :: payload] ∧
      rc.toNat ≤ 5 ∧ (rc ≠ 0x00#8 → payload = [])

/-- R241: a step whose response is an error code has changed nothing but the sticky bit of its class (the
packet is taken and the response is sent). -/
def Obligations.CommandErrorsChangeOnlyTheirStickyBit : Prop :=
  ∀ (s t : State) (p : Packet) (rest : List Packet) (rc : Byte) (payload : Packet),
    s.input = p :: rest → step s = .next t → t.output = s.output ++ [rc :: payload] → rc ≠ 0x00#8 →
      payload = [] ∧ t = failed { s with input := rest } rc

/-- R19, R242: an error sets its sticky bit, and no command but `CLR.ERR` and `RESET` clears one: after any other packet
each bit is what it was, or 1 if the response is an error of its class. -/
def Obligations.StickyBitsStayUntilCleared : Prop :=
  ∀ (s t : State) (p : Packet) (rest : List Packet) (rc : Byte) (payload : Packet),
    s.input = p :: rest → step s = .next t → t.output = s.output ++ [rc :: payload] →
    decode p ≠ .ok .clrErr → decode p ≠ .ok .reset →
      t.status.errOpc = (s.status.errOpc || rc == 0x01#8) ∧
      t.status.errArg = (s.status.errArg || (rc == 0x02#8 || rc == 0x03#8)) ∧
      t.status.errAddr = (s.status.errAddr || rc == 0x04#8) ∧
      t.status.errSf = (s.status.errSf || rc == 0x05#8)

/-! ## Who writes what -/

/-- A register changes only by the commands the spec names as its writers: `CRCR`, `SEEN`, `RS_REC`, `CRC_OK[k]` and
`SFM_HIT`. -/
def Obligations.RegistersChangeOnlyByTheirWriters : Prop :=
  ∀ (i : Instr) (s t : State), exec i s = .next t →
    (writesCrcr i = false → t.crcr = s.crcr) ∧
    (writesSeen i = false → t.seen = s.seen) ∧
    (writesRsRec i = false → t.status.rsRec0 = s.status.rsRec0 ∧ t.status.rsRec1 = s.status.rsRec1) ∧
    (∀ k : Fin 6, writesCrcOk k i = false → t.status.crcOk[k] = s.status.crcOk[k]) ∧
    (isSet i = false → i ≠ .reset → t.status.sfmHit = s.status.sfmHit)

/-- A memory changes only by the commands the spec names as its writers, and never because a command failed. -/
def Obligations.MemoriesChangeOnlyByTheirWriters : Prop :=
  ∀ (i : Instr) (s t : State), exec i s = .next t →
    (writesMsg i = false → t.msg = s.msg) ∧ (writesSft i = false → t.sft = s.sft)

/-- The block and Reed-Solomon commands leave the header and everything beyond the frame alone; the block commands
also leave the parity region and the frame type alone. -/
def Obligations.FrameCommandsStayInTheirRegion : Prop :=
  ∀ (i : Instr) (s t : State), s.Inv → exec i s = .next t →
    (isBlock i = true ∨ i = .rsEnc ∨ i = .rsDec →
      ∀ a, a < 8 ∨ 0x140 ≤ a → Memory.read t.msg a = Memory.read s.msg a) ∧
    (isBlock i = true → ∀ a, a < 0x039 → Memory.read t.msg a = Memory.read s.msg a)

/-- No step changes the parameters of the instance. -/
def Obligations.ParametersNeverChange : Prop :=
  ∀ s t : State, step s = .next t → t.cfg = s.cfg

/-! ## The invariant -/

/-- Every step, from any state that meets the invariant (admissible parameters, both memories in canonical form
inside their sizes), ends in a state that meets it. The canonical form is the model's, log 8. -/
def Obligations.StepKeepsTheInvariant : Prop :=
  ∀ s t : State, s.Inv → step s = .next t → t.Inv

/-- The state after reset meets the invariant. Its parameters and its memory contents are the model's choice, log 4
and log 8. -/
def Obligations.ResetMeetsTheInvariant : Prop :=
  State.reset.Inv

/-! ## Packets -/

/-- Decoding the packet of a well-formed command gives the command back. -/
def Obligations.DecodeOfEncodeIsTheCommand : Prop :=
  ∀ i : Instr, i.wellFormed = true → decode (encode i) = .ok i

/-- A packet that decodes is the packet of its command, so every byte of it is used and none is free. -/
def Obligations.DecodedPacketIsTheEncoding : Prop :=
  ∀ (p : Packet) (i : Instr), decode p = .ok i → i.wellFormed = true ∧ encode i = p

/-- R65: the worked encodings, read both ways. -/
def Obligations.WorkedEncodingsDecode : Prop :=
  ∀ e ∈ ([
      ([0x10#8, 0x3B#8, 0x00#8, 0x28#8, 0x00#8], .crc16 0x003B#16 40#16),
      ([0x41#8, 0x3B#8, 0x00#8], .getU16 0x003B#16),
      ([0x51#8, 0x3B#8, 0x00#8, 0x34#8, 0x12#8, 0x00#8, 0x00#8], .setU16 0x003B#16 0x1234#32),
      ([0x55#8, 0x46#8, 0x00#8, 0xFE#8, 0xFF#8, 0xFF#8, 0xFF#8], .setS16 0x0046#16 (-2)),
      ([0x47#8, 0x3C#8, 0x40#8], .getF32 0x403C#16),
      ([0x57#8, 0x3C#8, 0x80#8, 0x00#8, 0x00#8, 0xC8#8, 0x41#8], .setF32 0x803C#16 0x41C80000#32),
      ([0x58#8, 0x3D#8, 0x00#8, 0x08#8, 0x00#8, 0x04#8, 0x00#8, 0x53#8, 0x31#8, 0x32#8, 0x33#8],
        .setStr 0x003D#16 8#16 [0x53#8, 0x31#8, 0x32#8, 0x33#8]),
      ([0x22#8, 0x00#8], .blkChkcrc 0x00#8),
      ([0x11#8, 0x09#8, 0x00#8, 0x31#8, 0x32#8, 0x33#8, 0x34#8, 0x35#8, 0x36#8, 0x37#8, 0x38#8, 0x39#8],
        .crc16I [0x31#8, 0x32#8, 0x33#8, 0x34#8, 0x35#8, 0x36#8, 0x37#8, 0x38#8, 0x39#8]),
      ([0x31#8], .rsDec)] : List (Packet × Instr)),
    decode e.1 = .ok e.2 ∧ encode e.2 = e.1

/-- The decoder names ILLEGAL_OPCODE exactly when byte 0 is none of the 36 opcodes, whatever follows it. -/
def Obligations.IllegalOpcodeExactlyOutsideTheTable : Prop :=
  ∀ (opc : Byte) (rest : Packet),
    decode (opc :: rest) = .error .illegalOpcode ↔ opc.toNat ∉ opcodes

/-- The decoder names BAD_LENGTH exactly when the packet is empty or, for the formats N, B, A, R, V, I and S, when its
length is not the one the format requires. For `BLK.BUILD` (format D, length `2 + L`) the decoder names it only for the
missing block byte: that the rest of its length is checked when it executes is the model's split of the checks
(DEDUCED, log 10). -/
def Obligations.BadLengthExactlyOffTheFormat : Prop :=
  decode [] = .error .badLength ∧
  ∀ (opc : Byte) (rest : Packet),
    (opc.toNat ∈ [0x00, 0x01, 0x02, 0x03, 0x12, 0x30, 0x31, 0x60, 0x61, 0x62] →
      (decode (opc :: rest) = .error .badLength ↔ rest.length ≠ 0)) ∧
    (opc.toNat ∈ [0x20, 0x21, 0x22, 0x24] → (decode (opc :: rest) = .error .badLength ↔ rest.length ≠ 1)) ∧
    (opc.toNat ∈ [0x40, 0x41, 0x42, 0x43, 0x44, 0x45, 0x46, 0x47] →
      (decode (opc :: rest) = .error .badLength ↔ rest.length ≠ 2)) ∧
    (opc.toNat ∈ [0x10, 0x38, 0x48] → (decode (opc :: rest) = .error .badLength ↔ rest.length ≠ 4)) ∧
    (opc.toNat ∈ [0x50, 0x51, 0x52, 0x53, 0x54, 0x55, 0x56, 0x57] →
      (decode (opc :: rest) = .error .badLength ↔ rest.length ≠ 6)) ∧
    (opc.toNat = 0x11 →
      (decode (opc :: rest) = .error .badLength ↔
        ¬ (2 ≤ rest.length ∧
            rest.length = 2 + ((rest.getD 0 0#8).toNat + 256 * (rest.getD 1 0#8).toNat)))) ∧
    (opc.toNat = 0x58 →
      (decode (opc :: rest) = .error .badLength ↔
        ¬ (6 ≤ rest.length ∧
            rest.length = 6 + ((rest.getD 4 0#8).toNat + 256 * (rest.getD 5 0#8).toNat)))) ∧
    (opc.toNat = 0x23 → (decode (opc :: rest) = .error .badLength ↔ rest.length = 0))

/-! ## CRC -/

/-- R81: the table-driven form computes the same function. `T[b]` is the register after the 8 shift steps started
from `b << 8` (R82). -/
def Obligations.CrcTableFormAgrees : Prop :=
  ∀ s : List Byte,
    crc16 s =
      s.foldl
        (fun (c : BitVec 16) (b : Byte) =>
          (c <<< 8) ^^^ crcShift8 (((c >>> 8).truncate 8 ^^^ b).zeroExtend 16 <<< 8))
        0xFFFF#16

/-- The register over a sequence followed by its CRC, high byte first, is 0 (R83 law d). -/
def Obligations.CrcResidueIsZero : Prop :=
  ∀ s : List Byte, crc16 (s ++ [byteOf (crc16 s) 1, byteOf (crc16 s) 0]) = 0x0000#16

/-- For sequences of equal length, the difference of the CRCs is the register run from 0 over the difference of the
sequences (R83 law e). -/
def Obligations.CrcIsAffineInTheData : Prop :=
  ∀ a b : List Byte, a.length = b.length →
    crc16 a ^^^ crc16 b = crcFrom 0x0000#16 (List.zipWith (· ^^^ ·) a b)

/-- Every single-bit difference changes the CRC, whatever the length (R83 law f). -/
def Obligations.CrcDetectsEverySingleBitFlip : Prop :=
  ∀ (s : List Byte) (i k : Nat), i < s.length → k < 8 →
    crc16 (s.modify i fun b => b ^^^ (0x01#8 <<< k)) ≠ crc16 s

/-- R84: `CRC16` over `len` bytes of `MSG` or `SFT`: the CRC goes to `CRCR` and into the response, nothing else
changes; an address that cannot be read is BAD_ARGUMENT, a range that does not fit is ADDRESS_RANGE. -/
def Obligations.Crc16AnswersTheCrcOfTheRange : Prop :=
  (∀ addr len : BitVec 16,
    decode [0x10#8, byteOf addr 0, byteOf addr 1, byteOf len 0, byteOf len 1] = .ok (.crc16 addr len)) ∧
  (∀ (s : State) (b : Bank) (off n : Nat), off < 1024 → n < 65536 → off + n ≤ bankSize b →
    exec (.crc16 (bankAddr b off) (BitVec.ofNat 16 n)) s =
      .next (answered { s with crcr := crc16 (span (s.bank b) off n) }
        [byteOf (crc16 (span (s.bank b) off n)) 0, byteOf (crc16 (span (s.bank b) off n)) 1])) ∧
  (∀ (s : State) (addr len : BitVec 16), badReadAddr addr →
    exec (.crc16 addr len) s = .next (failed s 0x03#8)) ∧
  ∀ (s : State) (b : Bank) (off n : Nat), off < 1024 → n < 65536 → bankSize b < off + n →
    exec (.crc16 (bankAddr b off) (BitVec.ofNat 16 n)) s = .next (failed s 0x04#8)

/-- R85: `CRC16.I`: the CRC of the bytes in the packet goes to `CRCR` and into the response, nothing else changes; a
packet whose length is not `3 + n` is BAD_LENGTH, and there is no other error. -/
def Obligations.Crc16IAnswersTheCrcOfTheData : Prop :=
  (∀ (s : State) (data : List Byte),
    exec (.crc16I data) s =
      .next (answered { s with crcr := crc16 data } [byteOf (crc16 data) 0, byteOf (crc16 data) 1])) ∧
  crc16 [] = 0xFFFF#16 ∧
  decode [0x11#8] = .error .badLength ∧ (∀ n0 : Byte, decode [0x11#8, n0] = .error .badLength) ∧
  ∀ (n0 n1 : Byte) (data : List Byte),
    decode (0x11#8 :: n0 :: n1 :: data) =
      if data.length = n0.toNat + 256 * n1.toNat then .ok (.crc16I data) else .error .badLength

/-- `RD.CRC` answers `CRCR`, low byte first, and changes nothing. -/
def Obligations.RdCrcAnswersCrcr : Prop :=
  ∀ s : State, exec .rdCrc s = .next (answered s [byteOf s.crcr 0, byteOf s.crcr 1])

/-! ## Reed-Solomon -/

/-- `RS.ENC` writes the parity of each stream's data into its half of the parity region and changes nothing else. -/
def Obligations.RsEncWritesBothParities : Prop :=
  ∀ s : State, s.Inv → ∃ t, exec .rsEnc s = .next t ∧
    t = { s with msg := t.msg, output := s.output ++ [[0x00#8]] } ∧
    ∀ a, Memory.read t.msg a =
      if s.cfg.rsParBase[0] ≤ a ∧ a < s.cfg.rsParBase[0] + 24 then
        (rsParity s.cfg (dataOf s 0)).getD (a - s.cfg.rsParBase[0]) 0#8
      else if s.cfg.rsParBase[1] ≤ a ∧ a < s.cfg.rsParBase[1] + 24 then
        (rsParity s.cfg (dataOf s 1)).getD (a - s.cfg.rsParBase[1]) 0#8
      else Memory.read s.msg a

/-- The 24 parity symbols in front of the 132 data symbols make a codeword: all syndromes are zero (R107, R108). -/
def Obligations.ParityCompletesACodeword : Prop :=
  ∀ (c : Config) (d : List Byte), c.Admissible → d.length = 132 →
    (rsParity c d).length = 24 ∧ isCodeword c (rsParity c d ++ d) = true

/-- In the field of admissible parameters every nonzero element has the inverse the model computes (R101, R103). -/
def Obligations.NonzeroElementsHaveInverses : Prop :=
  ∀ (c : Config) (a : Byte), c.Admissible → a ≠ 0x00#8 →
    gfMul c.rsPrimPoly a (gfInv c.rsPrimPoly a) = 0x01#8

/-- Two different codewords differ in at least 25 of the 156 positions (R100). -/
def Obligations.CodewordsDifferInTwentyFivePlaces : Prop :=
  ∀ (c : Config) (x y : List Byte), c.Admissible → x.length = 156 → y.length = 156 →
    isCodeword c x = true → isCodeword c y = true → x ≠ y → 25 ≤ distance x y

/-- Whatever the decoder calls corrected is a codeword that differs from the received word in at most 12 positions;
whatever it calls unrecoverable it hands back unchanged. -/
def Obligations.RsDecodeNeverOvercorrects : Prop :=
  ∀ (c : Config) (w : List Byte), w.length = 156 →
    ((rsDecode c w).1 = true →
      (rsDecode c w).2.length = 156 ∧ isCodeword c (rsDecode c w).2 = true ∧ distance w (rsDecode c w).2 ≤ 12) ∧
    ((rsDecode c w).1 = false → (rsDecode c w).2 = w)

/-- R109: bounded-distance decoding of radius 12. Either a codeword differs from the word in at most 12 positions, it
is the only one, and the decoder answers it; or there is none, and the decoder answers that, with the word itself. -/
def Obligations.RsDecodeIsBoundedDistance : Prop :=
  ∀ (c : Config) (w : List Byte), c.Admissible → w.length = 156 →
    (∃ x : List Byte, x.length = 156 ∧ isCodeword c x = true ∧ distance w x ≤ 12 ∧
      (∀ y : List Byte, y.length = 156 → isCodeword c y = true → distance w y ≤ 12 → y = x) ∧
      rsDecode c w = (true, x)) ∨
    ((∀ x : List Byte, x.length = 156 → isCodeword c x = true → 12 < distance w x) ∧ rsDecode c w = (false, w))

/-- R113: `RS.DEC` records and answers the recoverability of each stream, writes the corrected data of a recoverable
stream, its corrected parity too if the parameter says so, leaves an unrecoverable stream exactly as it was, and
changes nothing else. -/
def Obligations.RsDecCorrectsEachStream : Prop :=
  decode [0x31#8] = .ok .rsDec ∧
  ∀ s : State, s.Inv → ∃ t, exec .rsDec s = .next t ∧
    t = { s with
          msg := t.msg
          status := { s.status with
            rsRec0 := (rsDecode s.cfg (codewordOf s 0)).1
            rsRec1 := (rsDecode s.cfg (codewordOf s 1)).1 }
          output := s.output ++
            [[0x00#8,
              match (rsDecode s.cfg (codewordOf s 0)).1, (rsDecode s.cfg (codewordOf s 1)).1 with
              | true, true => 0x07#8
              | true, false => 0x01#8
              | false, true => 0x02#8
              | false, false => 0x00#8]] } ∧
    (∀ (k : Fin 2) (i : Nat), i < 132 →
      Memory.read t.msg (56 + k + 2 * i) =
        if (rsDecode s.cfg (codewordOf s k)).1 then (rsDecode s.cfg (codewordOf s k)).2.getD (24 + i) 0#8
        else Memory.read s.msg (56 + k + 2 * i)) ∧
    (∀ (k : Fin 2) (j : Nat), j < 24 →
      Memory.read t.msg (s.cfg.rsParBase[k] + j) =
        if (rsDecode s.cfg (codewordOf s k)).1 && s.cfg.rsDecWritesParity then
          (rsDecode s.cfg (codewordOf s k)).2.getD j 0#8
        else Memory.read s.msg (s.cfg.rsParBase[k] + j)) ∧
    ∀ a, a < 8 ∨ 320 ≤ a → Memory.read t.msg a = Memory.read s.msg a

/-- After `RS.ENC`, `RS.DEC` answers 07 and changes no byte of `MSG` (R114 law a). -/
def Obligations.RsDecAfterRsEncChangesNothing : Prop :=
  ∀ s t u : State, s.Inv → exec .rsEnc s = .next t → exec .rsDec t = .next u →
    u.output = t.output ++ [[0x00#8, 0x07#8]] ∧ ∀ a, Memory.read u.msg a = Memory.read t.msg a

/-- After `RS.ENC`, if at most 12 of the 156 bytes of each stream are then changed, `RS.DEC` answers 07 and restores
all 264 payload bytes, and the 48 parity bytes too when the parameter says so (R114 law c). -/
def Obligations.RsDecRestoresTwelveErrorsPerStream : Prop :=
  ∀ s t u v : State, s.Inv → exec .rsEnc s = .next t → u.Inv → u.cfg = s.cfg →
    (∀ k : Fin 2, distance (codewordOf u k) (codewordOf t k) ≤ 12) → exec .rsDec u = .next v →
      v.output = u.output ++ [[0x00#8, 0x07#8]] ∧
      (∀ a, 56 ≤ a → a < 320 → Memory.read v.msg a = Memory.read t.msg a) ∧
      (s.cfg.rsDecWritesParity = true → ∀ a, 8 ≤ a → a < 56 → Memory.read v.msg a = Memory.read t.msg a)

/-! ## Whitening -/

/-- R133: `WHITEN` replaces each byte of the range by the bit reversal of its XOR with the mask, the mask starting at
the first byte of the range, and changes nothing else; the two errors of an address. -/
def Obligations.WhitenTransformsTheRangeInPlace : Prop :=
  (∀ addr len : BitVec 16,
    decode [0x38#8, byteOf addr 0, byteOf addr 1, byteOf len 0, byteOf len 1] = .ok (.whiten addr len)) ∧
  (∀ (s : State) (b : Bank) (off n : Nat), off < 1024 → n < 65536 → off + n ≤ bankSize b →
    Memory.wf (bankSize b) (s.bank b) = true →
    ∃ t, exec (.whiten (bankAddr b off) (BitVec.ofNat 16 n)) s = .next t ∧
      t = answered (withBank s b (t.bank b)) [] ∧
      Stores (s.bank b) (t.bank b) off
        ((List.range n).map fun i =>
          rev8 (Memory.read (s.bank b) (off + i) ^^^ s.cfg.whitenMask.toList.getD (i % 64) 0#8))) ∧
  (∀ (s : State) (addr len : BitVec 16), badReadAddr addr →
    exec (.whiten addr len) s = .next (failed s 0x03#8)) ∧
  ∀ (s : State) (b : Bank) (off n : Nat), off < 1024 → n < 65536 → bankSize b < off + n →
    exec (.whiten (bankAddr b off) (BitVec.ofNat 16 n)) s = .next (failed s 0x04#8)

/-- For every mask `unwhiten` is the inverse of `whiten`, and the two are the same function exactly when every
mask byte is its own bit reversal. -/
def Obligations.UnwhitenInvertsWhiten : Prop :=
  ∀ mask : Vector Byte 64,
    (∀ x : List Byte, unwhiten mask (whiten mask x) = x) ∧
    (∀ y : List Byte, whiten mask (unwhiten mask y) = y) ∧
    ((∀ y : List Byte, unwhiten mask y = whiten mask y) ↔ ∀ j, j < 64 → rev8 (maskByte mask j) = maskByte mask j)

/-- R134: whitening twice adds the mask and its bit reversal, a palindromic pattern, and gives the sequence back for every sequence exactly
when every mask byte is its own bit reversal. -/
def Obligations.WhitenTwiceAddsTheMaskPattern : Prop :=
  ∀ mask : Vector Byte 64,
    (∀ x : List Byte, (whiten mask (whiten mask x)).length = x.length ∧
      ∀ i, i < x.length →
        (whiten mask (whiten mask x)).getD i 0#8 =
          x.getD i 0#8 ^^^ maskByte mask i ^^^ rev8 (maskByte mask i)) ∧
    (∀ j, rev8 (maskByte mask j ^^^ rev8 (maskByte mask j)) = maskByte mask j ^^^ rev8 (maskByte mask j)) ∧
    ((∀ x : List Byte, whiten mask (whiten mask x) = x) ↔ ∀ j, j < 64 → rev8 (maskByte mask j) = maskByte mask j)

/-! ## Accessors -/

/-- R153 to R161: each scalar getter answers the field's bytes, zero- or sign-extended to four, and changes nothing;
an address it cannot read is BAD_ARGUMENT, a field that does not fit the space is ADDRESS_RANGE. -/
def Obligations.GettersAnswerTheExtendedField : Prop :=
  (∀ (s : State) (b : Bank) (off : Nat),
    (off + 1 ≤ bankSize b →
      exec (.getU8 (bankAddr b off)) s =
        .next (answered s [Memory.read (s.bank b) off, 0x00#8, 0x00#8, 0x00#8]) ∧
      exec (.getS8 (bankAddr b off)) s =
        .next (answered s (Memory.read (s.bank b) off ::
          List.replicate 3 (if (Memory.read (s.bank b) off).getLsbD 7 then 0xFF#8 else 0x00#8)))) ∧
    (off + 2 ≤ bankSize b →
      exec (.getU16 (bankAddr b off)) s = .next (answered s (span (s.bank b) off 2 ++ [0x00#8, 0x00#8])) ∧
      exec (.getS16 (bankAddr b off)) s =
        .next (answered s (span (s.bank b) off 2 ++
          List.replicate 2 (if (Memory.read (s.bank b) (off + 1)).getLsbD 7 then 0xFF#8 else 0x00#8)))) ∧
    (off + 3 ≤ bankSize b →
      exec (.getU24 (bankAddr b off)) s = .next (answered s (span (s.bank b) off 3 ++ [0x00#8]))) ∧
    (off + 4 ≤ bankSize b →
      exec (.getU32 (bankAddr b off)) s = .next (answered s (span (s.bank b) off 4)) ∧
      exec (.getS32 (bankAddr b off)) s = .next (answered s (span (s.bank b) off 4)) ∧
      exec (.getF32 (bankAddr b off)) s = .next (answered s (span (s.bank b) off 4)))) ∧
  ∀ g ∈ getters,
    (∀ addr : BitVec 16, decode [g.opcode, byteOf addr 0, byteOf addr 1] = .ok (g.instr addr)) ∧
    ∀ s : State,
      (∀ addr : BitVec 16, badReadAddr addr → exec (g.instr addr) s = .next (failed s 0x03#8)) ∧
      ∀ (b : Bank) (off : Nat), off < 1024 → bankSize b < off + g.width →
        exec (g.instr (bankAddr b off)) s = .next (failed s 0x04#8)

/-- R171: `GET.STR` answers the raw bytes and changes nothing; the two errors of an address. -/
def Obligations.GetStrAnswersTheRawBytes : Prop :=
  (∀ addr len : BitVec 16,
    decode [0x48#8, byteOf addr 0, byteOf addr 1, byteOf len 0, byteOf len 1] = .ok (.getStr addr len)) ∧
  (∀ (s : State) (b : Bank) (off n : Nat), off < 1024 → n < 65536 → off + n ≤ bankSize b →
    exec (.getStr (bankAddr b off) (BitVec.ofNat 16 n)) s = .next (answered s (span (s.bank b) off n))) ∧
  (∀ (s : State) (addr len : BitVec 16), badReadAddr addr →
    exec (.getStr addr len) s = .next (failed s 0x03#8)) ∧
  ∀ (s : State) (b : Bank) (off n : Nat), off < 1024 → n < 65536 → bankSize b < off + n →
    exec (.getStr (bankAddr b off) (BitVec.ofNat 16 n)) s = .next (failed s 0x04#8)

/-- A scalar setter with a value that fits stores the low bytes of the value in `MSG` or `SFT`, lowest
first, and changes nothing else. -/
def Obligations.SettersStoreTheField : Prop :=
  ∀ g ∈ setters, ∀ (s : State) (b : Bank) (off : Nat) (val : BitVec 32),
    Memory.wf (bankSize b) (s.bank b) = true → off + g.width ≤ bankSize b → g.fits val = true →
    ∃ t, exec (g.instr (bankAddr b off) val) s = .next t ∧
      t = answered (withBank s b (t.bank b)) [] ∧
      Stores (s.bank b) (t.bank b) off (fieldBytes g val)

/-- Where a scalar setter fails: a refused address, or a value that does not fit even where the range does not
either, is BAD_ARGUMENT; a field that does not fit the space is ADDRESS_RANGE. -/
def Obligations.SettersFailInTheStatedOrder : Prop :=
  ∀ g ∈ setters, ∀ (s : State) (val : BitVec 32),
    (∀ addr : BitVec 16, badAddr addr → exec (g.instr addr val) s = .next (failed s 0x03#8)) ∧
    (∀ off : Nat, off < 1024 → g.fits val = false →
      (∀ b : Bank, exec (g.instr (bankAddr b off) val) s = .next (failed s 0x03#8)) ∧
      exec (g.instr (windowAddr off) val) s = .next (failed s 0x03#8)) ∧
    (∀ off : Nat, off < 1024 → g.fits val = true →
      (∀ b : Bank, bankSize b < off + g.width →
        exec (g.instr (bankAddr b off) val) s = .next (failed s 0x04#8)) ∧
      (816 < off + g.width → exec (g.instr (windowAddr off) val) s = .next (failed s 0x04#8)))

/-- R180: a `SET` to `SFM` writes into the frame exactly the bytes whose table address lies in the slice the frame
carries, records whether it wrote any, and changes nothing else. -/
def Obligations.WindowWritesOnlyTheCarriedSlice : Prop :=
  (∀ g ∈ setters, ∀ (s : State) (a : Nat) (val : BitVec 32),
    s.Inv → a + g.width ≤ 816 → g.fits val = true →
    ∃ t, exec (g.instr (windowAddr a) val) s = .next t ∧ WindowStores s t a (fieldBytes g val)) ∧
  ∀ (s : State) (a width : Nat) (data : List Byte), s.Inv → a + width ≤ 816 → data.length ≤ width →
    ∃ t, exec (.setStr (windowAddr a) (BitVec.ofNat 16 width) data) s = .next t ∧
      WindowStores s t a (data ++ List.replicate (width - data.length) 0x00#8)

/-- `SET.STR` writes the data and then zeros up to the field's width, and nothing else; data longer than the width is
BAD_ARGUMENT, as is a refused address; the width, not the data, is range-checked. -/
def Obligations.SetStrStoresThePaddedField : Prop :=
  (∀ (s : State) (b : Bank) (off width : Nat) (data : List Byte),
    Memory.wf (bankSize b) (s.bank b) = true → off < 1024 → off + width ≤ bankSize b → data.length ≤ width →
    ∃ t, exec (.setStr (bankAddr b off) (BitVec.ofNat 16 width) data) s = .next t ∧
      t = answered (withBank s b (t.bank b)) [] ∧
      Stores (s.bank b) (t.bank b) off (data ++ List.replicate (width - data.length) 0x00#8)) ∧
  (∀ (s : State) (addr width : BitVec 16) (data : List Byte), badAddr addr ∨ width.toNat < data.length →
    exec (.setStr addr width data) s = .next (failed s 0x03#8)) ∧
  ∀ (s : State) (off width : Nat) (data : List Byte), off < 1024 → width < 65536 → data.length ≤ width →
    (∀ b : Bank, bankSize b < off + width →
      exec (.setStr (bankAddr b off) (BitVec.ofNat 16 width) data) s = .next (failed s 0x04#8)) ∧
    (816 < off + width →
      exec (.setStr (windowAddr off) (BitVec.ofNat 16 width) data) s = .next (failed s 0x04#8))

/-- Set then get gives the value, and setting what get answers changes no byte, for each of the eight types
(R176). -/
def Obligations.GetAfterSetGivesTheValue : Prop :=
  ∀ r ∈ List.zip setters getters, ∀ (s t : State) (b : Bank) (off : Nat) (val : BitVec 32),
    Memory.wf (bankSize b) (s.bank b) = true → off + r.2.width ≤ bankSize b → r.1.fits val = true →
    exec (r.1.instr (bankAddr b off) val) s = .next t →
      exec (r.2.instr (bankAddr b off)) t = .next (answered t (valueBytes val)) ∧
      (exec (r.2.instr (bankAddr b off)) s = .next (answered s (valueBytes val)) →
        ∀ x, Memory.read t.msg x = Memory.read s.msg x ∧ Memory.read t.sft x = Memory.read s.sft x)

/-- A whole field written through `SFM` while its slice is carried, then captured, is the field `GET` answers from
`SFT` (R181 law b). -/
def Obligations.CapturedWindowFieldIsRead : Prop :=
  ∀ r ∈ List.zip setters getters, ∀ (s t u : State) (a : Nat) (val : BitVec 32),
    s.Inv → r.1.fits val = true → a + r.2.width ≤ 816 →
    a / 16 = (Memory.read s.msg 0x052).toNat → (a + r.2.width - 1) / 16 = (Memory.read s.msg 0x052).toNat →
    exec (r.1.instr (windowAddr a) val) s = .next t → exec .sfCapture t = .next u →
      t.status.sfmHit = true ∧ exec (r.2.instr (bankAddr .sft a)) u = .next (answered u (valueBytes val))

/-! ## Blocks -/

/-- R192: `BLK.HDR` writes the ID byte and the length byte of the block and changes nothing else. -/
def Obligations.BlkHdrWritesTheHeader : Prop :=
  (∀ blk : Byte, decode [0x20#8, blk] = .ok (.blkHdr blk)) ∧
  ∀ (s : State) (k : Fin 6), s.Inv → ∃ t, exec (.blkHdr (blkByte k)) s = .next t ∧
    t = { s with msg := t.msg, output := s.output ++ [[0x00#8]] } ∧
    Stores s.msg t.msg s.cfg.blockOff[k] [idByte k, BitVec.ofNat 8 s.cfg.blockLen[k]]

/-- R193: `BLK.SETCRC` stores the CRC of the data span low byte first, puts it in `CRCR`, sets `CRC_OK` of the block
and changes nothing else; `BLK.CHKCRC` then answers 01 as long as the data span and the CRC field stay as they are. -/
def Obligations.BlkSetcrcStoresTheCrc : Prop :=
  (∀ blk : Byte, decode [0x21#8, blk] = .ok (.blkSetcrc blk)) ∧
  ∀ (s : State) (k : Fin 6), s.Inv → ∃ t, exec (.blkSetcrc (blkByte k)) s = .next t ∧
    t = { s with
          msg := t.msg
          crcr := blockCrc s k
          status := { s.status with crcOk := s.status.crcOk.set k true }
          output := s.output ++ [[0x00#8]] } ∧
    Stores s.msg t.msg (s.cfg.blockOff[k] + 2 + s.cfg.blockLen[k])
      [byteOf (blockCrc s k) 0, byteOf (blockCrc s k) 1] ∧
    ∀ u : State, u.cfg = s.cfg →
      (∀ a, s.cfg.blockOff[k] + 2 ≤ a → a < s.cfg.blockOff[k] + s.cfg.blockLen[k] + 4 →
        Memory.read u.msg a = Memory.read t.msg a) →
      ∃ v, exec (.blkChkcrc (blkByte k)) u = .next v ∧ v.output = u.output ++ [[0x00#8, 0x01#8]]

/-- After `BLK.SETCRC`, flipping one bit of the data span or of the CRC field makes `BLK.CHKCRC` answer 00 and record
it (R197 law c). -/
def Obligations.BlockCheckDetectsEverySingleBitFlip : Prop :=
  ∀ (s t u : State) (k : Fin 6) (a j : Nat), s.Inv → exec (.blkSetcrc (blkByte k)) s = .next t → u.cfg = s.cfg →
    s.cfg.blockOff[k] + 2 ≤ a → a < s.cfg.blockOff[k] + s.cfg.blockLen[k] + 4 → j < 8 →
    Memory.read u.msg a = Memory.read t.msg a ^^^ (0x01#8 <<< j) →
    (∀ x, x ≠ a → Memory.read u.msg x = Memory.read t.msg x) →
      ∃ v, exec (.blkChkcrc (blkByte k)) u = .next v ∧
        v.output = u.output ++ [[0x00#8, 0x00#8]] ∧ v.status.crcOk[k] = false

/-- R194: `BLK.CHKCRC` compares the stored CRC with the computed one, puts the computed one in `CRCR`, records and
answers the result, and changes nothing else. -/
def Obligations.BlkChkcrcAnswersTheComparison : Prop :=
  (∀ blk : Byte, decode [0x22#8, blk] = .ok (.blkChkcrc blk)) ∧
  ∀ (s : State) (k : Fin 6),
    exec (.blkChkcrc (blkByte k)) s =
      .next (answered
        { s with crcr := blockCrc s k, status := { s.status with crcOk := s.status.crcOk.set k (crcMatch s k) } }
        [if crcMatch s k then 0x01#8 else 0x00#8])

/-- R196: `BLK.READ` answers the validity byte and the data span, whatever the validity byte says; it records the CRC
result as `BLK.CHKCRC` does, and changes nothing else. -/
def Obligations.BlkReadAnswersValidityAndData : Prop :=
  (∀ blk : Byte, decode [0x24#8, blk] = .ok (.blkRead blk)) ∧
  ∀ (s : State) (k : Fin 6),
    exec (.blkRead (blkByte k)) s =
      .next (answered
        { s with crcr := blockCrc s k, status := { s.status with crcOk := s.status.crcOk.set k (crcMatch s k) } }
        (BitVec.ofNat 8
            ((if crcMatch s k then 1 else 0) +
              (if Memory.read s.msg s.cfg.blockOff[k] = idByte k then 2 else 0) +
              (if (Memory.read s.msg (s.cfg.blockOff[k] + 1)).toNat = s.cfg.blockLen[k] then 4 else 0)) ::
          span s.msg (s.cfg.blockOff[k] + 2) s.cfg.blockLen[k]))

/-- `BLK.BUILD` with data of the block's length writes header, data and CRC, puts the CRC in `CRCR`, sets `CRC_OK` of
the block and changes nothing else; with data of another length it is BAD_LENGTH. -/
def Obligations.BlkBuildWritesTheWholeBlock : Prop :=
  (∀ (s : State) (k : Fin 6) (data : List Byte), s.Inv → data.length = s.cfg.blockLen[k] →
    ∃ t, exec (.blkBuild (blkByte k) data) s = .next t ∧
      t = { s with
            msg := t.msg
            crcr := crc16 data
            status := { s.status with crcOk := s.status.crcOk.set k true }
            output := s.output ++ [[0x00#8]] } ∧
      Stores s.msg t.msg s.cfg.blockOff[k]
        (idByte k :: BitVec.ofNat 8 s.cfg.blockLen[k] :: data ++ [byteOf (crc16 data) 0, byteOf (crc16 data) 1])) ∧
  ∀ (s : State) (k : Fin 6) (data : List Byte), data.length ≠ s.cfg.blockLen[k] →
    exec (.blkBuild (blkByte k) data) s = .next (failed s 0x02#8)

/-- `BLK.BUILD` has the effect of `BLK.HDR`, `SET.STR` of the data span and `BLK.SETCRC` on `MSG`, `CRCR` and `STATUS`
(the last sentence of R195). -/
def Obligations.BuildEqualsHeaderDataAndCrc : Prop :=
  ∀ (s t u v w : State) (k : Fin 6) (data : List Byte), s.Inv → data.length = s.cfg.blockLen[k] →
    exec (.blkBuild (blkByte k) data) s = .next t →
    exec (.blkHdr (blkByte k)) s = .next u →
    exec (.setStr (bankAddr .msg (s.cfg.blockOff[k] + 2)) (BitVec.ofNat 16 s.cfg.blockLen[k]) data) u = .next v →
    exec (.blkSetcrc (blkByte k)) v = .next w →
      w.msg = t.msg ∧ w.crcr = t.crcr ∧ w.status = t.status

/-- A block operand of 6 or more is BAD_ARGUMENT for each of the five block commands, for `BLK.BUILD` whatever its
length (R58, R191, R195). -/
def Obligations.BlockOperandAboveFiveIsRefused : Prop :=
  ∀ (s : State) (blk : Byte) (data : List Byte), 6 ≤ blk.toNat →
    exec (.blkHdr blk) s = .next (failed s 0x03#8) ∧
    exec (.blkSetcrc blk) s = .next (failed s 0x03#8) ∧
    exec (.blkChkcrc blk) s = .next (failed s 0x03#8) ∧
    exec (.blkBuild blk data) s = .next (failed s 0x03#8) ∧
    exec (.blkRead blk) s = .next (failed s 0x03#8)

/-! ## Subframe table -/

/-- R200: `SF.CAPTURE` with a subframe number up to 50 copies the carried slice into the table, marks it seen and
changes nothing else; with a higher number it is SUBFRAME_RANGE. -/
def Obligations.SfCaptureCopiesTheSlice : Prop :=
  decode [0x60#8] = .ok .sfCapture ∧
  ∀ s : State,
    ((Memory.read s.msg 0x052).toNat ≤ 50 → Memory.wf 816 s.sft = true →
      ∃ t, exec .sfCapture s = .next t ∧
        t = { s with sft := t.sft, seen := t.seen, output := s.output ++ [[0x00#8]] } ∧
        Stores s.sft t.sft (16 * (Memory.read s.msg 0x052).toNat) (span s.msg s.cfg.sliceOff 16) ∧
        ∀ k, k < 51 → t.seen.getLsbD k = (s.seen.getLsbD k || k == (Memory.read s.msg 0x052).toNat)) ∧
    (50 < (Memory.read s.msg 0x052).toNat → exec .sfCapture s = .next (failed s 0x05#8))

/-- R201: `SF.RD.SEEN` answers 7 bytes, `SEEN[k]` in bit `k mod 8` of byte `k div 8`, the last five bits zero, and
changes nothing. -/
def Obligations.SfRdSeenAnswersTheBitmap : Prop :=
  decode [0x61#8] = .ok .sfRdSeen ∧
  ∀ s : State, ∃ payload : Packet,
    exec .sfRdSeen s = .next (answered s payload) ∧ payload.length = 7 ∧
    (∀ k, k < 51 → (payload.getD (k / 8) 0#8).getLsbD (k % 8) = s.seen.getLsbD k) ∧
    ∀ k, 51 ≤ k → k < 56 → (payload.getD (k / 8) 0#8).getLsbD (k % 8) = false

/-- R202: `SF.CLEAR` sets `SEEN` to 0, so that `SF_COMPLETE` reads 0, and changes nothing else. -/
def Obligations.SfClearForgetsOnlySeen : Prop :=
  decode [0x62#8] = .ok .sfClear ∧
  ∀ s : State, exec .sfClear s = .next (answered { s with seen := 0#51 } []) ∧
    (answered { s with seen := 0#51 } []).statusWord.getLsbD 9 = false

/-- The completeness law (R203), for sequences without `SF.CLEAR` and `RESET`, the two commands that forget: from
`SEEN = 0`, `SF_COMPLETE` is 1 exactly when for every `k` in 0..50 the sequence holds an `SF.CAPTURE` executed while
`MSG[0x052] = k`. -/
def Obligations.CompleteExactlyWhenEverySliceWasCaptured : Prop :=
  ∀ (s t : State) (is : List Instr), s.seen = 0#51 → (∀ i ∈ is, i ≠ .sfClear ∧ i ≠ .reset) → Runs s is t →
    (t.statusWord.getLsbD 9 = true ↔
      ∀ k, k < 51 → ∃ (before after : List Instr) (u : State),
        is = before ++ .sfCapture :: after ∧ Runs s before u ∧ (Memory.read u.msg 0x052).toNat = k)
end

