-- ==== Sys2Proof/Laws/Bytes.lean ====
section
/-! SUPPORT. Little-endian byte sequences (spec/00_scope.md R6): lengths, bounds, and the two round trips. -/

namespace Sys2Proof

@[simp] theorem length_leBytes (n v : Nat) : (leBytes n v).length = n := by
  induction n generalizing v with
  | zero => rfl
  | succ n ih => simp [leBytes, ih]

/-- Byte `i` of `le(n, v)` is bits `8i+7 .. 8i` of `v` (R6). -/
theorem getElem_leBytes (n v i : Nat) (h : i < (leBytes n v).length) :
    (leBytes n v)[i] = BitVec.ofNat 8 (v / 256 ^ i) := by
  induction n generalizing v i with
  | zero => simp [leBytes] at h
  | succ n ih =>
    cases i with
    | zero => simp [leBytes]
    | succ i =>
      simp only [leBytes, List.getElem_cons_succ]
      rw [ih, Nat.div_div_eq_div_mul, Nat.pow_succ, Nat.mul_comm]

theorem unle_lt (s : List Byte) : unle s < 256 ^ s.length := by
  induction s with
  | nil => simp [unle]
  | cons b s ih =>
    have hb := b.isLt
    simp only [unle, List.length_cons, Nat.pow_succ]
    omega

/-- Writing a number in bytes and reading it back drops what does not fit. -/
theorem unle_leBytes (n v : Nat) : unle (leBytes n v) = v % 256 ^ n := by
  induction n generalizing v with
  | zero => simp [leBytes, unle, Nat.mod_one]
  | succ n ih =>
    simp only [leBytes, unle, ih, BitVec.toNat_ofNat]
    rw [show 256 ^ (n + 1) = 256 * 256 ^ n by rw [Nat.pow_succ, Nat.mul_comm], Nat.mod_mul]

/-- Reading bytes as a number and writing them back. -/
theorem leBytes_unle (s : List Byte) : leBytes s.length (unle s) = s := by
  induction s with
  | nil => rfl
  | cons b s ih =>
    have hb := b.isLt
    have h1 : BitVec.ofNat 8 (b.toNat + 256 * unle s) = b := by
      apply BitVec.eq_of_toNat_eq
      rw [BitVec.toNat_ofNat]
      omega
    have h2 : (b.toNat + 256 * unle s) / 256 = unle s := by omega
    simp only [List.length_cons, leBytes, unle, h1, h2, ih]

/-- A `u16` operand is the number of its two bytes (R55). -/
theorem toNat_u16 (b0 b1 : Byte) : (u16 b0 b1).toNat = b0.toNat + 256 * b1.toNat := by
  have h0 := b0.isLt
  have h1 := b1.isLt
  simp only [u16, unle, BitVec.toNat_ofNat]
  omega

/-- A `u32` operand is the number of its four bytes (R55). -/
theorem toNat_u32 (b0 b1 b2 b3 : Byte) :
    (u32 b0 b1 b2 b3).toNat =
      b0.toNat + 2 ^ 8 * b1.toNat + 2 ^ 16 * b2.toNat + 2 ^ 24 * b3.toNat := by
  have h0 := b0.isLt
  have h1 := b1.isLt
  have h2 := b2.isLt
  have h3 := b3.isLt
  simp only [u32, unle, BitVec.toNat_ofNat]
  omega

end Sys2Proof
end

