-- ==== Sys2Proof/Laws/Memory.lean ====
section
/-! SUPPORT. A memory in canonical form: reads after writes, the form kept by every operation, and equality of memories
that read alike. -/

namespace Sys2Proof.Machine

/-- The parts of the canonical form of a memory with a first cell. -/
theorem Memory.wfFrom_cons {size lo : Nat} {c : Host.Cell} {m : Memory} :
    Memory.wfFrom size lo (c :: m) = true ↔
      lo ≤ c.1 ∧ c.1 < size ∧ c.2 ≠ Memory.unlisted ∧ Memory.wfFrom size (c.1 + 1) m = true := by
  simp only [Memory.wfFrom, Bool.and_eq_true, decide_eq_true_eq, and_assoc]

theorem Memory.wfFrom_mono {size lo lo' : Nat} {m : Memory} (h : Memory.wfFrom size lo m = true)
    (hl : lo' ≤ lo) : Memory.wfFrom size lo' m = true := by
  cases m with
  | nil => rfl
  | cons c m =>
    rw [Memory.wfFrom_cons] at h ⊢
    exact ⟨hl.trans h.1, h.2⟩

/-- Below the first address a memory reads as unlisted. -/
theorem Memory.read_below {size lo a : Nat} {m : Memory} (h : Memory.wfFrom size lo m = true) (ha : a < lo) :
    m.read a = Memory.unlisted := by
  induction m generalizing lo with
  | nil => rfl
  | cons c m ih =>
    rw [Memory.wfFrom_cons] at h
    have hne : ¬ c.1 = a := by omega
    simp only [Memory.read, hne, if_false]
    exact ih h.2.2.2 (by omega)

/-- At and above the size a memory reads as unlisted. -/
theorem Memory.read_above {size lo a : Nat} {m : Memory} (h : Memory.wfFrom size lo m = true) (ha : size ≤ a) :
    m.read a = Memory.unlisted := by
  induction m generalizing lo with
  | nil => rfl
  | cons c m ih =>
    rw [Memory.wfFrom_cons] at h
    have hne : ¬ c.1 = a := by omega
    simp only [Memory.read, hne, if_false]
    exact ih h.2.2.2

theorem Memory.read_write_from {size lo : Nat} {m : Memory} (h : Memory.wfFrom size lo m = true)
    (a : Nat) (b : Byte) (x : Nat) : (m.write a b).read x = if x = a then b else m.read x := by
  induction m generalizing lo with
  | nil =>
    by_cases hb : b = Memory.unlisted <;> by_cases hx : x = a <;>
      simp [Memory.write, Memory.read, hb, hx, show a = x ↔ x = a from eq_comm]
  | cons c m ih =>
    have hc := Memory.wfFrom_cons.mp h
    have below : ∀ y, y ≤ c.1 → Memory.read m y = Memory.unlisted :=
      fun y hy => Memory.read_below hc.2.2.2 (by omega)
    rcases Nat.lt_trichotomy a c.1 with hlt | heq | hgt
    · by_cases hb : b = Memory.unlisted
      · by_cases hx : x = a
        · have hne : ¬ c.1 = a := by omega
          simp [Memory.write, hlt, hb, hx, Memory.read, below a (by omega), hne]
        · simp [Memory.write, hlt, hb, hx]
      · by_cases hx : x = a
        · simp [Memory.write, hlt, hb, hx, Memory.read]
        · simp [Memory.write, hlt, hb, hx, Memory.read, show ¬ a = x from fun e => hx e.symm]
    · subst heq
      by_cases hb : b = Memory.unlisted
      · by_cases hx : x = c.1
        · simp [Memory.write, hb, hx, below c.1 le_rfl]
        · simp [Memory.write, hb, hx, Memory.read, show ¬ c.1 = x from fun e => hx e.symm]
      · by_cases hx : x = c.1
        · simp [Memory.write, hb, hx, Memory.read]
        · simp [Memory.write, hb, hx, Memory.read, show ¬ c.1 = x from fun e => hx e.symm]
    · have h1 : ¬ a < c.1 := by omega
      have h2 : ¬ a = c.1 := by omega
      by_cases hcx : c.1 = x
      · have hx : ¬ x = a := by omega
        simp only [Memory.write, h1, h2, if_false]
        simp only [Memory.read, hcx, hx, if_true, if_false]
      · simp [Memory.write, h1, h2, Memory.read, hcx, ih hc.2.2.2]

/-- Reading after storing one byte (R32). -/
theorem Memory.read_write {size : Nat} {m : Memory} (h : Memory.wf size m = true) (a : Nat) (b : Byte) (x : Nat) :
    (m.write a b).read x = if x = a then b else m.read x :=
  Memory.read_write_from h a b x

theorem Memory.wfFrom_write {size lo : Nat} {m : Memory} (h : Memory.wfFrom size lo m = true) {a : Nat}
    (hlo : lo ≤ a) (ha : a < size) (b : Byte) : Memory.wfFrom size lo (m.write a b) = true := by
  induction m generalizing lo with
  | nil =>
    by_cases hb : b = Memory.unlisted
    · simp [Memory.write, hb, Memory.wfFrom]
    · simp [Memory.write, hb, Memory.wfFrom, hlo, ha]
  | cons c m ih =>
    have hc := Memory.wfFrom_cons.mp h
    rcases Nat.lt_trichotomy a c.1 with hlt | heq | hgt
    · by_cases hb : b = Memory.unlisted
      · simpa [Memory.write, hlt, hb] using h
      · simp only [Memory.write, hlt, hb, if_true, if_false]
        exact Memory.wfFrom_cons.mpr ⟨hlo, ha, hb, Memory.wfFrom_cons.mpr ⟨by simp; omega, hc.2⟩⟩
    · by_cases hb : b = Memory.unlisted
      · simp only [Memory.write, heq, lt_irrefl, hb, if_true, if_false]
        exact Memory.wfFrom_mono hc.2.2.2 (by omega)
      · simp only [Memory.write, heq, lt_irrefl, hb, if_true, if_false]
        exact Memory.wfFrom_cons.mpr ⟨hc.1, hc.2.1, hb, hc.2.2.2⟩
    · have h1 : ¬ a < c.1 := by omega
      have h2 : ¬ a = c.1 := by omega
      simp only [Memory.write, h1, h2, if_false]
      exact Memory.wfFrom_cons.mpr ⟨hc.1, hc.2.1, hc.2.2.1, ih hc.2.2.2 (by omega)⟩

/-- Storing one byte inside the memory keeps the canonical form. -/
theorem Memory.wf_write {size : Nat} {m : Memory} (h : Memory.wf size m = true) {a : Nat} (ha : a < size)
    (b : Byte) : Memory.wf size (m.write a b) = true :=
  Memory.wfFrom_write h (Nat.zero_le a) ha b

/-- `MemWrite` inside the memory keeps the canonical form. -/
theorem Memory.wf_writeBytes {size : Nat} {m : Memory} (h : Memory.wf size m = true) {a : Nat} {bs : List Byte}
    (ha : a + bs.length ≤ size) : Memory.wf size (m.writeBytes a bs) = true := by
  induction bs generalizing m a with
  | nil => exact h
  | cons b bs ih =>
    simp only [List.length_cons] at ha
    exact ih (Memory.wf_write h (by omega) b) (by omega)

/-- Storing cells inside the memory keeps the canonical form. -/
theorem Memory.wf_writeCells {size : Nat} {m : Memory} (h : Memory.wf size m = true) {cs : List Host.Cell}
    (hc : ∀ c ∈ cs, c.1 < size) : Memory.wf size (m.writeCells cs) = true := by
  induction cs generalizing m with
  | nil => exact h
  | cons c cs ih =>
    exact ih (Memory.wf_write h (hc c (by simp)) c.2) fun d hd => hc d (by simp [hd])

/-- Reading after `MemWrite` (R32): the stored bytes inside the range, everything else as before. -/
theorem Memory.read_writeBytes {size : Nat} {m : Memory} (h : Memory.wf size m = true) {a : Nat} {bs : List Byte}
    (ha : a + bs.length ≤ size) (x : Nat) :
    (m.writeBytes a bs).read x = if a ≤ x ∧ x < a + bs.length then bs.getD (x - a) 0#8 else m.read x := by
  induction bs generalizing m a with
  | nil =>
    simp [Memory.writeBytes, show ¬ (a ≤ x ∧ x < a) by omega]
  | cons b bs ih =>
    simp only [List.length_cons] at ha
    simp only [Memory.writeBytes, List.length_cons]
    rw [ih (Memory.wf_write h (by omega) b) (by omega), Memory.read_write h]
    by_cases hx : x = a
    · subst hx
      simp
    · by_cases hin : a + 1 ≤ x ∧ x < a + 1 + bs.length
      · have h' : a ≤ x ∧ x < a + (bs.length + 1) := by omega
        obtain ⟨d, rfl⟩ : ∃ d, x = a + 1 + d := ⟨x - (a + 1), by omega⟩
        have e1 : a + 1 + d - (a + 1) = d := by omega
        have e2 : a + 1 + d - a = d + 1 := by omega
        simp only [hin, h', and_self, if_true, e1, e2, List.getD_cons_succ]
      · have h' : ¬ (a ≤ x ∧ x < a + (bs.length + 1)) := by omega
        simp only [hin, h', hx, if_false]

/-- Reading after storing cells: the last byte stored at the address, or what was there. -/
theorem Memory.read_writeCells {size : Nat} {m : Memory} (h : Memory.wf size m = true) {cs : List Host.Cell}
    (hc : ∀ c ∈ cs, c.1 < size) (x : Nat) :
    (m.writeCells cs).read x = ((cs.reverse.find? fun c => c.1 == x).map Prod.snd).getD (m.read x) := by
  induction cs generalizing m with
  | nil => rfl
  | cons c cs ih =>
    simp only [Memory.writeCells]
    rw [ih (Memory.wf_write h (hc c (by simp)) c.2) (fun d hd => hc d (by simp [hd])), Memory.read_write h]
    rw [List.reverse_cons, List.find?_append]
    cases hf : cs.reverse.find? fun d => d.1 == x with
    | some d => simp
    | none =>
      by_cases hx : x = c.1
      · simp [hx]
      · simp [hx, show ¬ c.1 = x from fun e => hx e.symm]

@[simp] theorem Memory.length_readBytes (m : Memory) (a n : Nat) : (m.readBytes a n).length = n := by
  induction n generalizing a with
  | zero => rfl
  | succ n ih => simp [Memory.readBytes, ih]

/-- `MemRead` byte by byte (R32). -/
theorem Memory.readBytes_eq_map (m : Memory) (a n : Nat) :
    m.readBytes a n = (List.range n).map fun i => m.read (a + i) := by
  induction n generalizing a with
  | zero => rfl
  | succ n ih =>
    rw [Memory.readBytes, ih, List.range_succ_eq_map]
    simp [Function.comp_def, Nat.add_assoc, Nat.add_comm 1]

/-- Two memories in canonical form that read alike are equal. -/
theorem Memory.ext_of_read {size lo : Nat} {m m' : Memory} (h : Memory.wfFrom size lo m = true)
    (h' : Memory.wfFrom size lo m' = true) (hr : ∀ a, m.read a = m'.read a) : m = m' := by
  induction m generalizing lo m' with
  | nil =>
    cases m' with
    | nil => rfl
    | cons c' m' =>
      have hc' := Memory.wfFrom_cons.mp h'
      have := hr c'.1
      simp only [Memory.read, if_true] at this
      exact absurd this.symm hc'.2.2.1
  | cons c m ih =>
    have hc := Memory.wfFrom_cons.mp h
    cases m' with
    | nil =>
      have := hr c.1
      simp only [Memory.read, if_true] at this
      exact absurd this hc.2.2.1
    | cons c' m' =>
      have hc' := Memory.wfFrom_cons.mp h'
      have head : c.1 = c'.1 := by
        rcases Nat.lt_trichotomy c.1 c'.1 with hlt | heq | hgt
        · have := hr c.1
          rw [show Memory.read (c' :: m') c.1 = Memory.unlisted from
            Memory.read_below (lo := c'.1) (Memory.wfFrom_cons.mpr ⟨le_rfl, hc'.2⟩) hlt] at this
          simp only [Memory.read, if_true] at this
          exact absurd this hc.2.2.1
        · exact heq
        · have := hr c'.1
          rw [show Memory.read (c :: m) c'.1 = Memory.unlisted from
            Memory.read_below (lo := c.1) (Memory.wfFrom_cons.mpr ⟨le_rfl, hc.2⟩) hgt] at this
          simp only [Memory.read, if_true] at this
          exact absurd this.symm hc'.2.2.1
      have byte : c.2 = c'.2 := by
        have := hr c.1
        simpa [Memory.read, head] using this
      have tail : m = m' := by
        refine ih hc.2.2.2 (head ▸ hc'.2.2.2) fun a => ?_
        by_cases ha : c.1 = a
        · rw [Memory.read_below hc.2.2.2 (by omega), Memory.read_below hc'.2.2.2 (by omega)]
        · have := hr a
          simpa [Memory.read, ha, head ▸ ha] using this
      rw [tail, show c = c' from Prod.ext head byte]

end Sys2Proof.Machine
end

