-- ==== Sys2Proof/Laws/Ops.lean ====
section
/-! SUPPORT. What each shared operation can do, said once: operand decoding, checks, the window, and the end of a
command. -/

namespace Sys2Proof.Machine

/-! ### Operands -/

/-- The only error of the address operand is `BAD_ARGUMENT` (R56). -/
theorem decodeAddr_error {addr : BitVec 16} {e : CommandError} (h : decodeAddr addr = .error e) :
    e = .badArgument := by
  unfold decodeAddr at h
  split at h
  · injection h with h; exact h.symm
  · dsimp only at h
    split at h <;> first | (injection h with h; exact h.symm) | exact absurd h (by simp)

/-- A legal address operand (R56), by its number: bits 13:10 zero, the offset, and the space select. -/
theorem decodeAddr_ok_iff {addr : BitVec 16} {sp : Space} {off : Nat} :
    decodeAddr addr = .ok (sp, off) ↔
      addr.toNat / 2 ^ 10 % 2 ^ 4 = 0 ∧ off = addr.toNat % 2 ^ 10 ∧
        (addr.toNat / 2 ^ 14 = 0 ∧ sp = .bank .msg ∨ addr.toNat / 2 ^ 14 = 1 ∧ sp = .bank .sft ∨
          addr.toNat / 2 ^ 14 = 2 ∧ sp = .sfm) := by
  have hlt := addr.isLt
  have hres : addr.extractLsb' 10 4 = 0#4 ↔ addr.toNat / 2 ^ 10 % 2 ^ 4 = 0 := by
    rw [← BitVec.toNat_inj]
    simp [BitVec.extractLsb'_toNat, Nat.shiftRight_eq_div_pow]
  have hoff : (addr.extractLsb' 0 10).toNat = addr.toNat % 2 ^ 10 := by
    simp [BitVec.extractLsb'_toNat]
  have hsel : (addr.extractLsb' 14 2).toNat = addr.toNat / 2 ^ 14 := by
    simp only [BitVec.extractLsb'_toNat, Nat.shiftRight_eq_div_pow]
    omega
  unfold decodeAddr
  by_cases h : addr.extractLsb' 10 4 = 0#4
  · rw [if_neg (not_not.mpr h)]
    dsimp only
    rw [hoff, hsel]
    have h4 : addr.toNat / 2 ^ 14 < 4 := by omega
    have hz := hres.mp h
    generalize addr.toNat / 2 ^ 14 = sel at h4 ⊢
    have cases4 : sel = 0 ∨ sel = 1 ∨ sel = 2 ∨ sel = 3 := by omega
    rcases cases4 with rfl | rfl | rfl | rfl <;>
      simp only [hz, Except.ok.injEq, Prod.mk.injEq, reduceCtorEq, true_and, false_and, and_false, or_false,
        false_or, Nat.reduceEqDiff, OfNat.ofNat_ne_zero, OfNat.ofNat_ne_one,
        one_ne_zero, zero_ne_one, OfNat.zero_ne_ofNat, OfNat.one_ne_ofNat] <;>
      constructor <;> rintro ⟨h1, h2⟩ <;> exact ⟨h2.symm, h1.symm⟩
  · rw [if_pos h]
    have hz := mt hres.mpr h
    constructor
    · intro h'; exact absurd h' (by simp)
    · intro h'; exact absurd h'.1 hz

/-- A legal address operand of a command that reads: the same, and not the window (R56). -/
theorem decodeReadAddr_ok_iff {addr : BitVec 16} {b : Bank} {off : Nat} :
    decodeReadAddr addr = .ok (b, off) ↔ decodeAddr addr = .ok (.bank b, off) := by
  unfold decodeReadAddr
  cases h : decodeAddr addr with
  | error e => simp
  | ok r =>
    obtain ⟨sp, o⟩ := r
    cases sp <;> simp

/-- The only error of the address operand of a command that reads is `BAD_ARGUMENT` (R56). -/
theorem decodeReadAddr_error {addr : BitVec 16} {e : CommandError} (h : decodeReadAddr addr = .error e) :
    e = .badArgument := by
  unfold decodeReadAddr at h
  cases hd : decodeAddr addr with
  | error d =>
    rw [hd] at h
    injection h with h
    rw [← h]
    exact decodeAddr_error hd
  | ok r =>
    obtain ⟨sp, o⟩ := r
    rw [hd] at h
    cases sp with
    | bank b => simp at h
    | sfm => injection h with h; exact h.symm

theorem checkRange_ok_iff {size off n : Nat} {u : Unit} : checkRange size off n = .ok u ↔ off + n ≤ size := by
  unfold checkRange; split <;> simp_all

theorem checkRange_error_iff {size off n : Nat} {e : CommandError} :
    checkRange size off n = .error e ↔ size < off + n ∧ e = .addressRange := by
  unfold checkRange; split <;> simp_all [eq_comm]

theorem checkArgument_ok_iff {b : Bool} {u : Unit} : checkArgument b = .ok u ↔ b = true := by
  unfold checkArgument; split <;> simp_all

theorem checkArgument_error_iff {b : Bool} {e : CommandError} :
    checkArgument b = .error e ↔ b = false ∧ e = .badArgument := by
  unfold checkArgument; split <;> simp_all [eq_comm]

theorem checkLength_ok_iff {b : Bool} {u : Unit} : checkLength b = .ok u ↔ b = true := by
  unfold checkLength; split <;> simp_all

theorem checkLength_error_iff {b : Bool} {e : CommandError} :
    checkLength b = .error e ↔ b = false ∧ e = .badLength := by
  unfold checkLength; split <;> simp_all [eq_comm]

/-- A legal block operand (R58). -/
theorem decodeBlk_ok_iff {blk : Byte} {k : Fin 6} : decodeBlk blk = .ok k ↔ blk.toNat = k := by
  unfold decodeBlk
  split
  · constructor
    · intro h; injection h with h; rw [← h]
    · intro h; exact congrArg Except.ok (Fin.ext h)
  · have := k.isLt
    constructor
    · intro h; exact absurd h (by simp)
    · intro h; omega

theorem decodeBlk_error_iff {blk : Byte} {e : CommandError} :
    decodeBlk blk = .error e ↔ 6 ≤ blk.toNat ∧ e = .badArgument := by
  unfold decodeBlk; split <;> simp_all [eq_comm]

/-! ### The window `SFM` -/

/-- The cells a window write stores (R180): the bytes whose table address lies in the carried slice. -/
theorem mem_windowCells {sliceOff k t : Nat} {bs : List Byte} {c : Host.Cell} :
    c ∈ windowCells sliceOff k t bs ↔
      ∃ i, ∃ h : i < bs.length, (t + i) / sliceLen = k ∧ c = (sliceOff + (t + i) % sliceLen, bs[i]) := by
  induction bs generalizing t with
  | nil => simp [windowCells]
  | cons b bs ih =>
    have step : (∃ i, ∃ h : i < (b :: bs).length,
          (t + i) / sliceLen = k ∧ c = (sliceOff + (t + i) % sliceLen, (b :: bs)[i])) ↔
        (t / sliceLen = k ∧ c = (sliceOff + t % sliceLen, b)) ∨
          ∃ i, ∃ h : i < bs.length,
            (t + 1 + i) / sliceLen = k ∧ c = (sliceOff + (t + 1 + i) % sliceLen, bs[i]) := by
      constructor
      · rintro ⟨i, hi, h1, h2⟩
        cases i with
        | zero => exact Or.inl ⟨h1, h2⟩
        | succ i =>
          have e : t + (i + 1) = t + 1 + i := by omega
          rw [e] at h1 h2
          exact Or.inr ⟨i, by simpa using hi, h1, by simpa using h2⟩
      · rintro (⟨h1, h2⟩ | ⟨i, hi, h1, h2⟩)
        · exact ⟨0, by simp, by simpa using h1, by simpa using h2⟩
        · have e : t + (i + 1) = t + 1 + i := by omega
          exact ⟨i + 1, by simpa using hi, by rw [e]; exact h1, by rw [e]; simpa using h2⟩
    rw [step, ← ih]
    by_cases hk : t / sliceLen = k
    · simp only [windowCells, hk, if_true, List.mem_cons, true_and]
    · simp only [windowCells, hk, if_false, false_and, false_or]

/-- A window write lands inside the 16 bytes of the slice (R180). -/
theorem windowCells_bounds {sliceOff k t : Nat} {bs : List Byte} {c : Host.Cell}
    (h : c ∈ windowCells sliceOff k t bs) : sliceOff ≤ c.1 ∧ c.1 < sliceOff + sliceLen := by
  obtain ⟨i, hi, -, rfl⟩ := mem_windowCells.mp h
  have := Nat.mod_lt (t + i) (show 0 < sliceLen by decide)
  exact ⟨Nat.le_add_right _ _, by simp only; omega⟩

/-! ### The end of a command -/

theorem finish_ok (s t : State) (p : Packet) : finish s (.ok (t, p)) = .next (t.respond p) := rfl

theorem finish_error (s : State) (e : CommandError) : finish s (.error e) = .next (s.raise e) := rfl

/-- Every command ends in a next state: the answer, or the error taken in the state the command began in (R241,
R245). -/
theorem finish_next_iff {s t : State} {r : Except CommandError (State × Packet)} :
    finish s r = .next t ↔
      (∃ u p, r = .ok (u, p) ∧ t = u.respond p) ∨ ∃ e, r = .error e ∧ t = s.raise e := by
  rcases r with e | ⟨u, p⟩ <;> simp [finish, eq_comm]

theorem finish_answers (s : State) (r : Except CommandError (State × Packet)) : ∃ t, finish s r = .next t := by
  rcases r with e | ⟨u, p⟩ <;> exact ⟨_, rfl⟩

end Sys2Proof.Machine
end

