-- ==== Sys2Proof/Laws/State.lean ====
section
/-! SUPPORT. One lemma per field per update of `State` and `Status`, each true by definition. -/

namespace Sys2Proof.Machine

/-! ### `respond` -/

@[simp] theorem State.respond_cfg (s : State) (p : Packet) : (s.respond p).cfg = s.cfg := rfl
@[simp] theorem State.respond_msg (s : State) (p : Packet) : (s.respond p).msg = s.msg := rfl
@[simp] theorem State.respond_sft (s : State) (p : Packet) : (s.respond p).sft = s.sft := rfl
@[simp] theorem State.respond_seen (s : State) (p : Packet) : (s.respond p).seen = s.seen := rfl
@[simp] theorem State.respond_crcr (s : State) (p : Packet) : (s.respond p).crcr = s.crcr := rfl
@[simp] theorem State.respond_status (s : State) (p : Packet) : (s.respond p).status = s.status := rfl
@[simp] theorem State.respond_input (s : State) (p : Packet) : (s.respond p).input = s.input := rfl
@[simp] theorem State.respond_output (s : State) (p : Packet) :
    (s.respond p).output = s.output ++ [0x00#8 :: p] := rfl

/-! ### `raise` -/

@[simp] theorem State.raise_cfg (s : State) (e : CommandError) : (s.raise e).cfg = s.cfg := rfl
@[simp] theorem State.raise_msg (s : State) (e : CommandError) : (s.raise e).msg = s.msg := rfl
@[simp] theorem State.raise_sft (s : State) (e : CommandError) : (s.raise e).sft = s.sft := rfl
@[simp] theorem State.raise_seen (s : State) (e : CommandError) : (s.raise e).seen = s.seen := rfl
@[simp] theorem State.raise_crcr (s : State) (e : CommandError) : (s.raise e).crcr = s.crcr := rfl
@[simp] theorem State.raise_status (s : State) (e : CommandError) :
    (s.raise e).status = s.status.setError e := rfl
@[simp] theorem State.raise_input (s : State) (e : CommandError) : (s.raise e).input = s.input := rfl
@[simp] theorem State.raise_output (s : State) (e : CommandError) :
    (s.raise e).output = s.output ++ [[errorCode e]] := rfl

/-! ### Writing a bank -/

@[simp] theorem State.writeBank_cfg (s : State) (b : Bank) (off : Nat) (bs : List Byte) :
    (s.writeBank b off bs).cfg = s.cfg := by cases b <;> rfl
@[simp] theorem State.writeBank_seen (s : State) (b : Bank) (off : Nat) (bs : List Byte) :
    (s.writeBank b off bs).seen = s.seen := by cases b <;> rfl
@[simp] theorem State.writeBank_crcr (s : State) (b : Bank) (off : Nat) (bs : List Byte) :
    (s.writeBank b off bs).crcr = s.crcr := by cases b <;> rfl
@[simp] theorem State.writeBank_status (s : State) (b : Bank) (off : Nat) (bs : List Byte) :
    (s.writeBank b off bs).status = s.status := by cases b <;> rfl
@[simp] theorem State.writeBank_input (s : State) (b : Bank) (off : Nat) (bs : List Byte) :
    (s.writeBank b off bs).input = s.input := by cases b <;> rfl
@[simp] theorem State.writeBank_output (s : State) (b : Bank) (off : Nat) (bs : List Byte) :
    (s.writeBank b off bs).output = s.output := by cases b <;> rfl
@[simp] theorem State.writeBank_msg_msg (s : State) (off : Nat) (bs : List Byte) :
    (s.writeBank .msg off bs).msg = s.msg.writeBytes off bs := rfl
@[simp] theorem State.writeBank_msg_sft (s : State) (off : Nat) (bs : List Byte) :
    (s.writeBank .msg off bs).sft = s.sft := rfl
@[simp] theorem State.writeBank_sft_msg (s : State) (off : Nat) (bs : List Byte) :
    (s.writeBank .sft off bs).msg = s.msg := rfl
@[simp] theorem State.writeBank_sft_sft (s : State) (off : Nat) (bs : List Byte) :
    (s.writeBank .sft off bs).sft = s.sft.writeBytes off bs := rfl
@[simp] theorem State.bank_msg (s : State) : s.bank .msg = s.msg := rfl
@[simp] theorem State.bank_sft (s : State) : s.bank .sft = s.sft := rfl

/-! ### Writing through the window -/

@[simp] theorem State.writeWindow_cfg (s : State) (a : Nat) (bs : List Byte) :
    (s.writeWindow a bs).cfg = s.cfg := rfl
@[simp] theorem State.writeWindow_msg (s : State) (a : Nat) (bs : List Byte) :
    (s.writeWindow a bs).msg = s.msg.writeCells (s.windowCells a bs) := rfl
@[simp] theorem State.writeWindow_sft (s : State) (a : Nat) (bs : List Byte) :
    (s.writeWindow a bs).sft = s.sft := rfl
@[simp] theorem State.writeWindow_seen (s : State) (a : Nat) (bs : List Byte) :
    (s.writeWindow a bs).seen = s.seen := rfl
@[simp] theorem State.writeWindow_crcr (s : State) (a : Nat) (bs : List Byte) :
    (s.writeWindow a bs).crcr = s.crcr := rfl
@[simp] theorem State.writeWindow_status (s : State) (a : Nat) (bs : List Byte) :
    (s.writeWindow a bs).status = s.status.setSfmHit (!(s.windowCells a bs).isEmpty) := rfl
@[simp] theorem State.writeWindow_input (s : State) (a : Nat) (bs : List Byte) :
    (s.writeWindow a bs).input = s.input := rfl
@[simp] theorem State.writeWindow_output (s : State) (a : Nat) (bs : List Byte) :
    (s.writeWindow a bs).output = s.output := rfl

/-! ### The fields of `STATUS` -/

@[simp] theorem Status.setSfmHit_rsRec0 (h : Bool) (st : Status) : (st.setSfmHit h).rsRec0 = st.rsRec0 := rfl
@[simp] theorem Status.setSfmHit_rsRec1 (h : Bool) (st : Status) : (st.setSfmHit h).rsRec1 = st.rsRec1 := rfl
@[simp] theorem Status.setSfmHit_crcOk (h : Bool) (st : Status) : (st.setSfmHit h).crcOk = st.crcOk := rfl
@[simp] theorem Status.setSfmHit_sfmHit (h : Bool) (st : Status) : (st.setSfmHit h).sfmHit = h := rfl
@[simp] theorem Status.setSfmHit_errOpc (h : Bool) (st : Status) : (st.setSfmHit h).errOpc = st.errOpc := rfl
@[simp] theorem Status.setSfmHit_errArg (h : Bool) (st : Status) : (st.setSfmHit h).errArg = st.errArg := rfl
@[simp] theorem Status.setSfmHit_errAddr (h : Bool) (st : Status) : (st.setSfmHit h).errAddr = st.errAddr := rfl
@[simp] theorem Status.setSfmHit_errSf (h : Bool) (st : Status) : (st.setSfmHit h).errSf = st.errSf := rfl

@[simp] theorem Status.setCrcOk_rsRec0 (k : Fin 6) (b : Bool) (st : Status) :
    (st.setCrcOk k b).rsRec0 = st.rsRec0 := rfl
@[simp] theorem Status.setCrcOk_rsRec1 (k : Fin 6) (b : Bool) (st : Status) :
    (st.setCrcOk k b).rsRec1 = st.rsRec1 := rfl
@[simp] theorem Status.setCrcOk_crcOk (k : Fin 6) (b : Bool) (st : Status) :
    (st.setCrcOk k b).crcOk = st.crcOk.set k b := rfl
@[simp] theorem Status.setCrcOk_sfmHit (k : Fin 6) (b : Bool) (st : Status) :
    (st.setCrcOk k b).sfmHit = st.sfmHit := rfl
@[simp] theorem Status.setCrcOk_errOpc (k : Fin 6) (b : Bool) (st : Status) :
    (st.setCrcOk k b).errOpc = st.errOpc := rfl
@[simp] theorem Status.setCrcOk_errArg (k : Fin 6) (b : Bool) (st : Status) :
    (st.setCrcOk k b).errArg = st.errArg := rfl
@[simp] theorem Status.setCrcOk_errAddr (k : Fin 6) (b : Bool) (st : Status) :
    (st.setCrcOk k b).errAddr = st.errAddr := rfl
@[simp] theorem Status.setCrcOk_errSf (k : Fin 6) (b : Bool) (st : Status) :
    (st.setCrcOk k b).errSf = st.errSf := rfl

@[simp] theorem Status.setRsRec_zero (b : Bool) (st : Status) :
    st.setRsRec 0 b = { st with rsRec0 := b } := rfl
@[simp] theorem Status.setRsRec_one (b : Bool) (st : Status) :
    st.setRsRec 1 b = { st with rsRec1 := b } := rfl

@[simp] theorem Status.setError_rsRec0 (e : CommandError) (st : Status) :
    (st.setError e).rsRec0 = st.rsRec0 := by cases e <;> rfl
@[simp] theorem Status.setError_rsRec1 (e : CommandError) (st : Status) :
    (st.setError e).rsRec1 = st.rsRec1 := by cases e <;> rfl
@[simp] theorem Status.setError_crcOk (e : CommandError) (st : Status) :
    (st.setError e).crcOk = st.crcOk := by cases e <;> rfl
@[simp] theorem Status.setError_sfmHit (e : CommandError) (st : Status) :
    (st.setError e).sfmHit = st.sfmHit := by cases e <;> rfl

end Sys2Proof.Machine
end

