-- ==== Sys2Proof/Laws/Families.lean ====
section
/-! SUPPORT. What the operations shared inside a family do: the accessors' common procedures, the block and stream
updates, and the bounds that admissible parameters give. -/

namespace Sys2Proof.Machine

/-! ### Accessors -/

/-- `GET.<T>` on a legal address answers and changes nothing (R153). -/
theorem getField_legal {t : FieldType} {addr : BitVec 16} {s : State} {b : Bank} {off : Nat}
    (h : decodeReadAddr addr = .ok (b, off)) (hr : off + t.width ≤ b.size) :
    getField t addr s =
      .next (s.respond (leBytes 4 (t.extend (unle (s.readBytes b off t.width))).toNat)) := by
  simp only [getField, h, bind, Except.bind, checkRange, if_pos hr, finish_ok]

theorem getField_badArgument {t : FieldType} {addr : BitVec 16} {s : State} {e : CommandError}
    (h : decodeReadAddr addr = .error e) : getField t addr s = .next (s.raise .badArgument) := by
  obtain rfl := decodeReadAddr_error h
  simp only [getField, h]; rfl

theorem getField_addressRange {t : FieldType} {addr : BitVec 16} {s : State} {b : Bank} {off : Nat}
    (h : decodeReadAddr addr = .ok (b, off)) (hr : b.size < off + t.width) :
    getField t addr s = .next (s.raise .addressRange) := by
  simp only [getField, h, bind, Except.bind, checkRange, if_neg (Nat.not_le.mpr hr), finish_error]

/-- `SET.<T>` on a legal address with a value that fits stores the field (R170). -/
theorem setField_legal {t : FieldType} {addr : BitVec 16} {val : BitVec 32} {s : State} {sp : Space} {off : Nat}
    (h : decodeAddr addr = .ok (sp, off)) (hf : t.fits val = true) (hr : off + t.width ≤ sp.size) :
    setField t addr val s = .next ((s.writeSpace sp off (leBytes t.width val.toNat)).respond []) := by
  simp only [setField, h, bind, Except.bind, checkArgument, hf, if_true, checkRange, if_pos hr, finish_ok]

theorem setField_badAddress {t : FieldType} {addr : BitVec 16} {val : BitVec 32} {s : State} {e : CommandError}
    (h : decodeAddr addr = .error e) : setField t addr val s = .next (s.raise .badArgument) := by
  obtain rfl := decodeAddr_error h
  simp only [setField, h]; rfl

theorem setField_badValue {t : FieldType} {addr : BitVec 16} {val : BitVec 32} {s : State} {sp : Space} {off : Nat}
    (h : decodeAddr addr = .ok (sp, off)) (hf : t.fits val = false) :
    setField t addr val s = .next (s.raise .badArgument) := by
  simp only [setField, h, checkArgument, hf]; rfl

theorem setField_addressRange {t : FieldType} {addr : BitVec 16} {val : BitVec 32} {s : State} {sp : Space}
    {off : Nat} (h : decodeAddr addr = .ok (sp, off)) (hf : t.fits val = true) (hr : sp.size < off + t.width) :
    setField t addr val s = .next (s.raise .addressRange) := by
  simp only [setField, h, bind, Except.bind, checkArgument, hf, if_true, checkRange, if_neg (Nat.not_le.mpr hr),
    finish_error]

/-! ### Block updates -/

@[simp] theorem State.storeBlockCrc_cfg (s : State) (k : Fin 6) (c : BitVec 16) :
    (s.storeBlockCrc k c).cfg = s.cfg := rfl
@[simp] theorem State.storeBlockCrc_msg (s : State) (k : Fin 6) (c : BitVec 16) :
    (s.storeBlockCrc k c).msg = s.msg.writeBytes (s.blockCrcOff k) (leBytes 2 c.toNat) := rfl
@[simp] theorem State.storeBlockCrc_sft (s : State) (k : Fin 6) (c : BitVec 16) :
    (s.storeBlockCrc k c).sft = s.sft := rfl
@[simp] theorem State.storeBlockCrc_seen (s : State) (k : Fin 6) (c : BitVec 16) :
    (s.storeBlockCrc k c).seen = s.seen := rfl
@[simp] theorem State.storeBlockCrc_crcr (s : State) (k : Fin 6) (c : BitVec 16) :
    (s.storeBlockCrc k c).crcr = c := rfl
@[simp] theorem State.storeBlockCrc_status (s : State) (k : Fin 6) (c : BitVec 16) :
    (s.storeBlockCrc k c).status = s.status.setCrcOk k true := rfl
@[simp] theorem State.storeBlockCrc_input (s : State) (k : Fin 6) (c : BitVec 16) :
    (s.storeBlockCrc k c).input = s.input := rfl
@[simp] theorem State.storeBlockCrc_output (s : State) (k : Fin 6) (c : BitVec 16) :
    (s.storeBlockCrc k c).output = s.output := rfl

@[simp] theorem State.recordBlockCheck_cfg (s : State) (k : Fin 6) : (s.recordBlockCheck k).cfg = s.cfg := rfl
@[simp] theorem State.recordBlockCheck_msg (s : State) (k : Fin 6) : (s.recordBlockCheck k).msg = s.msg := rfl
@[simp] theorem State.recordBlockCheck_sft (s : State) (k : Fin 6) : (s.recordBlockCheck k).sft = s.sft := rfl
@[simp] theorem State.recordBlockCheck_seen (s : State) (k : Fin 6) : (s.recordBlockCheck k).seen = s.seen := rfl
@[simp] theorem State.recordBlockCheck_crcr (s : State) (k : Fin 6) :
    (s.recordBlockCheck k).crcr = crc16 (s.blockData k) := rfl
@[simp] theorem State.recordBlockCheck_status (s : State) (k : Fin 6) :
    (s.recordBlockCheck k).status = s.status.setCrcOk k (s.blockCrcMatches k) := rfl
@[simp] theorem State.recordBlockCheck_input (s : State) (k : Fin 6) :
    (s.recordBlockCheck k).input = s.input := rfl
@[simp] theorem State.recordBlockCheck_output (s : State) (k : Fin 6) :
    (s.recordBlockCheck k).output = s.output := rfl

/-! ### Stream updates -/

@[simp] theorem State.encodeStream_cfg (s : State) (k : Fin 2) : (s.encodeStream k).cfg = s.cfg := rfl
@[simp] theorem State.encodeStream_msg (s : State) (k : Fin 2) :
    (s.encodeStream k).msg = s.msg.writeBytes (parBase s.cfg k) (rsParity s.cfg (s.streamData k)) := rfl
@[simp] theorem State.encodeStream_sft (s : State) (k : Fin 2) : (s.encodeStream k).sft = s.sft := rfl
@[simp] theorem State.encodeStream_seen (s : State) (k : Fin 2) : (s.encodeStream k).seen = s.seen := rfl
@[simp] theorem State.encodeStream_crcr (s : State) (k : Fin 2) : (s.encodeStream k).crcr = s.crcr := rfl
@[simp] theorem State.encodeStream_status (s : State) (k : Fin 2) : (s.encodeStream k).status = s.status := rfl
@[simp] theorem State.encodeStream_input (s : State) (k : Fin 2) : (s.encodeStream k).input = s.input := rfl
@[simp] theorem State.encodeStream_output (s : State) (k : Fin 2) : (s.encodeStream k).output = s.output := rfl

/-- Decoding a stream either leaves everything but its record, or stores the corrected word (R113). -/
theorem State.decodeStream_cases (s : State) (k : Fin 2) :
    ((rsDecode s.cfg (s.codeword k)).1 = false ∧
        s.decodeStream k = { s with status := s.status.setRsRec k false }) ∨
      ((rsDecode s.cfg (s.codeword k)).1 = true ∧
        s.decodeStream k =
          { s with
            status := s.status.setRsRec k true
            msg := (s.storeCorrected k (rsDecode s.cfg (s.codeword k)).2).msg }) := by
  unfold State.decodeStream
  cases h : (rsDecode s.cfg (s.codeword k)).1 with
  | false => exact Or.inl ⟨rfl, by simp [h]⟩
  | true => exact Or.inr ⟨rfl, by simp [h, State.storeCorrected]⟩

@[simp] theorem State.decodeStream_cfg (s : State) (k : Fin 2) : (s.decodeStream k).cfg = s.cfg := by
  rcases s.decodeStream_cases k with ⟨-, h⟩ | ⟨-, h⟩ <;> rw [h]
@[simp] theorem State.decodeStream_sft (s : State) (k : Fin 2) : (s.decodeStream k).sft = s.sft := by
  rcases s.decodeStream_cases k with ⟨-, h⟩ | ⟨-, h⟩ <;> rw [h]
@[simp] theorem State.decodeStream_seen (s : State) (k : Fin 2) : (s.decodeStream k).seen = s.seen := by
  rcases s.decodeStream_cases k with ⟨-, h⟩ | ⟨-, h⟩ <;> rw [h]
@[simp] theorem State.decodeStream_crcr (s : State) (k : Fin 2) : (s.decodeStream k).crcr = s.crcr := by
  rcases s.decodeStream_cases k with ⟨-, h⟩ | ⟨-, h⟩ <;> rw [h]
@[simp] theorem State.decodeStream_input (s : State) (k : Fin 2) : (s.decodeStream k).input = s.input := by
  rcases s.decodeStream_cases k with ⟨-, h⟩ | ⟨-, h⟩ <;> rw [h]
@[simp] theorem State.decodeStream_output (s : State) (k : Fin 2) : (s.decodeStream k).output = s.output := by
  rcases s.decodeStream_cases k with ⟨-, h⟩ | ⟨-, h⟩ <;> rw [h]
@[simp] theorem State.decodeStream_status (s : State) (k : Fin 2) :
    (s.decodeStream k).status = s.status.setRsRec k (rsDecode s.cfg (s.codeword k)).1 := by
  rcases s.decodeStream_cases k with ⟨h1, h⟩ | ⟨h1, h⟩ <;> rw [h, h1]

/-! ### Lengths -/

@[simp] theorem length_addScaled (p : BitVec 9) (q r : List Byte) (f : Byte) :
    (addScaled p q f r).length = min q.length r.length := by
  simp [addScaled]

@[simp] theorem State.length_streamData (s : State) (k : Fin 2) : (s.streamData k).length = rsDataLen := by
  simp [State.streamData]

@[simp] theorem State.length_streamParity (s : State) (k : Fin 2) : (s.streamParity k).length = rsParityLen := by
  simp [State.streamParity]

@[simp] theorem State.length_codeword (s : State) (k : Fin 2) : (s.codeword k).length = rsCodeLen := by
  simp [State.codeword, rsCodeLen, rsDataLen, rsParityLen]

end Sys2Proof.Machine

namespace Sys2Proof

/-! ### Admissible parameters -/

/-- Every block lies in 0x039..0x13F (R36). -/
theorem Config.Admissible.block_bounds {c : Config} (h : c.Admissible) (k : Fin 6) :
    0x039 ≤ c.blockOff[k] ∧ c.blockOff[k] + c.blockLen[k] + 4 ≤ 0x140 := by
  have hb := h.blocks
  simp only [Config.blocksTile, Bool.and_eq_true, beq_iff_eq] at hb
  obtain ⟨⟨⟨⟨⟨⟨⟨h0, h1⟩, h2⟩, h3⟩, h4⟩, h5⟩, h6⟩, -⟩ := hb
  obtain ⟨k, hk⟩ := k
  have hcases : k = 0 ∨ k = 1 ∨ k = 2 ∨ k = 3 ∨ k = 4 ∨ k = 5 := by omega
  rcases hcases with rfl | rfl | rfl | rfl | rfl | rfl <;> simp only [Fin.getElem_fin] <;> omega

/-- Different blocks do not overlap (R36). -/
theorem Config.Admissible.blocks_disjoint {c : Config} (h : c.Admissible) {j k : Fin 6} (hjk : j < k) :
    c.blockOff[j] + c.blockLen[j] + 4 ≤ c.blockOff[k] := by
  have hb := h.blocks
  simp only [Config.blocksTile, Bool.and_eq_true, beq_iff_eq] at hb
  obtain ⟨⟨⟨⟨⟨⟨⟨h0, h1⟩, h2⟩, h3⟩, h4⟩, h5⟩, h6⟩, -⟩ := hb
  obtain ⟨j, hj⟩ := j
  obtain ⟨k, hk⟩ := k
  have hlt : j < k := hjk
  have jcases : j = 0 ∨ j = 1 ∨ j = 2 ∨ j = 3 ∨ j = 4 := by omega
  have kcases : k = 1 ∨ k = 2 ∨ k = 3 ∨ k = 4 ∨ k = 5 := by omega
  rcases jcases with rfl | rfl | rfl | rfl | rfl <;> rcases kcases with rfl | rfl | rfl | rfl | rfl <;>
    first | omega | (simp only [Fin.getElem_fin]; omega)

/-- A block length fits its length byte (R36). -/
theorem Config.Admissible.blockLen_le {c : Config} (h : c.Admissible) (k : Fin 6) : c.blockLen[k] ≤ 255 := by
  have hb := h.blocks
  simp only [Config.blocksTile, Bool.and_eq_true, Vector.all_eq_true, decide_eq_true_eq] at hb
  exact hb.2 k k.isLt

/-- The parity halves are 0x008..0x01F and 0x020..0x037, one per stream (R5). -/
theorem Config.Admissible.parBase_cases {c : Config} (h : c.Admissible) :
    Machine.parBase c 0 = 0x008 ∧ Machine.parBase c 1 = 0x020 ∨
      Machine.parBase c 0 = 0x020 ∧ Machine.parBase c 1 = 0x008 := by
  have hp := h.parity
  simpa [Config.parityHalves, Machine.parBase] using hp

/-- The slice lies in `MSG` and leaves the subframe number alone (R5). -/
theorem Config.Admissible.slice_bounds {c : Config} (h : c.Admissible) :
    c.sliceOff + sliceLen ≤ msgSize ∧ (subframeNumberOff < c.sliceOff ∨ c.sliceOff + sliceLen ≤ subframeNumberOff) := by
  have hs := h.slice
  simpa [Config.sliceFits] using hs

end Sys2Proof
end

