-- ==== Sys2Proof/Laws/Galois.lean ====
section
/-! SUPPORT. Small facts about the field operations and the syndromes: zero operands, trailing zero coefficients,
lengths. -/

namespace Sys2Proof.Machine

@[simp] theorem gfDouble_zero (p : BitVec 9) : gfDouble p 0#8 = 0#8 := by
  simp [gfDouble]

/-- The loop of R101 with a zero multiplicand keeps its sum. -/
theorem gfMulLoop_zero (p : BitVec 9) (n : Nat) (b r : Byte) : gfMulLoop p n 0#8 b r = r := by
  induction n generalizing b r with
  | zero => rfl
  | succ n ih => simp [gfMulLoop, ih]

@[simp] theorem gfMul_zero_left (p : BitVec 9) (b : Byte) : gfMul p 0#8 b = 0#8 :=
  gfMulLoop_zero p 8 b 0#8

/-- Coefficients that are zero above the highest degree change no value. -/
theorem polyEval_append_zeros (p : BitVec 9) (c : List Byte) (n : Nat) (x : Byte) :
    polyEval p (c ++ List.replicate n 0#8) x = polyEval p c x := by
  have h : List.foldr (fun ci y => gfMul p y x ^^^ ci) 0#8 (List.replicate n 0#8) = 0#8 := by
    induction n with
    | zero => rfl
    | succ n ih => rw [List.replicate_succ, List.foldr_cons, ih]; simp
  simp only [polyEval, List.foldr_append, h]

/-- Zero symbols above the highest degree change no syndrome. -/
theorem isCodeword_append_zeros (c : Config) (w : List Byte) (n : Nat) :
    isCodeword c (w ++ List.replicate n 0#8) = isCodeword c w := by
  simp only [isCodeword, syndromes, polyEval_append_zeros]

/-- A codeword is answered as it is (the first step of R110). -/
theorem rsDecode_of_isCodeword {c : Config} {w : List Byte} (h : isCodeword c w = true) : rsDecode c w = (true, w) := by
  simp [rsDecode, rsCorrect, h]

@[simp] theorem length_syndromes (c : Config) (w : List Byte) : (syndromes c w).length = rsParityLen := by
  simp [syndromes]

theorem length_solveLinear {p : BitVec 9} {n : Nat} {rows : List (List Byte)} {xs : List Byte}
    (h : solveLinear p n rows = some xs) : xs.length = n := by
  induction n generalizing rows xs with
  | zero =>
    unfold solveLinear at h
    split at h
    · cases h; rfl
    · cases h
  | succ n ih =>
    unfold solveLinear at h
    split at h <;>
    · obtain ⟨ys, hy, rfl⟩ := Option.map_eq_some_iff.mp h
      simp [ih hy]

@[simp] theorem length_addErrors (w : List Byte) (errors : List (Nat × Byte)) :
    (addErrors w errors).length = w.length := by
  unfold addErrors
  induction errors generalizing w with
  | nil => rfl
  | cons e es ih => simp [ih]

end Sys2Proof.Machine
end

