-- ==== Sys2Proof/Laws/Transforms.lean ====
section
/-! SUPPORT. What the pure functions of the units do to sequences: the CRC register over a concatenation, the length
and the bytes of a whitened sequence, the lengths of the generator and of a parity, the padding of a string. -/

namespace Sys2Proof.Machine

/-- The register runs on over the second part (R83 c). -/
theorem crcFrom_append (c : BitVec 16) (a b : List Byte) : crcFrom c (a ++ b) = crcFrom (crcFrom c a) b := by
  simp only [crcFrom, List.foldl_append]

/-- The register after a first part is the CRC of that part (R83 c). -/
theorem crc16_append (a b : List Byte) : crc16 (a ++ b) = crcFrom (crc16 a) b :=
  crcFrom_append crcInit a b

@[simp] theorem length_whitenFrom (mask : Vector Byte 64) (i : Nat) (x : List Byte) :
    (whitenFrom mask i x).length = x.length := by
  induction x generalizing i with
  | nil => rfl
  | cons b bs ih => simp [whitenFrom, ih]

/-- Byte `j` of a whitened sequence depends on byte `j` of the sequence and on its mask byte alone (R132). -/
theorem getElem_whitenFrom (mask : Vector Byte 64) (i j : Nat) (x : List Byte) (h : j < x.length) :
    (whitenFrom mask i x)[j]'(by rw [length_whitenFrom]; exact h) = rev8 (x[j] ^^^ maskByte mask (i + j)) := by
  induction x generalizing i j with
  | nil => cases h
  | cons b bs ih =>
    cases j with
    | zero => rfl
    | succ j =>
      simp only [whitenFrom, List.getElem_cons_succ]
      rw [ih (i + 1) j (Nat.lt_of_succ_lt_succ h), Nat.add_assoc, Nat.add_comm 1 j]

@[simp] theorem length_unwhitenFrom (mask : Vector Byte 64) (i : Nat) (y : List Byte) :
    (unwhitenFrom mask i y).length = y.length := by
  induction y generalizing i with
  | nil => rfl
  | cons b bs ih => simp [unwhitenFrom, ih]

@[simp] theorem length_polyMulLinear (p : BitVec 9) (r : Byte) (c : List Byte) :
    (polyMulLinear p r c).length = c.length + 1 := by
  simp [polyMulLinear]

/-- The generator has 25 coefficients (R104). -/
@[simp] theorem length_rsGenerator (c : Config) : (rsGenerator c).length = rsParityLen + 1 := by
  have h : ∀ (l : List Nat) (g : List Byte),
      (l.foldl (fun g k => polyMulLinear c.rsPrimPoly (rsRoot c k) g) g).length = g.length + l.length := by
    intro l
    induction l with
    | nil => intro g; rfl
    | cons k ks ih =>
      intro g
      rw [List.foldl_cons, ih, length_polyMulLinear, List.length_cons]
      omega
  rw [rsGenerator, h, List.length_range]
  rfl

/-- One shift keeps the length of the register, up to that of the generator (R107). -/
theorem length_rsShift {p : BitVec 9} {g rem : List Byte} (d : Byte) (hr : 0 < rem.length)
    (hg : rem.length ≤ g.length) : (rsShift p g d rem).length = rem.length := by
  unfold rsShift
  dsimp only
  split
  · simp; omega
  · simp; omega

/-- A parity has 24 symbols (R107). -/
@[simp] theorem length_rsParity (c : Config) (d : List Byte) : (rsParity c d).length = rsParityLen := by
  unfold rsParity
  induction d with
  | nil => simp
  | cons b bs ih =>
    rw [List.foldr_cons, length_rsShift b (by rw [ih]; decide) (by rw [ih, length_rsGenerator]; decide), ih]

/-- The padding fills the field exactly when the data fits it (R172). -/
theorem length_padded {width : Nat} {data : List Byte} (h : data.length ≤ width) :
    (padded width data).length = width := by
  simp [padded]; omega

end Sys2Proof.Machine
end

