-- ==== Sys2Proof/Tests/Slice0.lean ====
section
/-! SUPPORT. The model's own tests. The expected bytes come from the spec: the worked encodings and the vectors of
spec/95_test_vectors.md (named K, RS, W, B, S, P there), the examples in the rules, and hand decoding of the tables.
`witness_<Obligation>` shows a concrete state and operands that meet the hypotheses of a statement. -/

namespace Sys2Proof.Tests

set_option Elab.async false

open Sys2Proof.Machine Sys2Proof.Claims

/-! ### The machine of the vectors -/

/-- `MASK_GK` (spec/42_whitening.md R138). -/
def maskGk : Vector Byte 64 :=
  #v[0x96, 0x83, 0x3E, 0x51, 0xB1, 0x49, 0x08, 0x98, 0x32, 0x05, 0x59, 0x0E, 0xF9, 0x44, 0xC6, 0x26,
     0x21, 0x60, 0xC2, 0xEA, 0x79, 0x5D, 0x6D, 0xA1, 0x54, 0x69, 0x47, 0x0C, 0xDC, 0xE8, 0x5C, 0xF1,
     0xF7, 0x76, 0x82, 0x7F, 0x07, 0x99, 0xA2, 0x2C, 0x93, 0x7C, 0x30, 0x63, 0xF5, 0x10, 0x2E, 0x61,
     0xD0, 0xBC, 0xB4, 0xB6, 0x06, 0xAA, 0xF4, 0x23, 0x78, 0x6E, 0x3B, 0xAE, 0xBF, 0x7B, 0x4C, 0xC1]

/-- The default parameters with `MASK_GK`, and the corrected parity written back. -/
def cfg0 : Config :=
  { Config.atReset with
    whitenMask := maskGk
    rsDecWritesParity := true
    frameHeader := #v[0, 0, 0, 0, 0, 0, 0, 0] }

/-- The machine after power-on with the given memories. -/
def start (msg sft : Memory) : State := State.powerOn cfg0 msg sft

/-- The machine of the vectors: zero memories. -/
def zero : State := start [] []

/-- A memory that is zero but for `bytes` from `a` on. -/
def mem (a : Nat) (bytes : List Byte) : Memory := Memory.writeBytes [] a bytes

/-- The next state, or `s` itself where there is none. -/
def settle (s : State) (o : Host.Outcome State Fault Refusal) : State :=
  match o with
  | .next t => t
  | .fault _ => s
  | .refused _ => s

/-- The state after the host presents `p`. -/
def after (s : State) (p : Packet) : State := settle s (step { s with input := [p], output := [] })

/-- The response to `p`. -/
def reply (s : State) (p : Packet) : Packet := (after s p).output.headD []

/-- The parameters of the vectors are admissible. -/
theorem test_default_parameters_admissible : cfg0.Admissible :=
  ⟨by decide +kernel, by decide +kernel, by decide, by decide +kernel, by decide +kernel, by decide +kernel⟩

/-- A state of the vectors meets the invariant when its memories are canonical. -/
theorem start_inv (m f : Memory) (hm : Memory.wf 1024 m = true) (hf : Memory.wf 816 f = true) : (start m f).Inv :=
  ⟨test_default_parameters_admissible, hm, hf⟩

/-! ### Well-formedness, each check by a term it refuses -/

theorem test_crc16I_of_65536_bytes_ill_formed : (Instr.crc16I (List.replicate 65536 0)).wellFormed = false := by
  simp only [Instr.wellFormed, List.length_replicate]
  decide

theorem test_setStr_of_65536_bytes_ill_formed :
    (Instr.setStr 0 65535 (List.replicate 65536 0)).wellFormed = false := by
  simp only [Instr.wellFormed, List.length_replicate]
  decide

theorem test_crc16I_of_65535_bytes_well_formed : (Instr.crc16I (List.replicate 65535 0)).wellFormed = true := by
  simp only [Instr.wellFormed, List.length_replicate]
  decide

/-! ### Decoding, one word for every constructor (spec/30_encoding.md R52, R59) -/

theorem test_decode_nop : decode [0x00] = .ok .nop := rfl
theorem test_decode_rdStatus : decode [0x01] = .ok .rdStatus := rfl
theorem test_decode_clrErr : decode [0x02] = .ok .clrErr := rfl
theorem test_decode_reset : decode [0x03] = .ok .reset := rfl
theorem test_decode_crc16 : decode [0x10, 0x00, 0x40, 0x30, 0x03] = .ok (.crc16 0x4000 816) := rfl
theorem test_decode_crc16I : decode [0x11, 0x02, 0x00, 0xAB, 0xCD] = .ok (.crc16I [0xAB, 0xCD]) := rfl
theorem test_decode_rdCrc : decode [0x12] = .ok .rdCrc := rfl
theorem test_decode_blkHdr : decode [0x20, 0x05] = .ok (.blkHdr 5) := rfl
theorem test_decode_blkSetcrc : decode [0x21, 0x06] = .ok (.blkSetcrc 6) := rfl
theorem test_decode_blkChkcrc : decode [0x22, 0x04] = .ok (.blkChkcrc 4) := rfl
theorem test_decode_blkBuild : decode [0x23, 0x07, 0x11, 0x22] = .ok (.blkBuild 7 [0x11, 0x22]) := rfl
theorem test_decode_blkRead : decode [0x24, 0x03] = .ok (.blkRead 3) := rfl
theorem test_decode_rsEnc : decode [0x30] = .ok .rsEnc := rfl
theorem test_decode_rsDec : decode [0x31] = .ok .rsDec := rfl
theorem test_decode_whiten : decode [0x38, 0x10, 0x00, 0x04, 0x01] = .ok (.whiten 0x0010 260) := rfl
theorem test_decode_getU8 : decode [0x40, 0x01, 0x01] = .ok (.getU8 0x0101) := rfl
theorem test_decode_getU16 : decode [0x41, 0xFE, 0x03] = .ok (.getU16 0x03FE) := rfl
theorem test_decode_getU24 : decode [0x42, 0xFD, 0x03] = .ok (.getU24 0x03FD) := rfl
theorem test_decode_getU32 : decode [0x43, 0xFE, 0xC3] = .ok (.getU32 0xC3FE) := rfl
theorem test_decode_getS8 : decode [0x44, 0x04, 0x01] = .ok (.getS8 0x0104) := rfl
theorem test_decode_getS16 : decode [0x45, 0x30, 0x00] = .ok (.getS16 0x0030) := rfl
theorem test_decode_getS32 : decode [0x46, 0x10, 0x00] = .ok (.getS32 0x0010) := rfl
theorem test_decode_getF32 : decode [0x47, 0x3C, 0x40] = .ok (.getF32 0x403C) := rfl
theorem test_decode_getStr : decode [0x48, 0x00, 0x00, 0x01, 0x04] = .ok (.getStr 0x0000 1025) := rfl
theorem test_decode_setU8 : decode [0x50, 0x52, 0x00, 0x33, 0, 0, 0] = .ok (.setU8 0x0052 51) := rfl
theorem test_decode_setU16 : decode [0x51, 0x3B, 0x00, 0x34, 0x12, 0, 0] = .ok (.setU16 0x003B 0x1234) := rfl
theorem test_decode_setU24 : decode [0x52, 0xFD, 0x03, 0xEF, 0xCD, 0xAB, 0] = .ok (.setU24 0x03FD 0xABCDEF) := rfl
theorem test_decode_setU32 :
    decode [0x53, 0x00, 0x01, 0xD4, 0xC3, 0xB2, 0xA1] = .ok (.setU32 0x0100 0xA1B2C3D4) := rfl
theorem test_decode_setS8 : decode [0x54, 0, 0, 0x7F, 0xFF, 0xFF, 0xFF] = .ok (.setS8 0x0000 0xFFFFFF7F) := rfl
theorem test_decode_setS16 : decode [0x55, 0x46, 0, 0xFE, 0xFF, 0xFF, 0xFF] = .ok (.setS16 0x0046 0xFFFFFFFE) := rfl
theorem test_decode_setS32 : decode [0x56, 0x10, 0, 0, 0, 0, 0x80] = .ok (.setS32 0x0010 0x80000000) := rfl
theorem test_decode_setF32 : decode [0x57, 0x3C, 0x80, 0, 0, 0xC8, 0x41] = .ok (.setF32 0x803C 0x41C80000) := rfl
theorem test_decode_setStr :
    decode [0x58, 0x3D, 0x00, 0x08, 0x01, 0x02, 0x00, 0x53, 0x31] = .ok (.setStr 0x003D 264 [0x53, 0x31]) := rfl
theorem test_decode_sfCapture : decode [0x60] = .ok .sfCapture := rfl
theorem test_decode_sfRdSeen : decode [0x61] = .ok .sfRdSeen := rfl
theorem test_decode_sfClear : decode [0x62] = .ok .sfClear := rfl

/-- Spec vectors of section 2.6: the opcode before the length; and lengths. -/
theorem test_decode_errors :
    decode [] = .error .badLength ∧ decode [0x7F, 0x00] = .error .illegalOpcode ∧
      decode [0x04] = .error .illegalOpcode ∧ decode [0x40, 0x00] = .error .badLength ∧
      decode [0x23] = .error .badLength ∧ decode [0x11, 0x09, 0x00, 0x31] = .error .badLength ∧
      decode [0x58, 0xFC, 0x03, 0x04, 0x00, 0x02, 0x00, 0x41, 0x42, 0x43] = .error .badLength ∧
      decode [0x58, 0x00, 0x00, 0x04, 0x00, 0x02] = .error .badLength :=
  ⟨rfl, rfl, rfl, rfl, rfl, rfl, rfl, rfl⟩

theorem test_encode_setStr :
    encode (.setStr 0x003D 8 [0x53, 0x31, 0x32, 0x33]) =
      [0x58, 0x3D, 0x00, 0x08, 0x00, 0x04, 0x00, 0x53, 0x31, 0x32, 0x33] := rfl

/-! ### The interface of the host -/

/-- A whole `GET.U16` word of 24 bits; a `CRC16.I` row of 8 bits, its count 0; an illegal opcode. -/
theorem test_decodeTableWord :
    decodeTableWord 24 0x003B41 = some (.getU16 0x003B) ∧ decodeTableWord 8 0x11 = some (.crc16I []) ∧
      decodeTableWord 8 0x7F = none := by
  decide +kernel

theorem test_withFetchWord_runs :
    step (State.reset.withFetchWord 8 0x12) = exec .rdCrc State.reset := rfl

theorem test_reset_memories_canonical :
    Memory.wf 1024 State.reset.msg = true ∧ Memory.wf 816 State.reset.sft = true := by decide

theorem test_reset_status_reads_zero : reply zero [0x01] = [0x00, 0x00, 0x00] := by decide +kernel

/-! ### Steps: system commands (section 2.6) -/

theorem test_nop : reply zero [0x00] = [0x00] := by decide +kernel

/-- After one error of each class `STATUS` is 0xF000 (R231). -/
theorem test_rdStatus_after_four_errors :
    reply (after (after (after (after (start (mem 0x052 [51]) []) [0x7F]) [0x00, 0x00]) [0x43, 0xFE, 0x03]) [0x60])
      [0x01] = [0x00, 0x00, 0xF0] := by
  decide +kernel

theorem test_clrErr : (after (after zero [0x7F]) [0x02]).status = Status.zero := by decide +kernel

/-- `RESET` sets `CRCR` back and keeps `MSG`. -/
theorem test_reset_keeps_msg :
    (after (after (start (mem 0x112 [0x7B]) []) [0x11, 0, 0]) [0x03]).msg = mem 0x112 [0x7B] ∧
      reply (after (after zero [0x11, 0x01, 0, 0x41]) [0x03]) [0x12] = [0x00, 0xFF, 0xFF] := by
  decide +kernel

theorem test_reset_bad_length_resets_nothing :
    (after { zero with seen := 5 } [0x03, 0x00]).seen = 5 := by decide +kernel

/-! ### Steps: CRC (section 2.1) -/

theorem test_crc16_check_value :
    crc16 [0x31, 0x32, 0x33, 0x34, 0x35, 0x36, 0x37, 0x38, 0x39] = 0x29B1 := by decide +kernel

theorem test_crc_table_row_16 :
    ([0x80, 0x81, 0x82, 0x87, 0xFF] : List Byte).map (fun b : Byte => crcShift8 ((b.zeroExtend 16 : BitVec 16) <<< 8)) =
      [0x9188, 0x81A9, 0xB1CA, 0xE16F, 0x1EF0] := by
  decide +kernel

theorem test_crc16I :
    reply zero [0x11, 0x09, 0x00, 0x31, 0x32, 0x33, 0x34, 0x35, 0x36, 0x37, 0x38, 0x39] = [0x00, 0xB1, 0x29] := by
  decide +kernel

theorem test_crc16_zeros : reply zero [0x10, 0x00, 0x00, 0x28, 0x00] = [0x00, 0xD9, 0x85] := by decide +kernel

theorem test_crc16_ends_of_msg :
    reply zero [0x10, 0xFF, 0x03, 0x01, 0x00] = [0x00, 0xF0, 0xE1] ∧
      reply zero [0x10, 0xFF, 0x03, 0x02, 0x00] = [0x04] ∧ reply zero [0x10, 0x00, 0x80, 0x01, 0x00] = [0x03] := by
  decide +kernel

theorem test_rdCrc : reply { zero with crcr := 0x29B1 } [0x12] = [0x00, 0xB1, 0x29] := by decide +kernel

/-! ### Steps: blocks (section 2.5, R199) -/

theorem test_blkHdr : (after zero [0x20, 0x05]).msg = mem 0x12B [0x76, 0x11] := by decide +kernel

/-- The STATUS data span of R199. -/
def statusSpan : List Byte :=
  [0x34, 0x12, 0x53, 0x31, 0x32, 0x33, 0, 0, 0, 0, 0, 0xFE, 0xFF] ++ List.replicate 10 0 ++ [0x03] ++
    List.replicate 12 0 ++ [0x00, 0x00, 0xC8, 0x41]

theorem test_blkSetcrc :
    (after (start (mem 0x03B statusSpan) []) [0x21, 0x00]).msg = mem 0x03B (statusSpan ++ [0xC3, 0xD5]) := by
  decide +kernel

theorem test_blkChkcrc :
    reply (start (mem 0x03B (statusSpan ++ [0xC3, 0xD5])) []) [0x22, 0x00] = [0x00, 0x01] ∧
      reply (start (mem 0x03B (statusSpan ++ [0xC3, 0xD4])) []) [0x22, 0x00] = [0x00, 0x00] := by
  decide +kernel

theorem test_blkRead_of_zeros : reply zero [0x24, 0x00] = 0x00 :: 0x00 :: List.replicate 40 0 := by decide +kernel

/-- The data 40 .. 54 of vector B3. -/
def gpsposData : List Byte := (List.range 21).map fun i => BitVec.ofNat 8 (0x40 + i)

theorem test_blkBuild :
    (after zero (0x23 :: 0x04 :: gpsposData)).msg = mem 0x112 (0x7B :: 0x15 :: gpsposData ++ [0x9B, 0x3C]) := by
  decide +kernel

theorem test_blkBuild_index_before_length :
    reply zero [0x23, 0x07, 0x00] = [0x03] ∧ reply zero [0x23, 0x00, 0x00] = [0x02] := by
  decide +kernel

/-- Vector B8: the ID is wrong, length and CRC are right. -/
theorem test_blkRead_validity :
    reply (start (mem 0x113 (0x15 :: gpsposData ++ [0x9B, 0x3C])) []) [0x24, 0x04] = 0x00 :: 0x05 :: gpsposData := by
  decide +kernel

/-! ### Steps: Reed-Solomon (section 2.2) -/

theorem test_gf_examples :
    gfMul 0x11D 0x53 0xCA = 0x8F ∧ gfMul 0x11D 0x02 0x80 = 0x1D ∧ gfInv 0x11D 0x53 = 0x8C ∧
      gfInv 0x11D 0x02 = 0x8E := by
  decide +kernel

/-- The generator of the default parameters (R104). -/
def generator : List Byte :=
  [0x75, 0x90, 0xD9, 0x7F, 0xF7, 0xED, 0x01, 0xCE, 0x2B, 0x3D, 0x48, 0x82, 0x49, 0xE5, 0x96, 0x73, 0x66, 0xD8, 0xED,
   0xB2, 0x46, 0xA9, 0x76, 0x7A, 0x01]

theorem test_generator : rsGenerator cfg0 = generator := by decide +kernel

/-- Vector RS1. -/
theorem test_rsEnc :
    (after (start (mem 0x038 [0x01]) []) [0x30]).msg =
      Memory.writeBytes (mem 0x008 (generator.take 24)) 0x038 [0x01] := by
  decide +kernel

/-- `x^200 mod g` by hand division: its syndromes are those of one error at degree 200, beyond the shortened word. -/
def beyond : List Byte :=
  [0x8F, 0x1A, 0xDE, 0xB9, 0x1D, 0xA4, 0xCC, 0x63, 0x85, 0xCD, 0x67, 0x6B, 0x2A, 0x8A, 0x49, 0xB5, 0xC1, 0xAD, 0xD5,
   0x3C, 0x25, 0x78, 0x9D, 0xB8] ++ List.replicate 132 0

set_option maxRecDepth 100000 in
/-- An error position beyond the shortened word is refused (R110). -/
theorem test_rsDecode_beyond_the_word : rsDecode cfg0 beyond = (false, beyond) := by decide +kernel

/-- `EXP[150 k mod 255]` (R102): the syndromes of one error of value 1 at degree 150. -/
def syndromes150 : List Byte :=
  [0x01, 0x55, 0xC1, 0x64, 0xDF, 0x2C, 0xA9, 0x60, 0x96, 0x0F, 0x24, 0x3B, 0x26, 0x91, 0xB9, 0x59, 0x1A, 0x01,
   0x55, 0xC1, 0x64, 0xDF, 0x2C, 0xA9]

/-- The locator of one error at degree 150 is `1 + alpha^150 x` (R110). -/
theorem test_errorLocator : errorLocator cfg0 syndromes150 = some [0x01, 0x55] := by decide +kernel

set_option maxRecDepth 100000 in
/-- The error is found at degree 150 and removed (as in vector RS4b, on the word of zeros). -/
theorem test_correctWith :
    correctWith cfg0 (List.replicate 150 0 ++ 0x01 :: List.replicate 5 0) syndromes150 [0x01, 0x55] =
      some (List.replicate 156 0) := by
  decide +kernel

/-- Parity ascending in its half, data at every other byte (R106), for stream 1. -/
theorem test_storeCorrected :
    (zero.storeCorrected 1 ((List.range 156).map (BitVec.ofNat 8))).msg =
      Memory.writeCells (mem 0x020 ((List.range 24).map (BitVec.ofNat 8)))
        ((List.range 132).map fun i => (57 + 2 * i, BitVec.ofNat 8 (24 + i))) := by
  decide +kernel

theorem test_rsByte :
    Status.rsByte (Status.zero.setRsRec 1 true) = 0x02 ∧
      Status.rsByte ((Status.zero.setRsRec 1 true).setRsRec 0 true) = 0x07 := by
  decide

/-! ### Steps: whitening (section 2.3) -/

theorem test_rev8 : rev8 0x96 = 0x69 ∧ rev8 0x01 = 0x80 ∧ rev8 0x81 = 0x81 := by decide

theorem test_whiten_starts_the_mask_at_the_address :
    (after zero [0x38, 0x10, 0x00, 0x04, 0x00]).msg = mem 0x010 [0x69, 0xC1, 0x7C, 0x8A] := by
  decide +kernel

/-- Vector W2: the mask is used again from byte 64. -/
theorem test_whiten_wraps :
    (whiten maskGk ((List.range 70).map (BitVec.ofNat 8))).drop 62 =
      [0x4E, 0x7F, 0x6B, 0x43, 0x3E, 0x48, 0xAF, 0x30] := by
  decide +kernel

/-! ### Steps: accessors (section 2.4) -/

/-- `MSG` after `SET.U32 MSG:0x100, 0xA1B2C3D4`. -/
def word : State := start (mem 0x100 [0xD4, 0xC3, 0xB2, 0xA1]) []

theorem test_getU8 : reply word [0x40, 0x01, 0x01] = [0x00, 0xC3, 0, 0, 0] := by decide +kernel
theorem test_getU16 : reply word [0x41, 0x01, 0x01] = [0x00, 0xC3, 0xB2, 0, 0] := by decide +kernel
theorem test_getU24 : reply word [0x42, 0x01, 0x01] = [0x00, 0xC3, 0xB2, 0xA1, 0] := by decide +kernel
theorem test_getU32 : reply word [0x43, 0x00, 0x01] = [0x00, 0xD4, 0xC3, 0xB2, 0xA1] := by decide +kernel
theorem test_getS8 : reply word [0x44, 0x03, 0x01] = [0x00, 0xA1, 0xFF, 0xFF, 0xFF] := by decide +kernel
theorem test_getS16 : reply word [0x45, 0x02, 0x01] = [0x00, 0xB2, 0xA1, 0xFF, 0xFF] := by decide +kernel
theorem test_getS32 : reply word [0x46, 0x00, 0x01] = [0x00, 0xD4, 0xC3, 0xB2, 0xA1] := by decide +kernel
theorem test_getF32 : reply word [0x47, 0x00, 0x01] = [0x00, 0xD4, 0xC3, 0xB2, 0xA1] := by decide +kernel
theorem test_getStr : reply word [0x48, 0xFF, 0x00, 0x03, 0x00] = [0x00, 0x00, 0xD4, 0xC3] := by decide +kernel

theorem test_getU32_does_not_wrap :
    reply zero [0x43, 0xFE, 0x03] = [0x04] ∧ reply zero [0x43, 0xFE, 0xC3] = [0x03] := by decide +kernel

theorem test_get_ends_of_sft :
    reply zero [0x40, 0x2F, 0x43] = [0x00, 0, 0, 0, 0] ∧ reply zero [0x40, 0x30, 0x43] = [0x04] := by decide +kernel

theorem test_setU8 : (after zero [0x50, 0x04, 0x01, 0xFF, 0, 0, 0]).msg = mem 0x104 [0xFF] := by decide +kernel

theorem test_setU8_value_before_range : reply zero [0x50, 0xFF, 0x03, 0x00, 0x01, 0, 0] = [0x03] := by
  decide +kernel

theorem test_setU16 : (after zero [0x51, 0xFE, 0x03, 0xFE, 0xFF, 0, 0]).msg = mem 0x3FE [0xFE, 0xFF] := by
  decide +kernel

theorem test_setU16_errors :
    reply zero [0x51, 0xFF, 0x03, 0x00, 0x00, 0x01, 0x00] = [0x03] ∧
      reply zero [0x51, 0xFF, 0x03, 0x01, 0x00, 0x00, 0x00] = [0x04] := by
  decide +kernel

theorem test_setU24 :
    (after zero [0x52, 0xFD, 0x03, 0xEF, 0xCD, 0xAB, 0x00]).msg = mem 0x3FD [0xEF, 0xCD, 0xAB] ∧
      reply zero [0x52, 0xFD, 0x03, 0x00, 0x00, 0x00, 0x01] = [0x03] := by
  decide +kernel

theorem test_setU32 : (after zero [0x53, 0x00, 0x01, 0xD4, 0xC3, 0xB2, 0xA1]).msg = word.msg := by decide +kernel

theorem test_setS8 :
    (after zero [0x54, 0, 0, 0x80, 0xFF, 0xFF, 0xFF]).msg = mem 0 [0x80] ∧
      reply zero [0x54, 0, 0, 0x7F, 0xFF, 0xFF, 0xFF] = [0x03] := by
  decide +kernel

theorem test_setS16 :
    (after zero [0x55, 0x30, 0, 0x00, 0x80, 0xFF, 0xFF]).msg = mem 0x030 [0x00, 0x80] ∧
      reply zero [0x55, 0x30, 0, 0x00, 0x80, 0, 0] = [0x03] := by
  decide +kernel

theorem test_setS32 : (after zero [0x56, 0x10, 0, 0, 0, 0, 0x80]).msg = mem 0x010 [0, 0, 0, 0x80] := by
  decide +kernel

/-- A NaN pattern is stored bit for bit. -/
theorem test_setF32 : (after zero [0x57, 0x20, 0, 0x01, 0x00, 0xC0, 0x7F]).msg = mem 0x020 [0x01, 0x00, 0xC0, 0x7F] := by
  decide +kernel

theorem test_setStr_pads :
    (after (start (mem 0x03D (List.replicate 9 0xEE)) [])
        [0x58, 0x3D, 0, 0x08, 0, 0x04, 0, 0x53, 0x31, 0x32, 0x33]).msg =
      mem 0x03D [0x53, 0x31, 0x32, 0x33, 0, 0, 0, 0, 0xEE] := by
  decide +kernel

theorem test_setStr_errors :
    reply zero [0x58, 0x40, 0, 0x04, 0, 0x05, 0, 1, 2, 3, 4, 5] = [0x03] ∧
      reply zero [0x58, 0xFD, 0x03, 0x04, 0, 0x02, 0, 0x41, 0x42] = [0x04] := by
  decide +kernel

/-- The window: a hit in slice 3, then a field that straddles slices 3 and 4 (R182). -/
theorem test_window_hit :
    (after (start (mem 0x052 [3]) []) [0x57, 0x3C, 0x80, 0, 0, 0xC8, 0x41]).msg =
      Memory.writeBytes (mem 0x052 [3]) 0x05F [0, 0, 0xC8, 0x41] ∧
    (after (start (mem 0x052 [4]) []) [0x53, 0x3E, 0x80, 0x55, 0x66, 0x77, 0x88]).msg =
      Memory.writeBytes (mem 0x052 [4]) 0x053 [0x77, 0x88] := by
  decide +kernel

theorem test_window_miss :
    (after (start (mem 0x052 [3]) []) [0x53, 0x40, 0x80, 0xEF, 0xBE, 0xAD, 0xDE]).msg = mem 0x052 [3] ∧
      reply (after (start (mem 0x052 [3]) []) [0x57, 0x3C, 0x80, 0, 0, 0xC8, 0x41]) [0x01] = [0x00, 0x00, 0x04] := by
  decide +kernel

/-! ### Steps: subframe table (R205) -/

/-- The frame of R205. -/
def sliceFrame (k : Byte) : State := start (mem 0x052 (k :: List.replicate 12 0 ++ [0x00, 0x00, 0xC8, 0x41])) []

theorem test_sfCapture :
    (after (sliceFrame 3) [0x60]).sft = mem 0x03C [0x00, 0x00, 0xC8, 0x41] ∧ (after (sliceFrame 3) [0x60]).seen = 8 := by
  decide +kernel

theorem test_sfCapture_limit : reply (sliceFrame 50) [0x60] = [0x00] ∧ reply (sliceFrame 51) [0x60] = [0x05] := by
  decide +kernel

theorem test_sfRdSeen :
    reply (after (sliceFrame 50) [0x60]) [0x61] = [0x00, 0, 0, 0, 0, 0, 0, 0x04] ∧
      reply { zero with seen := BitVec.allOnes 51 } [0x61] = [0x00, 0xFF, 0xFF, 0xFF, 0xFF, 0xFF, 0xFF, 0x07] := by
  decide +kernel

/-- `SF_COMPLETE` before and after `SF.CLEAR`, which keeps `SFT`. -/
theorem test_sfClear :
    reply { zero with seen := BitVec.allOnes 51 } [0x01] = [0x00, 0x00, 0x02] ∧
      (after (after (sliceFrame 3) [0x60]) [0x62]).seen = 0 ∧
      (after (after (sliceFrame 3) [0x60]) [0x62]).sft = mem 0x03C [0x00, 0x00, 0xC8, 0x41] := by
  decide +kernel

/-! ### Witnesses: the hypotheses of the statements can be met -/

/-- The ranges at the ends of the two memories. -/
def legalRanges : List (Bank × Nat × Nat) :=
  [(.msg, 0, 1024), (.msg, 1023, 1), (.msg, 1023, 0), (.sft, 0, 816), (.sft, 815, 1), (.sft, 816, 0)]

/-- The first ranges that do not fit, and the longest. -/
def illegalRanges : List (Bank × Nat × Nat) :=
  [(.msg, 0, 1025), (.msg, 1023, 2), (.msg, 1023, 65535), (.sft, 0, 817), (.sft, 816, 1), (.sft, 1023, 0)]

theorem legalRanges_legal :
    ∀ r ∈ legalRanges, r.2.1 < 1024 ∧ r.2.2 < 65536 ∧ r.2.1 + r.2.2 ≤ bankSize r.1 := by decide

theorem illegalRanges_illegal :
    ∀ r ∈ illegalRanges, r.2.1 < 1024 ∧ r.2.2 < 65536 ∧ bankSize r.1 < r.2.1 + r.2.2 := by decide

/-- Each reserved bit at the ends, and the reserved select. -/
theorem badAddr_values : ∀ a ∈ ([0x0400, 0x2000, 0xC000, 0xFFFF] : List (BitVec 16)), badAddr a := by
  simp [badAddr]

/-- The window's first and last address, for a command that reads. -/
theorem badReadAddr_values : ∀ a ∈ ([0x8000, 0x83FF, 0x0400, 0xC000] : List (BitVec 16)), badReadAddr a := by
  simp [badReadAddr, badAddr]

theorem witness_StepRunsTheDecodedCommand :
    ∃ (s : State) (p : Packet) (rest : List Packet) (i : Instr), s.input = p :: rest ∧ decode p = .ok i :=
  ⟨{ zero with input := [[0x22, 0x05], [0x00]] }, [0x22, 0x05], [[0x00]], .blkChkcrc 5, rfl, rfl⟩

theorem witness_StepTakesTheDecodersError :
    (∃ (s : State) (p : Packet) (rest : List Packet), s.input = p :: rest ∧ decode p = .error .illegalOpcode) ∧
      ∃ (s : State) (p : Packet) (rest : List Packet), s.input = p :: rest ∧ decode p = .error .badLength :=
  ⟨⟨{ zero with input := [[0x63]] }, [0x63], [], rfl, rfl⟩, ⟨{ zero with input := [[], [0x00]] }, [], [[0x00]], rfl, rfl⟩⟩

theorem witness_IdleStepHoldsTheState : ∃ s : State, s.input = [] := ⟨zero, rfl⟩

theorem witness_EveryPacketGetsOneResponse : ∃ (s : State) (p : Packet) (rest : List Packet), s.input = p :: rest :=
  ⟨{ zero with input := [[], [0xFF]] }, [], [[0xFF]], rfl⟩

/-- One packet for each of the five error codes. -/
def failing : List (Packet × Byte) :=
  [([0x7F], 0x01), ([], 0x02), ([0x21, 0x06], 0x03), ([0x40, 0x30, 0x43], 0x04), ([0x60], 0x05)]

theorem witness_CommandErrorsChangeOnlyTheirStickyBit :
    ∀ e ∈ failing, ∃ s t : State,
      s.input = [e.1] ∧ step s = .next t ∧ t.output = s.output ++ [e.2 :: []] ∧ e.2 ≠ 0x00#8 := by
  simp only [failing, List.forall_mem_cons]
  refine ⟨?_, ?_, ?_, ?_, ?_, nofun⟩
  · exact ⟨{ zero with input := [[0x7F]] }, _, rfl, rfl, by decide +kernel, by decide⟩
  · exact ⟨{ zero with input := [[]] }, _, rfl, rfl, by decide +kernel, by decide⟩
  · exact ⟨{ zero with input := [[0x21, 0x06]] }, _, rfl, rfl, by decide +kernel, by decide⟩
  · exact ⟨{ zero with input := [[0x40, 0x30, 0x43]] }, _, rfl, rfl, by decide +kernel, by decide⟩
  · exact ⟨{ sliceFrame 51 with input := [[0x60]] }, _, rfl, rfl, by decide +kernel, by decide⟩

theorem witness_StickyBitsStayUntilCleared :
    ∃ s t : State, s.input = [[0x21, 0x06]] ∧ step s = .next t ∧ t.output = s.output ++ [[0x03]] ∧
      decode [0x21, 0x06] ≠ .ok .clrErr ∧ decode [0x21, 0x06] ≠ .ok .reset :=
  ⟨{ zero with input := [[0x21, 0x06]] }, _, rfl, rfl, by decide +kernel, by decide, by decide⟩

/-- `BLK.SETCRC` of block 5 writes no bit of block 4; `SET.U8` writes none of the first four registers. -/
theorem witness_RegistersChangeOnlyByTheirWriters :
    (∃ t, exec (.blkSetcrc 5) zero = .next t) ∧ (∃ t, exec (.setU8 0 0) zero = .next t) ∧
      writesCrcOk 4 (.blkSetcrc 5) = false ∧ isSet (.blkSetcrc 5) = false ∧
      writesCrcr (.setU8 0 0) = false ∧ writesSeen (.setU8 0 0) = false ∧ writesRsRec (.setU8 0 0) = false :=
  ⟨⟨_, rfl⟩, ⟨_, rfl⟩, by decide, rfl, rfl, rfl, rfl⟩

theorem witness_MemoriesChangeOnlyByTheirWriters :
    (∃ t, exec .sfCapture zero = .next t) ∧ (∃ t, exec .rsEnc zero = .next t) ∧
      writesMsg .sfCapture = false ∧ writesSft .rsEnc = false :=
  ⟨⟨_, rfl⟩, ⟨_, rfl⟩, rfl, rfl⟩

theorem witness_FrameCommandsStayInTheirRegion :
    (start (mem 0x140 [0x01]) []).Inv ∧ (∃ t, exec (.blkBuild 5 []) (start (mem 0x140 [0x01]) []) = .next t) ∧
      (∃ t, exec .rsDec (start (mem 0x140 [0x01]) []) = .next t) ∧ isBlock (.blkBuild 5 []) = true :=
  ⟨start_inv _ _ (by decide) (by decide), ⟨_, rfl⟩, ⟨_, rfl⟩, rfl⟩

theorem witness_ParametersNeverChange : ∃ s t : State, step s = .next t :=
  ⟨{ zero with input := [[0x31]] }, _, rfl⟩

theorem witness_StepKeepsTheInvariant : ∃ s t : State, s.Inv ∧ step s = .next t :=
  ⟨{ start (mem 0x3FF [0x01]) (mem 0x32F [0xFF]) with input := [[0x60]] }, _,
    ⟨test_default_parameters_admissible, by decide, by decide⟩, rfl⟩

theorem witness_DecodeOfEncodeIsTheCommand :
    (Instr.crc16I (List.replicate 65535 0)).wellFormed = true ∧ (Instr.setStr 0xFFFF 0xFFFF []).wellFormed = true ∧
      (Instr.setF32 0xFFFF 0xFFFFFFFF).wellFormed = true :=
  ⟨test_crc16I_of_65535_bytes_well_formed, rfl, rfl⟩

theorem witness_DecodedPacketIsTheEncoding :
    decode [0x58, 0xFF, 0xFF, 0xFF, 0xFF, 0x01, 0x00, 0xFF] = .ok (.setStr 0xFFFF 0xFFFF [0xFF]) := rfl

/-- The first and last opcode of each format, with the required length and one byte more. -/
theorem witness_BadLengthExactlyOffTheFormat :
    decode [0x62] = .ok .sfClear ∧ decode [0x62, 0] = .error .badLength ∧
      decode [0x20, 255] = .ok (.blkHdr 255) ∧ decode [0x20] = .error .badLength ∧
      decode [0x47, 0, 0] = .ok (.getF32 0) ∧ decode [0x47, 0, 0, 0] = .error .badLength ∧
      decode [0x38, 0, 0, 0, 0] = .ok (.whiten 0 0) ∧ decode [0x38, 0, 0, 0] = .error .badLength ∧
      decode [0x57, 0, 0, 0, 0, 0, 0] = .ok (.setF32 0 0) ∧ decode [0x57, 0, 0, 0, 0, 0] = .error .badLength ∧
      decode [0x11, 0, 0] = .ok (.crc16I []) ∧ decode [0x11, 0] = .error .badLength ∧
      decode [0x58, 0, 0, 0, 0, 0, 0] = .ok (.setStr 0 0 []) ∧ decode [0x58, 0, 0, 0, 0, 0] = .error .badLength ∧
      decode [0x23, 0] = .ok (.blkBuild 0 []) :=
  ⟨rfl, rfl, rfl, rfl, rfl, rfl, rfl, rfl, rfl, rfl, rfl, rfl, rfl, rfl, rfl⟩

/-- Vector K13. -/
theorem witness_CrcIsAffineInTheData :
    ([0x12, 0x34, 0x56] : List Byte).length = ([0xAB, 0xCD, 0xEF] : List Byte).length := rfl

theorem witness_CrcDetectsEverySingleBitFlip :
    ∃ (s : List Byte) (i k : Nat), i < s.length ∧ k < 8 ∧ i + 1 = s.length ∧ k = 7 :=
  ⟨[0x31, 0x32], 1, 7, by decide, by decide, rfl, rfl⟩

theorem witness_Crc16AnswersTheCrcOfTheRange :
    (∀ r ∈ legalRanges, r.2.1 < 1024 ∧ r.2.2 < 65536 ∧ r.2.1 + r.2.2 ≤ bankSize r.1) ∧
      badReadAddr 0x8000 ∧ ∀ r ∈ illegalRanges, r.2.1 < 1024 ∧ r.2.2 < 65536 ∧ bankSize r.1 < r.2.1 + r.2.2 :=
  ⟨legalRanges_legal, badReadAddr_values _ (by decide), illegalRanges_illegal⟩

theorem witness_GetStrAnswersTheRawBytes :
    (∀ r ∈ legalRanges, r.2.1 < 1024 ∧ r.2.2 < 65536 ∧ r.2.1 + r.2.2 ≤ bankSize r.1) ∧
      badReadAddr 0x83FF ∧ ∀ r ∈ illegalRanges, r.2.1 < 1024 ∧ r.2.2 < 65536 ∧ bankSize r.1 < r.2.1 + r.2.2 :=
  ⟨legalRanges_legal, badReadAddr_values _ (by decide), illegalRanges_illegal⟩

theorem witness_WhitenTransformsTheRangeInPlace :
    (∀ r ∈ legalRanges,
        r.2.1 < 1024 ∧ r.2.2 < 65536 ∧ r.2.1 + r.2.2 ≤ bankSize r.1) ∧
      (∀ b : Bank, Memory.wf (bankSize b) ((start (mem 0 [0x01]) (mem 815 [0x01])).bank b) = true) ∧
      badReadAddr 0xC000 ∧ ∀ r ∈ illegalRanges, r.2.1 < 1024 ∧ r.2.2 < 65536 ∧ bankSize r.1 < r.2.1 + r.2.2 :=
  ⟨legalRanges_legal, fun b => by cases b <;> decide, badReadAddr_values _ (by decide), illegalRanges_illegal⟩

theorem witness_RsEncWritesBothParities : (start (mem 0x038 [0x01]) []).Inv :=
  start_inv _ _ (by decide) (by decide)

theorem witness_ParityCompletesACodeword : cfg0.Admissible ∧ (List.replicate 132 (0x01 : Byte)).length = 132 :=
  ⟨test_default_parameters_admissible, by decide +kernel⟩

theorem witness_NonzeroElementsHaveInverses : cfg0.Admissible ∧ (0x01 : Byte) ≠ 0x00#8 ∧ (0xFF : Byte) ≠ 0x00#8 :=
  ⟨test_default_parameters_admissible, by decide, by decide⟩

/-- The generator, read as a word: 25 nonzero symbols (R104). -/
def generatorWord : List Byte := generator ++ List.replicate 131 0#8

/-- The generator is a codeword of the vectors' code. -/
theorem test_generatorWord_is_a_codeword : isCodeword cfg0 generatorWord = true := by
  rw [generatorWord, isCodeword_append_zeros]
  decide +kernel

/-- The word of zeros and the generator are two codewords, at distance 25 exactly. -/
theorem witness_CodewordsDifferInTwentyFivePlaces :
    cfg0.Admissible ∧ generatorWord.length = 156 ∧ ([] ++ List.replicate 156 0#8 : List Byte).length = 156 ∧
      isCodeword cfg0 generatorWord = true ∧ isCodeword cfg0 ([] ++ List.replicate 156 0#8) = true ∧
      generatorWord ≠ [] ++ List.replicate 156 0#8 ∧ distance generatorWord ([] ++ List.replicate 156 0#8) = 25 :=
  ⟨test_default_parameters_admissible, by decide +kernel, by decide +kernel, test_generatorWord_is_a_codeword,
    by rw [isCodeword_append_zeros]; decide +kernel, by decide +kernel, by decide +kernel⟩

theorem witness_RsDecodeNeverOvercorrects :
    (∃ w : List Byte, w.length = 156 ∧ (rsDecode cfg0 w).1 = true) ∧
      ∃ w : List Byte, w.length = 156 ∧ (rsDecode cfg0 w).1 = false :=
  ⟨⟨generatorWord, by decide +kernel, congrArg Prod.fst (rsDecode_of_isCodeword test_generatorWord_is_a_codeword)⟩,
    ⟨beyond, by decide +kernel, congrArg Prod.fst test_rsDecode_beyond_the_word⟩⟩

theorem witness_RsDecodeIsBoundedDistance : cfg0.Admissible ∧ beyond.length = 156 ∧ generatorWord.length = 156 :=
  ⟨test_default_parameters_admissible, by decide +kernel, by decide +kernel⟩

theorem witness_RsDecCorrectsEachStream : (start (mem 0x008 (generator.take 13)) []).Inv :=
  start_inv _ _ (by decide) (by decide)

theorem witness_RsDecAfterRsEncChangesNothing :
    ∃ s t u : State, s.Inv ∧ exec .rsEnc s = .next t ∧ exec .rsDec t = .next u :=
  ⟨start (mem 0x13F [0x01]) [], _, _, start_inv _ _ (by decide) (by decide), rfl, rfl⟩

/-- The frame of zeros with 12 bytes changed in each stream. -/
def twelveEach : State :=
  start (mem 0x008 (List.replicate 12 0xFF ++ List.replicate 12 0 ++ List.replicate 12 0x01)) []

theorem witness_RsDecRestoresTwelveErrorsPerStream :
    ∃ t v : State, zero.Inv ∧ exec .rsEnc zero = .next t ∧ twelveEach.Inv ∧ twelveEach.cfg = zero.cfg ∧
      (∀ k : Fin 2, distance (codewordOf twelveEach k) (codewordOf t k) = 12) ∧ exec .rsDec twelveEach = .next v :=
  ⟨settle zero (exec .rsEnc zero), _, start_inv _ _ (by decide) (by decide), rfl,
    start_inv _ _ (by decide) (by decide), rfl, by decide +kernel, rfl⟩

theorem witness_WhitenTwiceAddsTheMaskPattern : (63 : Nat) < ([0x00] ++ List.replicate 63 (0x01 : Byte)).length := by
  decide

/-- Each width at the last offset where it fits, each error at its first value. -/
theorem witness_GettersAnswerTheExtendedField :
    (∀ g ∈ getters, (1024 - g.width) + g.width ≤ bankSize .msg ∧ (816 - g.width) + g.width ≤ bankSize .sft) ∧
      (∀ a ∈ ([0x8000, 0x83FF, 0x0400, 0xC000] : List (BitVec 16)), badReadAddr a) ∧
      (∀ g ∈ getters, 817 - g.width < 1024 ∧ bankSize .sft < (817 - g.width) + g.width) ∧
      ∀ g ∈ getters, g.width ≠ 1 → 1025 - g.width < 1024 ∧ bankSize .msg < (1025 - g.width) + g.width :=
  ⟨by decide, badReadAddr_values, by decide, by decide⟩

theorem witness_SettersStoreTheField :
    (∀ b : Bank, Memory.wf (bankSize b) (zero.bank b) = true) ∧
      ∀ g ∈ setters, (1024 - g.width) + g.width ≤ bankSize .msg ∧ (816 - g.width) + g.width ≤ bankSize .sft ∧
        g.fits 0x7F = true :=
  ⟨fun b => by cases b <;> decide, by decide⟩

/-- The first values that do not fit, for the five setters that have some. -/
theorem witness_SettersFailInTheStatedOrder :
    (∀ a ∈ ([0x0400, 0x2000, 0xC000, 0xFFFF] : List (BitVec 16)), badAddr a) ∧
      fitsUnsigned 8 0x100 = false ∧ fitsUnsigned 16 0x10000 = false ∧ fitsUnsigned 24 0x1000000 = false ∧
      fitsSigned 8 0x80 = false ∧ fitsSigned 8 0xFFFFFF7F = false ∧ fitsSigned 16 0x8000 = false ∧
      fitsSigned 16 0xFFFF7FFF = false ∧
      ∀ g ∈ setters, g.fits 0 = true ∧ 817 - g.width < 1024 ∧ bankSize .sft < (817 - g.width) + g.width :=
  ⟨badAddr_values, by decide, by decide, by decide, by decide, by decide, by decide, by decide, by decide⟩

theorem witness_WindowWritesOnlyTheCarriedSlice :
    (sliceFrame 50).Inv ∧
      (∀ g ∈ setters, (816 - g.width) + g.width ≤ 816 ∧ g.fits 0x7F = true) ∧
      800 + 16 ≤ 816 ∧ ([0x43, 0x41, 0x4C] : List Byte).length ≤ 16 ∧ 816 + 0 ≤ 816 ∧ ([] : List Byte).length ≤ 0 :=
  ⟨start_inv _ _ (by decide) (by decide), by decide, by decide, by decide, by decide, by decide⟩

theorem witness_SetStrStoresThePaddedField :
    (∀ b : Bank, Memory.wf (bankSize b) (zero.bank b) = true) ∧
      (∀ r ∈ legalRanges, r.2.1 < 1024 ∧ r.2.1 + r.2.2 ≤ bankSize r.1 ∧ ([] : List Byte).length ≤ r.2.2) ∧
      badAddr 0xC000 ∧ (4 : BitVec 16).toNat < ([1, 2, 3, 4, 5] : List Byte).length ∧
      (∀ r ∈ illegalRanges,
        r.2.1 < 1024 ∧ r.2.2 < 65536 ∧ ([] : List Byte).length ≤ r.2.2 ∧ bankSize r.1 < r.2.1 + r.2.2) ∧
      816 < 801 + 16 :=
  ⟨fun b => by cases b <;> decide, by decide, badAddr_values _ (by decide), by decide, by decide, by decide⟩

/-- The setter of each type at the end of `SFT`, with the value 0 that the getter answers before. -/
theorem witness_GetAfterSetGivesTheValue :
    ∀ r ∈ List.zip setters getters,
      Memory.wf (bankSize .sft) (zero.bank .sft) = true ∧ (816 - r.2.width) + r.2.width ≤ bankSize .sft ∧
        r.1.fits 0 = true ∧ (∃ t, exec (r.1.instr (bankAddr .sft (816 - r.2.width)) 0) zero = .next t) ∧
        exec (r.2.instr (bankAddr .sft (816 - r.2.width))) zero = .next (answered zero (valueBytes 0)) := by
  simp only [setters, getters, List.zip_cons_cons, List.zip_nil_right, List.forall_mem_cons]
  refine ⟨?_, ?_, ?_, ?_, ?_, ?_, ?_, ?_, nofun⟩ <;> exact ⟨by decide, by decide, by decide, ⟨_, rfl⟩, rfl⟩

/-- A field of each type at the end of slice 50, the last of the table. -/
theorem witness_CapturedWindowFieldIsRead :
    (sliceFrame 50).Inv ∧ ∀ r ∈ List.zip setters getters,
      r.1.fits 0x7F = true ∧ (816 - r.2.width) + r.2.width ≤ 816 ∧
        (816 - r.2.width) / 16 = (Memory.read (sliceFrame 50).msg 0x052).toNat ∧
        (816 - r.2.width + r.2.width - 1) / 16 = (Memory.read (sliceFrame 50).msg 0x052).toNat ∧
        ∃ t u, exec (r.1.instr (windowAddr (816 - r.2.width)) 0x7F) (sliceFrame 50) = .next t ∧
          exec .sfCapture t = .next u := by
  refine ⟨start_inv _ _ (by decide) (by decide), ?_⟩
  simp only [setters, getters, List.zip_cons_cons, List.zip_nil_right, List.forall_mem_cons]
  refine ⟨?_, ?_, ?_, ?_, ?_, ?_, ?_, ?_, nofun⟩ <;>
    exact ⟨by decide, by decide, by decide, by decide, _, _, rfl, rfl⟩

theorem witness_BlkHdrWritesTheHeader : (start (mem 0x03B statusSpan) []).Inv :=
  start_inv _ _ (by decide) (by decide)

/-- The state after the command is one of those the second clause speaks of. -/
theorem witness_BlkSetcrcStoresTheCrc :
    ∃ s t u : State, s.Inv ∧ exec (.blkSetcrc (blkByte 0)) s = .next t ∧ u.cfg = s.cfg ∧
      ∀ a, s.cfg.blockOff[0] + 2 ≤ a → a < s.cfg.blockOff[0] + s.cfg.blockLen[0] + 4 →
        Memory.read u.msg a = Memory.read t.msg a :=
  ⟨start (mem 0x03B statusSpan) [], _, settle zero (exec (.blkSetcrc (blkByte 0)) (start (mem 0x03B statusSpan) [])),
    start_inv _ _ (by decide) (by decide), rfl, rfl, fun _ _ _ => rfl⟩

/-- The state after `BLK.SETCRC` of block 5 on zero memories. -/
def emptyChecked : State := settle zero (exec (.blkSetcrc (blkByte 5)) zero)

/-- Bit 7 of the last byte of the CRC field of block 5, flipped. -/
theorem witness_BlockCheckDetectsEverySingleBitFlip :
    ∃ u : State, zero.Inv ∧ exec (.blkSetcrc (blkByte 5)) zero = .next emptyChecked ∧ u.cfg = zero.cfg ∧
      zero.cfg.blockOff[5] + 2 ≤ 0x13F ∧ 0x13F < zero.cfg.blockOff[5] + zero.cfg.blockLen[5] + 4 ∧
      Memory.read u.msg 0x13F = Memory.read emptyChecked.msg 0x13F ^^^ (0x01#8 <<< 7) ∧
      ∀ x, x ≠ 0x13F → Memory.read u.msg x = Memory.read emptyChecked.msg x :=
  have hw : Memory.wf 1024 emptyChecked.msg = true := by decide +kernel
  ⟨{ emptyChecked with
      msg := emptyChecked.msg.write 0x13F (Memory.read emptyChecked.msg 0x13F ^^^ (0x01#8 <<< 7)) },
    start_inv _ _ (by decide) (by decide), rfl, rfl, by decide +kernel, by decide +kernel,
    by rw [Memory.read_write hw, if_pos rfl], fun x hx => by rw [Memory.read_write hw, if_neg hx]⟩

theorem witness_BlkBuildWritesTheWholeBlock :
    zero.Inv ∧ gpsposData.length = zero.cfg.blockLen[4] ∧ (0x00 :: gpsposData).length ≠ zero.cfg.blockLen[4] :=
  ⟨start_inv _ _ (by decide) (by decide), by decide +kernel, by decide +kernel⟩

/-- Vector B9. -/
theorem witness_BuildEqualsHeaderDataAndCrc :
    ∃ t u v w : State, zero.Inv ∧ gpsposData.length = zero.cfg.blockLen[4] ∧
      exec (.blkBuild (blkByte 4) gpsposData) zero = .next t ∧ exec (.blkHdr (blkByte 4)) zero = .next u ∧
      exec (.setStr (bankAddr .msg (zero.cfg.blockOff[4] + 2)) (BitVec.ofNat 16 zero.cfg.blockLen[4]) gpsposData) u =
        .next v ∧
      exec (.blkSetcrc (blkByte 4)) v = .next w :=
  ⟨_, _, _, _, start_inv _ _ (by decide) (by decide), by decide +kernel, rfl, rfl, rfl, rfl⟩

theorem witness_BlockOperandAboveFiveIsRefused : 6 ≤ (6 : Byte).toNat ∧ 6 ≤ (255 : Byte).toNat := by decide

theorem witness_SfCaptureCopiesTheSlice :
    (Memory.read (sliceFrame 50).msg 0x052).toNat ≤ 50 ∧ Memory.wf 816 (sliceFrame 50).sft = true ∧
      50 < (Memory.read (sliceFrame 51).msg 0x052).toNat := by
  decide

theorem witness_CompleteExactlyWhenEverySliceWasCaptured :
    ∃ t : State, (sliceFrame 3).seen = 0#51 ∧ (∀ i ∈ [Instr.sfCapture], i ≠ .sfClear ∧ i ≠ .reset) ∧
      Runs (sliceFrame 3) [.sfCapture] t :=
  ⟨_, rfl, by decide, _, rfl, rfl⟩

end Sys2Proof.Tests
end

namespace Sys2Proof.Machine

/-! ### What a command does to the state

`Effect` says once, command by command, what a successful command leaves; `exec_cases` and `step_cases` say that
nothing else can happen but a command error. Claims about every command are read off these. -/

theorem exceptBind_eq_ok_iff {α β : Type} {x : Except CommandError α} {f : α → Except CommandError β} {b : β} :
    (x >>= f) = .ok b ↔ ∃ a, x = .ok a ∧ f a = .ok b := by
  cases x <;> simp [bind, Except.bind]

/-- `u` is what command `i` makes of the state `s` when it succeeds, before its response. -/
def Effect (i : Instr) (s u : State) : Prop :=
  match i with
  | .nop | .rdStatus | .rdCrc | .sfRdSeen => u = s
  | .getU8 _ | .getU16 _ | .getU24 _ | .getU32 _ | .getS8 _ | .getS16 _ | .getS32 _ | .getF32 _ | .getStr _ _ => u = s
  | .clrErr => u = { s with status := s.status.clearErrors }
  | .reset => u = s.resetRegisters
  | .crc16 _ _ | .crc16I _ => ∃ c, u = { s with crcr := c }
  | .blkHdr blk =>
    ∃ k, decodeBlk blk = .ok k ∧ u = { s with msg := s.msg.writeBytes (s.blockBase k) (s.blockHeader k) }
  | .blkSetcrc blk => ∃ k, decodeBlk blk = .ok k ∧ u = s.storeBlockCrc k (crc16 (s.blockData k))
  | .blkChkcrc blk | .blkRead blk => ∃ k, decodeBlk blk = .ok k ∧ u = s.recordBlockCheck k
  | .blkBuild blk data =>
    ∃ k, decodeBlk blk = .ok k ∧ data.length = s.blockLength k ∧
      u = State.storeBlockCrc
        { s with msg := s.msg.writeBytes (s.blockBase k) (s.blockHeader k ++ data) } k (crc16 data)
  | .rsEnc => u = (s.encodeStream 0).encodeStream 1
  | .rsDec => u = (s.decodeStream 0).decodeStream 1
  | .whiten _ _ => ∃ b off bytes, off + bytes.length ≤ b.size ∧ u = s.writeBank b off bytes
  | .setU8 _ _ | .setU16 _ _ | .setU24 _ _ | .setU32 _ _ | .setS8 _ _ | .setS16 _ _ | .setS32 _ _ | .setF32 _ _
  | .setStr _ _ _ => ∃ sp off bytes, off + bytes.length ≤ sp.size ∧ u = s.writeSpace sp off bytes
  | .sfCapture =>
    s.subframeNumber ≤ lastSubframe ∧
      u = { s with
            sft := s.sft.writeBytes (sliceLen * s.subframeNumber) s.carriedSlice
            seen := markSeen s.subframeNumber s.seen }
  | .sfClear => u = { s with seen := 0#51 }

/-- A command ends in an answer, from a state that has what every success of it has (`P`), or in an error. -/
theorem finish_cases {P : State → Prop} {s : State} {r : Except CommandError (State × Packet)}
    (hok : ∀ u p, r = .ok (u, p) → P u) :
    (∃ u p, P u ∧ finish s r = .next (u.respond p)) ∨ ∃ e, finish s r = .next (s.raise e) := by
  cases r with
  | error e => exact .inr ⟨e, rfl⟩
  | ok v => exact .inl ⟨v.1, v.2, hok v.1 v.2 rfl, rfl⟩

/-- A command that works on a range of a bank (R31, R56): where it succeeds, the range lies in the bank. -/
theorem readRange_eq_ok {addr : BitVec 16} {n : Nat} {v : Bank × Nat → State × Packet} {r : State × Packet}
    (h : (decodeReadAddr addr >>= fun x => checkRange x.1.size x.2 n >>= fun _ => .ok (v x)) = .ok r) :
    ∃ x, decodeReadAddr addr = .ok x ∧ x.2 + n ≤ x.1.size ∧ v x = r := by
  obtain ⟨x, hx, h⟩ := exceptBind_eq_ok_iff.mp h
  obtain ⟨_, hr, hv⟩ := exceptBind_eq_ok_iff.mp h
  exact ⟨x, hx, checkRange_ok_iff.mp hr, Except.ok.inj hv⟩

theorem getField_cases (t : FieldType) (addr : BitVec 16) (s : State) :
    (∃ u p, u = s ∧ getField t addr s = .next (u.respond p)) ∨ ∃ e, getField t addr s = .next (s.raise e) :=
  finish_cases fun u p h => by
    obtain ⟨_, -, -, hu⟩ := readRange_eq_ok h
    exact (Prod.mk.inj hu).1.symm

theorem setField_cases (t : FieldType) (addr : BitVec 16) (val : BitVec 32) (s : State) :
    (∃ u p, (∃ sp off bytes, off + bytes.length ≤ sp.size ∧ u = s.writeSpace sp off bytes) ∧
        setField t addr val s = .next (u.respond p)) ∨
      ∃ e, setField t addr val s = .next (s.raise e) :=
  finish_cases fun u p h => by
    simp only [exceptBind_eq_ok_iff, checkRange_ok_iff, Except.ok.injEq, Prod.mk.injEq] at h
    obtain ⟨⟨sp, off⟩, -, _, -, _, hr, hu, -⟩ := h
    exact ⟨sp, off, _, by rwa [length_leBytes], hu.symm⟩

/-- What executing a command can do: its effect and an answer, or an error taken in the state it began in
(R241, R245). No command faults or is refused. -/
theorem exec_cases (i : Instr) (s : State) :
    (∃ u p, Effect i s u ∧ exec i s = .next (u.respond p)) ∨ ∃ e, exec i s = .next (s.raise e) := by
  cases i with
  | nop | rdStatus | clrErr | reset | rdCrc | rsEnc | rsDec | sfRdSeen | sfClear => exact .inl ⟨_, _, rfl, rfl⟩
  | crc16I data => exact .inl ⟨_, _, ⟨_, rfl⟩, rfl⟩
  | getU8 addr | getU16 addr | getU24 addr | getU32 addr | getS8 addr | getS16 addr | getS32 addr | getF32 addr =>
    exact getField_cases _ addr s
  | setU8 addr val | setU16 addr val | setU24 addr val | setU32 addr val
  | setS8 addr val | setS16 addr val | setS32 addr val | setF32 addr val => exact setField_cases _ addr val s
  | blkHdr blk | blkSetcrc blk | blkChkcrc blk | blkRead blk =>
    refine finish_cases fun u p h => ?_
    obtain ⟨k, hk, hu⟩ := exceptBind_eq_ok_iff.mp h
    exact ⟨k, hk, (Prod.mk.inj (Except.ok.inj hu)).1.symm⟩
  | crc16 addr len =>
    refine finish_cases fun u p h => ?_
    obtain ⟨_, -, -, hu⟩ := readRange_eq_ok h
    exact ⟨_, (Prod.mk.inj hu).1.symm⟩
  | getStr addr len =>
    refine finish_cases fun u p h => ?_
    obtain ⟨_, -, -, hu⟩ := readRange_eq_ok h
    exact (Prod.mk.inj hu).1.symm
  | blkBuild blk data =>
    refine finish_cases fun u p h => ?_
    simp only [exceptBind_eq_ok_iff, checkLength_ok_iff, beq_iff_eq, Except.ok.injEq, Prod.mk.injEq] at h
    obtain ⟨k, hk, _, hlen, hu, -⟩ := h
    exact ⟨k, hk, hlen, hu.symm⟩
  | whiten addr len =>
    refine finish_cases fun u p h => ?_
    obtain ⟨⟨b, off⟩, -, hr, hu⟩ := readRange_eq_ok h
    exact ⟨b, off, _, by simpa [whiten, State.readBytes] using hr, (Prod.mk.inj hu).1.symm⟩
  | setStr addr width data =>
    refine finish_cases fun u p h => ?_
    simp only [exceptBind_eq_ok_iff, checkArgument_ok_iff, checkRange_ok_iff, decide_eq_true_eq, Except.ok.injEq,
      Prod.mk.injEq] at h
    obtain ⟨⟨sp, off⟩, -, _, hfit, _, hr, hu, -⟩ := h
    exact ⟨sp, off, _, by rwa [length_padded hfit], hu.symm⟩
  | sfCapture =>
    refine finish_cases fun u p h => ?_
    by_cases hn : lastSubframe < s.subframeNumber
    · simp [hn] at h
    · simp only [hn, if_false, Except.ok.injEq, Prod.mk.injEq] at h
      exact ⟨Nat.le_of_not_lt hn, h.1.symm⟩

/-- What a step with a packet at the port can do: the effect of the decoded command and an answer, or an error; both in
the state with the packet taken. -/
theorem step_cases {s : State} {p : Packet} {rest : List Packet} (hin : s.input = p :: rest) :
    (∃ i u payload, decode p = .ok i ∧ Effect i { s with input := rest } u ∧
        step s = .next (u.respond payload)) ∨
      ∃ e, step s = .next (State.raise { s with input := rest } e) := by
  have hnext : s.nextPacket = some (p, { s with input := rest }) := by simp [State.nextPacket, hin]
  cases hdec : decode p with
  | error e => exact .inr ⟨e, by simp [step, hnext, hdec, finish_error]⟩
  | ok i =>
    have hstep : step s = exec i { s with input := rest } := by simp [step, hnext, hdec]
    rw [hstep]
    rcases exec_cases i { s with input := rest } with ⟨u, payload, heff, hexec⟩ | herr
    · exact .inl ⟨i, u, payload, rfl, heff, hexec⟩
    · exact .inr herr

/-! ### What every effect leaves alone -/

/-- The four sticky error bits `ERR_OPC`, `ERR_ARG`, `ERR_ADDR`, `ERR_SF` of `STATUS` (R19). -/
def Status.errors (st : Status) : Bool × Bool × Bool × Bool := (st.errOpc, st.errArg, st.errAddr, st.errSf)

@[simp] theorem Status.errors_setSfmHit (hit : Bool) (st : Status) : (st.setSfmHit hit).errors = st.errors := rfl

@[simp] theorem Status.errors_setCrcOk (k : Fin 6) (ok : Bool) (st : Status) : (st.setCrcOk k ok).errors = st.errors :=
  rfl

@[simp] theorem Status.errors_setRsRec (k : Fin 2) (ok : Bool) (st : Status) :
    (st.setRsRec k ok).errors = st.errors := by
  unfold Status.setRsRec; split <;> rfl

@[simp] theorem State.writeSpace_output (s : State) (sp : Space) (off : Nat) (bytes : List Byte) :
    (s.writeSpace sp off bytes).output = s.output := by
  cases sp with
  | bank b => exact State.writeBank_output s b off bytes
  | sfm => rfl

@[simp] theorem State.writeSpace_errors (s : State) (sp : Space) (off : Nat) (bytes : List Byte) :
    (s.writeSpace sp off bytes).status.errors = s.status.errors := by
  cases sp with
  | bank b => exact congrArg Status.errors (State.writeBank_status s b off bytes)
  | sfm => rfl

/-- No command writes the response list but by its own response. -/
theorem Effect.output_eq {i : Instr} {s u : State} (h : Effect i s u) : u.output = s.output := by
  cases i with
  | nop | rdStatus | rdCrc | sfRdSeen | getU8 | getU16 | getU24 | getU32 | getS8 | getS16 | getS32 | getF32 | getStr
  | clrErr | reset | rsEnc | sfClear => obtain rfl := h; rfl
  | rsDec => obtain rfl := h; simp
  | crc16 | crc16I => obtain ⟨c, rfl⟩ := h; rfl
  | blkHdr | blkSetcrc | blkChkcrc | blkRead => obtain ⟨k, -, rfl⟩ := h; rfl
  | blkBuild => obtain ⟨k, -, -, rfl⟩ := h; rfl
  | whiten => obtain ⟨b, off, bytes, -, rfl⟩ := h; simp
  | setU8 | setU16 | setU24 | setU32 | setS8 | setS16 | setS32 | setF32 | setStr =>
    obtain ⟨sp, off, bytes, -, rfl⟩ := h; simp
  | sfCapture => obtain ⟨-, rfl⟩ := h; rfl

/-- No successful command but `CLR.ERR` and `RESET` writes a sticky bit (R19). -/
theorem Effect.errors_eq {i : Instr} {s u : State} (h : Effect i s u) (hclr : i ≠ .clrErr) (hreset : i ≠ .reset) :
    u.status.errors = s.status.errors := by
  cases i with
  | clrErr => exact absurd rfl hclr
  | reset => exact absurd rfl hreset
  | nop | rdStatus | rdCrc | sfRdSeen | getU8 | getU16 | getU24 | getU32 | getS8 | getS16 | getS32 | getF32 | getStr
  | rsEnc | sfClear => obtain rfl := h; rfl
  | rsDec => obtain rfl := h; simp only [State.decodeStream_status, Status.errors_setRsRec]
  | crc16 | crc16I => obtain ⟨c, rfl⟩ := h; rfl
  | blkHdr | blkSetcrc | blkChkcrc | blkRead => obtain ⟨k, -, rfl⟩ := h; rfl
  | blkBuild => obtain ⟨k, -, -, rfl⟩ := h; rfl
  | whiten => obtain ⟨b, off, bytes, -, rfl⟩ := h; rw [State.writeBank_status]
  | setU8 | setU16 | setU24 | setU32 | setS8 | setS16 | setS32 | setF32 | setStr =>
    obtain ⟨sp, off, bytes, -, rfl⟩ := h; exact State.writeSpace_errors s sp off bytes
  | sfCapture => obtain ⟨-, rfl⟩ := h; rfl

/-! ### Error codes and sticky bits -/

/-- Recording an error is `sticky` of its code (R240, R242). -/
theorem Status.setError_eq_sticky (e : CommandError) (st : Status) :
    st.setError e = Claims.sticky (errorCode e) st := by
  cases e <;> simp [Status.setError, errorCode, Claims.sticky]

/-- `OK` is the code of no error class. -/
theorem Status.sticky_ok (st : Status) : Claims.sticky 0x00#8 st = st := by
  simp [Claims.sticky]

/-- Two ways to write the list of responses after a step agree on the response it added (R51). -/
theorem response_inj {out : List Packet} {rc rc' : Byte} {payload payload' : Packet}
    (h : out ++ [rc :: payload] = out ++ [rc' :: payload']) : rc = rc' ∧ payload = payload' := by
  simpa using h

/-- After any step but those of `CLR.ERR` and `RESET` the sticky bits are those the response's code leaves. -/
theorem step_errors_eq_sticky {s t : State} {p : Packet} {rest : List Packet} {rc : Byte} {payload : Packet}
    (hin : s.input = p :: rest) (hstep : step s = .next t) (hout : t.output = s.output ++ [rc :: payload])
    (hclr : decode p ≠ .ok .clrErr) (hreset : decode p ≠ .ok .reset) :
    t.status.errors = (Claims.sticky rc s.status).errors := by
  rcases step_cases hin with ⟨i, u, answer, hdec, heff, h⟩ | ⟨e, h⟩
  · obtain rfl := Host.Outcome.next.inj (h.symm.trans hstep)
    rw [State.respond_output, heff.output_eq] at hout
    obtain ⟨rfl, -⟩ := response_inj hout
    rw [Status.sticky_ok]
    exact heff.errors_eq (fun hi => hclr (hi ▸ hdec)) (fun hi => hreset (hi ▸ hdec))
  · obtain rfl := Host.Outcome.next.inj (h.symm.trans hstep)
    obtain ⟨rfl, -⟩ := response_inj hout
    rw [State.raise_status, Status.setError_eq_sticky]

/-- Settles O10: every step ends in the effect of a command or in an error (`step_cases`); an effect keeps the sticky
bits, an error sets that of its code. -/
theorem stickyBitsStayUntilCleared : Obligations.StickyBitsStayUntilCleared := by
  intro s t p rest rc payload hin hstep hout hclr hreset
  simpa only [Status.errors, Claims.sticky, Prod.mk.injEq] using
    step_errors_eq_sticky hin hstep hout hclr hreset

/-! ### Reset -/

/-- With no slice seen and every stored field 0, `RD.STATUS` reads 0x0000 (R18, R21). -/
theorem State.statusWord_eq_zero {s : State} (hseen : s.seen = 0#51) (hstatus : s.status = Status.zero) :
    s.statusWord = 0x0000#16 := by
  obtain ⟨cfg, msg, sft, seen, crcr, status, input, output⟩ := s
  obtain rfl : seen = 0#51 := hseen
  obtain rfl : status = Status.zero := hstatus
  dsimp only [State.statusWord]
  decide

/-- Settles O4: power-on and `RESET` both leave `SEEN` 0 and every stored field of `STATUS` 0, so that the two computed
bits read 0 as well. -/
theorem resetSetsTheRegistersAndKeepsMemory : Obligations.ResetSetsTheRegistersAndKeepsMemory := by
  refine ⟨fun cfg m f => ⟨rfl, rfl, State.statusWord_eq_zero rfl rfl, rfl, rfl⟩, rfl, fun b rest => rfl, fun s => ?_⟩
  have hexec : exec .reset s = .next (s.resetRegisters.respond []) := rfl
  exact ⟨_, hexec, rfl, State.statusWord_eq_zero rfl rfl⟩

end Sys2Proof.Machine

namespace Sys2Proof

/-! ### The length check of the decoder

One lemma per packet format says which operand bytes the format refuses; `decode_eq_badLength_iff` reads them together
as the rule of R53, that the packet's length is not the required one. -/

theorem formatN_eq_badLength_iff {i : Instr} {rest : Packet} :
    formatN i rest = .error .badLength ↔ rest.length ≠ 0 := by
  cases rest <;> simp [formatN]

theorem formatB_eq_badLength_iff {i : Byte → Instr} {rest : Packet} :
    formatB i rest = .error .badLength ↔ rest.length ≠ 1 := by
  match rest with
  | [] | [_] | _ :: _ :: _ => simp [formatB]

theorem formatA_eq_badLength_iff {i : BitVec 16 → Instr} {rest : Packet} :
    formatA i rest = .error .badLength ↔ rest.length ≠ 2 := by
  match rest with
  | [] | [_] | [_, _] | _ :: _ :: _ :: _ => simp [formatA]

theorem formatR_eq_badLength_iff {i : BitVec 16 → BitVec 16 → Instr} {rest : Packet} :
    formatR i rest = .error .badLength ↔ rest.length ≠ 4 := by
  match rest with
  | [] | [_] | [_, _] | [_, _, _] | [_, _, _, _] | _ :: _ :: _ :: _ :: _ :: _ => simp [formatR]

theorem formatV_eq_badLength_iff {i : BitVec 16 → BitVec 32 → Instr} {rest : Packet} :
    formatV i rest = .error .badLength ↔ rest.length ≠ 6 := by
  match rest with
  | [] | [_] | [_, _] | [_, _, _] | [_, _, _, _] | [_, _, _, _, _] | [_, _, _, _, _, _]
  | _ :: _ :: _ :: _ :: _ :: _ :: _ :: _ => simp [formatV]

/-- The count `n` stands in operand bytes 0 and 1 (R52); a packet that ends before them is too short for any `n`. -/
theorem formatI_eq_badLength_iff {i : List Byte → Instr} {rest : Packet} :
    formatI i rest = .error .badLength ↔
      rest.length ≠ 2 + ((rest.getD 0 0#8).toNat + 256 * (rest.getD 1 0#8).toNat) := by
  match rest with
  | [] => simp [formatI]
  | [_] => simp only [formatI, List.length_singleton, ne_eq, true_iff]; omega
  | n0 :: n1 :: data =>
    simp only [formatI, toNat_u16, ite_eq_right_iff, reduceCtorEq, imp_false, List.length_cons, List.getD_cons_zero,
      List.getD_cons_succ]
    omega

/-- The count `n` stands in operand bytes 4 and 5 (R52); a packet that ends before them is too short for any `n`. -/
theorem formatS_eq_badLength_iff {i : BitVec 16 → BitVec 16 → List Byte → Instr} {rest : Packet} :
    formatS i rest = .error .badLength ↔
      rest.length ≠ 6 + ((rest.getD 4 0#8).toNat + 256 * (rest.getD 5 0#8).toNat) := by
  match rest with
  | [] | [_] | [_, _] | [_, _, _] | [_, _, _, _] => simp [formatS]
  | [_, _, _, _, _] => simp only [formatS, List.length_cons, List.length_nil, ne_eq, true_iff]; omega
  | _ :: _ :: _ :: _ :: n0 :: n1 :: data =>
    simp only [formatS, toNat_u16, ite_eq_right_iff, reduceCtorEq, imp_false, List.length_cons, List.getD_cons_zero,
      List.getD_cons_succ]
    omega

theorem formatD_eq_badLength_iff {i : Byte → List Byte → Instr} {rest : Packet} :
    formatD i rest = .error .badLength ↔ rest.length = 0 := by
  cases rest <;> simp [formatD]

/-- The decoder's third check (R61) is the rule of R53 for every format but D, whose length `BLK.BUILD` checks when it
executes (R195; log 10): so the block lengths do not matter here. -/
theorem decode_eq_badLength_iff {opc : Byte} {rest : Packet} {f : Format} (blockLen : Vector Nat 6)
    (hf : formatOf opc.toNat = some f) (hd : f ≠ .d) :
    decode (opc :: rest) = .error .badLength ↔
      (opc :: rest).length ≠ requiredLength blockLen (fun k => ((opc :: rest).getD k 0#8).toNat) f := by
  simp only [decode]
  split
  -- BLK.BUILD, the one opcode of format D
  case h_11 hopc =>
    rw [hopc] at hf
    exact absurd (Option.some.inj hf).symm hd
  -- no opcode of the table
  case h_37 => simp_all [formatOf]
  all_goals
    next hopc =>
    rw [hopc] at hf
    cases hf
    simp only [formatN_eq_badLength_iff, formatB_eq_badLength_iff, formatA_eq_badLength_iff, formatR_eq_badLength_iff,
      formatV_eq_badLength_iff, formatI_eq_badLength_iff, formatS_eq_badLength_iff, requiredLength, List.length_cons,
      List.getD_cons_succ]
    omega

theorem decode_blkBuild_eq_badLength_iff {opc : Byte} {rest : Packet} (h : opc.toNat = 0x23) :
    decode (opc :: rest) = .error .badLength ↔ rest.length = 0 := by
  simp only [decode, h, formatD_eq_badLength_iff]

/-- `decode_eq_badLength_iff` for a list of opcodes of one format. -/
theorem decode_eq_badLength_iff_of_mem {opc : Byte} {rest : Packet} {f : Format} {opcs : List Nat}
    (hopcs : ∀ n ∈ opcs, formatOf n = some f ∧ f ≠ .d) (h : opc.toNat ∈ opcs) :
    decode (opc :: rest) = .error .badLength ↔
      (opc :: rest).length ≠
        requiredLength Config.atReset.blockLen (fun k => ((opc :: rest).getD k 0#8).toNat) f :=
  decode_eq_badLength_iff _ (hopcs _ h).1 (hopcs _ h).2

/-- Settles O21: the required lengths of `decode_eq_badLength_iff`, less the opcode byte. -/
theorem badLengthExactlyOffTheFormat : Obligations.BadLengthExactlyOffTheFormat := by
  refine ⟨rfl, fun opc rest => ⟨fun h => ?_, fun h => ?_, fun h => ?_, fun h => ?_, fun h => ?_, fun h => ?_,
    fun h => ?_, decode_blkBuild_eq_badLength_iff⟩⟩
  · rw [decode_eq_badLength_iff_of_mem (f := .n) (by decide) h, requiredLength, List.length_cons]; omega
  · rw [decode_eq_badLength_iff_of_mem (f := .b) (by decide) h, requiredLength, List.length_cons]; omega
  · rw [decode_eq_badLength_iff_of_mem (f := .a) (by decide) h, requiredLength, List.length_cons]; omega
  · rw [decode_eq_badLength_iff_of_mem (f := .r) (by decide) h, requiredLength, List.length_cons]; omega
  · rw [decode_eq_badLength_iff_of_mem (f := .v) (by decide) h, requiredLength, List.length_cons]; omega
  · rw [decode_eq_badLength_iff_of_mem (f := .i) (by decide) (List.mem_singleton.mpr h)]
    simp only [requiredLength, List.length_cons, List.getD_cons_succ]
    omega
  · rw [decode_eq_badLength_iff_of_mem (f := .s) (by decide) (List.mem_singleton.mpr h)]
    simp only [requiredLength, List.length_cons, List.getD_cons_succ]
    omega

/-- Settles O19, by running the decoder and the encoder on each of the ten pairs. -/
theorem workedEncodingsDecode : Obligations.WorkedEncodingsDecode := by
  simp only [Obligations.WorkedEncodingsDecode, List.forall_mem_cons]
  exact ⟨⟨rfl, rfl⟩, ⟨rfl, rfl⟩, ⟨rfl, rfl⟩, ⟨rfl, rfl⟩, ⟨rfl, rfl⟩, ⟨rfl, rfl⟩, ⟨rfl, rfl⟩, ⟨rfl, rfl⟩, ⟨rfl, rfl⟩,
    ⟨rfl, rfl⟩, List.forall_mem_nil _⟩

end Sys2Proof

namespace Sys2Proof.Machine

/-! ### The block operand -/

/-- Taking an error leaves the state the statements call `failed` (R241). -/
theorem State.raise_eq_failed (s : State) (e : CommandError) : s.raise e = Claims.failed s (errorCode e) := by
  simp only [State.raise, Claims.failed, Status.setError_eq_sticky]

/-- Whatever a command does with its block operand, one above 5 ends it first (R58, R61). -/
theorem finish_of_blk_above_five {blk : Byte} (h : 6 ≤ blk.toNat) (s : State)
    (f : Fin 6 → Except CommandError (State × Packet)) :
    finish s (decodeBlk blk >>= f) = .next (Claims.failed s 0x03#8) := by
  have hblk : decodeBlk blk = .error .badArgument := decodeBlk_error_iff.mpr ⟨h, rfl⟩
  calc finish s (decodeBlk blk >>= f)
      = .next (s.raise .badArgument) := by rw [hblk]; rfl
    _ = .next (Claims.failed s 0x03#8) := by rw [State.raise_eq_failed]; rfl

/-- Settles O56: all five block commands decode the block operand before anything else. -/
theorem blockOperandAboveFiveIsRefused : Obligations.BlockOperandAboveFiveIsRefused := by
  intro s blk data h
  have refused := finish_of_blk_above_five h s
  exact ⟨refused _, refused _, refused _, refused _, refused _⟩

end Sys2Proof.Machine

namespace Sys2Proof

/-! ### The bytes of a 16-bit value

The statements write the bytes of a word with `Claims.byteOf`, the model with `leBytes` and `u16`. -/

theorem toNat_byteOf {w : Nat} (v : BitVec w) (i : Nat) : (Claims.byteOf v i).toNat = v.toNat / 256 ^ i % 256 := by
  rw [Claims.byteOf, BitVec.extractLsb'_toNat, Nat.shiftRight_eq_div_pow, Nat.pow_mul]

/-- `le(2, v)` is the low byte and then the high byte (R6). -/
theorem leBytes_two_eq_byteOf (v : BitVec 16) : leBytes 2 v.toNat = [Claims.byteOf v 0, Claims.byteOf v 1] := by
  have low : BitVec.ofNat 8 v.toNat = Claims.byteOf v 0 := by
    apply BitVec.eq_of_toNat_eq
    simp [toNat_byteOf]
  have high : BitVec.ofNat 8 (v.toNat / 256) = Claims.byteOf v 1 := by
    apply BitVec.eq_of_toNat_eq
    simp [toNat_byteOf]
  simp only [leBytes, low, high]

/-- A `u16` operand is read back from its two bytes (R55). -/
theorem u16_byteOf (v : BitVec 16) : u16 (Claims.byteOf v 0) (Claims.byteOf v 1) = v := by
  apply BitVec.eq_of_toNat_eq
  have := v.isLt
  simp only [toNat_u16, toNat_byteOf]
  omega

end Sys2Proof

namespace Sys2Proof.Machine

/-! ### The CRC register as a linear map

The shift steps are linear over GF(2) and injective; every law of R83 settled here follows from these two facts. -/

/-- The polynomial is added for neither, for one or for both of the registers; for both it cancels. -/
theorem crcShift_xor (c d : BitVec 16) : crcShift (c ^^^ d) = crcShift c ^^^ crcShift d := by
  have swap (x y p : BitVec 16) : x ^^^ y ^^^ p = x ^^^ p ^^^ y := by ac_rfl
  have cancel (x y p : BitVec 16) : x ^^^ y = x ^^^ p ^^^ (y ^^^ p) := by
    rw [← BitVec.xor_assoc, swap x p y, BitVec.xor_assoc _ p p, BitVec.xor_self, BitVec.xor_zero]
  unfold crcShift
  rw [BitVec.msb_xor, BitVec.shiftLeft_xor_distrib]
  cases c.msb <;> cases d.msb
  case false.false => rfl
  case true.false => exact swap _ _ crcPoly
  case false.true => exact BitVec.xor_assoc _ _ crcPoly
  case true.true => exact cancel _ _ crcPoly

theorem crcShift8_xor (c d : BitVec 16) : crcShift8 (c ^^^ d) = crcShift8 c ^^^ crcShift8 d := by
  simp only [crcShift8, crcShift_xor]

/-- The polynomial is odd, so a step that adds it leaves bit 0 set: no nonzero register is shifted to 0. -/
theorem eq_zero_of_crcShift_eq_zero {c : BitVec 16} (h : crcShift c = 0#16) : c = 0#16 := by
  unfold crcShift at h
  split at h
  next =>
    have hbit := congrArg (·.getLsbD 0) h
    simp [crcPoly] at hbit
  next hmsb =>
    have hlt : c.toNat < 2 ^ 15 := by simpa [BitVec.msb_eq_decide] using hmsb
    bv_omega

theorem crcShift_injective : Function.Injective crcShift := by
  intro c d h
  apply BitVec.xor_eq_zero_iff.mp
  apply eq_zero_of_crcShift_eq_zero
  rw [crcShift_xor, h, BitVec.xor_self]

theorem crcShift8_injective : Function.Injective crcShift8 := by
  intro c d h
  simpa only [crcShift8, crcShift_injective.eq_iff] using h

/-! ### One byte -/

/-- The difference of two registers after one byte each is the register of the differences. -/
theorem crcByte_xor (c d : BitVec 16) (a b : Byte) : crcByte (c ^^^ d) (a ^^^ b) = crcByte c a ^^^ crcByte d b := by
  have regroup : c ^^^ d ^^^ (a ^^^ b).zeroExtend 16 <<< 8 =
      (c ^^^ a.zeroExtend 16 <<< 8) ^^^ (d ^^^ b.zeroExtend 16 <<< 8) := by
    rw [BitVec.zeroExtend, BitVec.setWidth_xor, BitVec.shiftLeft_xor_distrib]
    ac_rfl
  rw [crcByte, regroup, crcShift8_xor, crcByte, crcByte]

theorem crcByte_left_injective (b : Byte) : Function.Injective fun c => crcByte c b := fun _ _ h =>
  (BitVec.xor_left_inj _).mp (crcShift8_injective h)

theorem crcByte_right_injective (c : BitVec 16) : Function.Injective (crcByte c) := by
  intro a b h
  have hshift : a.zeroExtend 16 <<< 8 = b.zeroExtend 16 <<< 8 := (BitVec.xor_right_inj c).mp (crcShift8_injective h)
  bv_omega

/-- A shift step only shifts a byte that stands from bit `k` on, with `k < 8`: bit 15 is still 0. -/
theorem crcShift_shiftLeft_byte (x : Byte) {k : Nat} (hk : k < 8) :
    crcShift (x.zeroExtend 16 <<< k) = x.zeroExtend 16 <<< (k + 1) := by
  have hmsb : (x.zeroExtend 16 <<< k).msb = false := by
    have hclear : x.getLsbD (15 - k) = false := BitVec.getLsbD_of_ge x (15 - k) (by omega)
    simp [BitVec.msb_eq_getLsbD_last, hclear]
  rw [crcShift, hmsb, BitVec.shiftLeft_add]
  rfl

/-- The low byte of the register is only shifted up by the 8 steps (R81). -/
theorem crcShift8_low (x : Byte) : crcShift8 (x.zeroExtend 16) = x.zeroExtend 16 <<< 8 := by
  calc crcShift8 (x.zeroExtend 16)
      = crcShift8 (x.zeroExtend 16 <<< 0) := by rw [BitVec.shiftLeft_zero]
    _ = x.zeroExtend 16 <<< 8 := by
      simp only [crcShift8, crcShift_shiftLeft_byte, Nat.reduceAdd, Nat.reduceLT]

/-- A register is its low byte and its high byte in their places. -/
theorem eq_low_xor_high (c : BitVec 16) :
    c = (c.truncate 8).zeroExtend 16 ^^^ ((c >>> 8).truncate 8).zeroExtend 16 <<< 8 := by
  ext i hi
  rw [← BitVec.getLsbD_eq_getElem]
  by_cases h : i < 8
  · simp [h]
  · have hsum : 8 + (i - 8) = i := by omega
    have hlt : i - 8 < 8 := by omega
    simp [h, hsum, hlt]

/-- Moving the register up by a byte drops its high byte. -/
theorem shiftLeft_low (c : BitVec 16) : (c.truncate 8).zeroExtend 16 <<< 8 = c <<< 8 := by
  bv_omega

/-- One byte in the table-driven form of R81, the table entry computed as in R82: of the register, the high byte and
the incoming byte select the entry, and the low byte only moves up. -/
theorem crcByte_eq_tableForm (c : BitVec 16) (b : Byte) :
    crcByte c b = (c <<< 8) ^^^ crcShift8 (((c >>> 8).truncate 8 ^^^ b).zeroExtend 16 <<< 8) := by
  have split : c ^^^ b.zeroExtend 16 <<< 8 =
      (c.truncate 8).zeroExtend 16 ^^^ ((c >>> 8).truncate 8 ^^^ b).zeroExtend 16 <<< 8 := by
    conv_lhs => rw [eq_low_xor_high c]
    simp only [BitVec.truncate_eq_setWidth, BitVec.setWidth_xor, BitVec.shiftLeft_xor_distrib, BitVec.xor_assoc]
  rw [crcByte, split, crcShift8_xor, crcShift8_low, shiftLeft_low]

/-! ### Sequences -/

/-- The difference of two registers after sequences of equal length is the register of the differences. -/
theorem crcFrom_xor (c d : BitVec 16) {a b : List Byte} (h : a.length = b.length) :
    crcFrom (c ^^^ d) (List.zipWith (· ^^^ ·) a b) = crcFrom c a ^^^ crcFrom d b := by
  induction a generalizing b c d with
  | nil => cases b with
    | nil => rfl
    | cons y b => simp at h
  | cons x a ih => cases b with
    | nil => simp at h
    | cons y b =>
      have htail : a.length = b.length := Nat.succ.inj h
      calc crcFrom (c ^^^ d) (List.zipWith (· ^^^ ·) (x :: a) (y :: b))
          = crcFrom (crcByte (c ^^^ d) (x ^^^ y)) (List.zipWith (· ^^^ ·) a b) := rfl
        _ = crcFrom (crcByte c x) a ^^^ crcFrom (crcByte d y) b := by rw [crcByte_xor, ih _ _ htail]

/-- Registers that differ still differ after any sequence. -/
theorem crcFrom_left_injective (s : List Byte) : Function.Injective fun c => crcFrom c s := by
  induction s with
  | nil => exact fun _ _ h => h
  | cons b s ih => exact fun _ _ h => crcByte_left_injective b (ih h)

/-- A sequence's CRC with one byte replaced tells the byte: the general form of law (f) of R83 for one byte. -/
theorem crc16_replace_byte_injective (pre post : List Byte) :
    Function.Injective fun b : Byte => crc16 (pre ++ b :: post) := by
  intro a b h
  simp only [crc16_append] at h
  exact crcByte_right_injective (crc16 pre) (crcFrom_left_injective post h)

/-- Feeding the register its own high byte leaves its low byte, moved up. -/
theorem crcByte_high (c : BitVec 16) : crcByte c (Claims.byteOf c 1) = c <<< 8 := by
  have hhigh : (c >>> 8).truncate 8 = Claims.byteOf c 1 := rfl
  rw [crcByte_eq_tableForm, hhigh, BitVec.xor_self]
  exact BitVec.xor_zero

/-- Feeding the register its own two bytes, high byte first, leaves 0. -/
theorem crcFrom_own_bytes (c : BitVec 16) : crcFrom c [Claims.byteOf c 1, Claims.byteOf c 0] = 0#16 := by
  have hlow : Claims.byteOf c 0 = Claims.byteOf (c <<< 8) 1 := by
    apply BitVec.eq_of_toNat_eq
    simp only [toNat_byteOf]
    bv_omega
  calc crcFrom c [Claims.byteOf c 1, Claims.byteOf c 0]
      = crcByte (crcByte c (Claims.byteOf c 1)) (Claims.byteOf c 0) := rfl
    _ = crcByte (c <<< 8) (Claims.byteOf (c <<< 8) 1) := by rw [crcByte_high, hlow]
    _ = c <<< 8 <<< 8 := crcByte_high (c <<< 8)
    _ = 0#16 := by rw [← BitVec.shiftLeft_add]; exact BitVec.shiftLeft_eq_zero (by decide)

/-- Settles O22: each byte by `crcByte_eq_tableForm`. -/
theorem crcTableFormAgrees : Obligations.CrcTableFormAgrees := by
  intro s
  simp only [crc16, crcFrom, crcInit, funext₂ crcByte_eq_tableForm]

/-- Settles O23: after `s` the register holds the CRC, and its own two bytes take it to 0. -/
theorem crcResidueIsZero : Obligations.CrcResidueIsZero := by
  intro s
  rw [crc16_append, crcFrom_own_bytes]

/-- Settles O24: the two initial values cancel. -/
theorem crcIsAffineInTheData : Obligations.CrcIsAffineInTheData := by
  intro a b h
  rw [← BitVec.xor_self (x := crcInit), crcFrom_xor crcInit crcInit h, crc16, crc16]

/-- Settles O25: flipping a bit replaces one byte by a different one, and the CRC tells the two apart. -/
theorem crcDetectsEverySingleBitFlip : Obligations.CrcDetectsEverySingleBitFlip := by
  intro s i k hi hk heq
  have hs : s = s.take i ++ s[i] :: s.drop (i + 1) := by simp
  have hbyte : s[i] ^^^ 0x01#8 <<< k = s[i] := by
    apply crc16_replace_byte_injective (s.take i) (s.drop (i + 1))
    simpa only [List.modify_eq_take_cons_drop hi, ← hs] using heq
  have hmask : 0x01#8 <<< k = 0#8 := by simpa using congrArg (s[i] ^^^ ·) hbyte
  have hbit : (0x01#8 <<< k).getLsbD k = true := by simp [hk]
  simp [hmask] at hbit

/-! ### Answers and ranges in the words of the statements -/

/-- An answer of a 16-bit value, low byte first (R6, R51). -/
theorem State.respond_leBytes_two (s : State) (v : BitVec 16) :
    s.respond (leBytes 2 v.toNat) = Claims.answered s [Claims.byteOf v 0, Claims.byteOf v 1] := by
  rw [leBytes_two_eq_byteOf]; rfl

theorem State.readBytes_eq_span (s : State) (b : Bank) (off n : Nat) :
    s.readBytes b off n = Claims.span (s.bank b) off n :=
  Memory.readBytes_eq_map (s.bank b) off n

theorem Bank.size_eq_bankSize (b : Bank) : b.size = Claims.bankSize b := by cases b <;> rfl

/-- The operand `MSG:off` or `SFT:off` is decoded to the bank and the offset (R56). -/
theorem decodeReadAddr_bankAddr (b : Bank) {off : Nat} (h : off < 1024) :
    decodeReadAddr (Claims.bankAddr b off) = .ok (b, off) := by
  rw [decodeReadAddr_ok_iff, decodeAddr_ok_iff]
  cases b with
  | msg =>
    have haddr : (Claims.bankAddr .msg off).toNat = off := by simp [Claims.bankAddr]; omega
    rw [haddr]
    exact ⟨by omega, by omega, .inl ⟨by omega, rfl⟩⟩
  | sft =>
    have haddr : (Claims.bankAddr .sft off).toNat = 0x4000 + off := by simp [Claims.bankAddr]; omega
    rw [haddr]
    exact ⟨by omega, by omega, .inr (.inl ⟨by omega, rfl⟩)⟩

/-- Every address a reading command must refuse is refused (R56). -/
theorem decodeReadAddr_of_badReadAddr {addr : BitVec 16} (h : Claims.badReadAddr addr) :
    decodeReadAddr addr = .error .badArgument := by
  cases hdec : decodeReadAddr addr with
  | error e => rw [decodeReadAddr_error hdec]
  | ok r =>
    obtain ⟨b, off⟩ := r
    obtain ⟨hreserved, -, hsel⟩ := decodeAddr_ok_iff.mp (decodeReadAddr_ok_iff.mp hdec)
    simp only [reduceCtorEq, and_false, or_false] at hsel
    unfold Claims.badReadAddr Claims.badAddr at h
    omega

/-! ### Commands that read a range of a bank

`CRC16`, `WHITEN` and `GET.STR` begin alike: the address operand, then the range check. These are the three ways that
beginning can end. -/

/-- A refused address ends the command first, whatever it does next (R56, R61). -/
theorem finish_of_badReadAddr {addr : BitVec 16} (h : Claims.badReadAddr addr) (s : State)
    (f : Bank × Nat → Except CommandError (State × Packet)) :
    finish s (decodeReadAddr addr >>= f) = .next (Claims.failed s 0x03#8) := by
  calc finish s (decodeReadAddr addr >>= f)
      = .next (s.raise .badArgument) := by rw [decodeReadAddr_of_badReadAddr h]; rfl
    _ = .next (Claims.failed s 0x03#8) := by rw [State.raise_eq_failed]; rfl

/-- A range that does not fit its bank ends the command (R31, R61). -/
theorem finish_of_range_beyond {b : Bank} {off n : Nat} (hoff : off < 1024) (h : Claims.bankSize b < off + n)
    (s : State) (f : Bank × Nat → Except CommandError (State × Packet)) :
    finish s (decodeReadAddr (Claims.bankAddr b off) >>= fun x => checkRange x.1.size x.2 n >>= fun _ => f x) =
      .next (Claims.failed s 0x04#8) := by
  have hrange : checkRange b.size off n = .error .addressRange :=
    checkRange_error_iff.mpr ⟨by rwa [Bank.size_eq_bankSize], rfl⟩
  calc finish s (decodeReadAddr (Claims.bankAddr b off) >>= fun x => checkRange x.1.size x.2 n >>= fun _ => f x)
      = finish s (checkRange b.size off n >>= fun _ => f (b, off)) := by rw [decodeReadAddr_bankAddr b hoff]; rfl
    _ = .next (s.raise .addressRange) := by rw [hrange]; rfl
    _ = .next (Claims.failed s 0x04#8) := by rw [State.raise_eq_failed]; rfl

/-- A range that fits passes both checks (R31, R56). -/
theorem finish_of_range_within {b : Bank} {off n : Nat} (hoff : off < 1024) (h : off + n ≤ Claims.bankSize b)
    (s : State) (f : Bank × Nat → Except CommandError (State × Packet)) :
    finish s (decodeReadAddr (Claims.bankAddr b off) >>= fun x => checkRange x.1.size x.2 n >>= fun _ => f x) =
      finish s (f (b, off)) := by
  have hrange : checkRange b.size off n = .ok () := checkRange_ok_iff.mpr (by rwa [Bank.size_eq_bankSize])
  calc finish s (decodeReadAddr (Claims.bankAddr b off) >>= fun x => checkRange x.1.size x.2 n >>= fun _ => f x)
      = finish s (checkRange b.size off n >>= fun _ => f (b, off)) := by rw [decodeReadAddr_bankAddr b hoff]; rfl
    _ = finish s (f (b, off)) := by rw [hrange]; rfl

/-! ### The commands `CRC16`, `CRC16.I` and `RD.CRC` -/

/-- What `CRC16` and `CRC16.I` leave and answer once they have the CRC `c`. -/
def crcResult (s : State) (c : BitVec 16) : State × Packet := ({ s with crcr := c }, leBytes 2 c.toNat)

/-- The end of `CRC16` and of `CRC16.I`: `CRCR` and the answer, low byte first (R84, R85). -/
theorem finish_crcResult (s : State) (c : BitVec 16) :
    finish s (.ok (crcResult s c)) =
      .next (Claims.answered { s with crcr := c } [Claims.byteOf c 0, Claims.byteOf c 1]) := by
  rw [crcResult, finish_ok, State.respond_leBytes_two]

/-- `CRC16` in the shape of the commands that read a range. -/
theorem exec_crc16 (addr len : BitVec 16) (s : State) :
    exec (.crc16 addr len) s =
      finish s (decodeReadAddr addr >>= fun x => checkRange x.1.size x.2 len.toNat >>= fun _ =>
        .ok (crcResult s (crc16 (s.readBytes x.1 x.2 len.toNat)))) :=
  rfl

theorem exec_crc16I (data : List Byte) (s : State) :
    exec (.crc16I data) s = finish s (.ok (crcResult s (crc16 data))) :=
  rfl

/-- The packet of `CRC16` (R84). -/
theorem decode_crc16 (addr len : BitVec 16) :
    decode [0x10#8, Claims.byteOf addr 0, Claims.byteOf addr 1, Claims.byteOf len 0, Claims.byteOf len 1] =
      .ok (.crc16 addr len) := by
  have hformat (a0 a1 l0 l1 : Byte) : decode [0x10#8, a0, a1, l0, l1] = .ok (.crc16 (u16 a0 a1) (u16 l0 l1)) := rfl
  rw [hformat, u16_byteOf, u16_byteOf]

/-- Settles O26: the packet, then the three ends of the command: answer, refused address, range that does not fit. -/
theorem crc16AnswersTheCrcOfTheRange : Obligations.Crc16AnswersTheCrcOfTheRange := by
  refine ⟨decode_crc16, fun s b off n hoff hn hfit => ?_, fun s addr len hbad => ?_, fun s b off n hoff hn hfit => ?_⟩
  · rw [exec_crc16, BitVec.toNat_ofNat, Nat.mod_eq_of_lt hn, finish_of_range_within hoff hfit, State.readBytes_eq_span,
      finish_crcResult]
  · rw [exec_crc16, finish_of_badReadAddr hbad]
  · rw [exec_crc16, BitVec.toNat_ofNat, Nat.mod_eq_of_lt hn, finish_of_range_beyond hoff hfit]

/-- The packet of `CRC16.I` with its two count bytes (R85): legal exactly when the count is that of the data. -/
theorem decode_crc16I (n0 n1 : Byte) (data : List Byte) :
    decode (0x11#8 :: n0 :: n1 :: data) =
      if data.length = n0.toNat + 256 * n1.toNat then .ok (.crc16I data) else .error .badLength := by
  rw [← toNat_u16]; rfl

/-- Settles O27: the command has no check of its own, its packet only that of its length. -/
theorem crc16IAnswersTheCrcOfTheData : Obligations.Crc16IAnswersTheCrcOfTheData := by
  refine ⟨fun s data => ?_, rfl, rfl, fun n0 => rfl, decode_crc16I⟩
  rw [exec_crc16I, finish_crcResult]

/-- Settles O28: the command has no check, and its answer is `CRCR` low byte first. -/
theorem rdCrcAnswersCrcr : Obligations.RdCrcAnswersCrcr := by
  intro s
  have hexec : exec .rdCrc s = .next (s.respond (leBytes 2 s.crcr.toNat)) := rfl
  rw [hexec, State.respond_leBytes_two]

end Sys2Proof.Machine

namespace Sys2Proof.Machine

/-! ### Multiplication of bytes makes a commutative ring (R101)

`gfMul` is additive in each argument and commutes with `gfDouble`, multiplication by `x`. Every byte is built from 1 by
doubling and adding, so a law that holds of 1 and survives both holds of every byte (`byte_induction`). -/

/-- Doubling shifts, and adds the low part of the modulus when bit 7 goes out (R101). -/
theorem gfDouble_eq (p : BitVec 9) (a : Byte) :
    gfDouble p a = (a <<< 1) ^^^ if a.getLsbD 7 then p.truncate 8 else 0#8 := by
  have hbit : ((a.zeroExtend 9) <<< 1).getLsbD 8 = a.getLsbD 7 := by simp
  unfold gfDouble
  dsimp only
  rw [hbit]
  cases a.getLsbD 7 <;> ext i hi <;> simp

theorem ite_xor (q : Byte) (x y : Bool) :
    (if x ^^ y then q else 0#8) = (if x then q else 0#8) ^^^ if y then q else 0#8 := by
  cases x <;> cases y <;> simp

theorem gfDouble_xor (p : BitVec 9) (a b : Byte) : gfDouble p (a ^^^ b) = gfDouble p a ^^^ gfDouble p b := by
  simp only [gfDouble_eq, BitVec.shiftLeft_xor_distrib, BitVec.getLsbD_xor, ite_xor]
  ac_rfl

/-- The running sum of the loop only adds to its result. -/
theorem gfMulLoop_sum (p : BitVec 9) (n : Nat) (a b r : Byte) :
    gfMulLoop p n a b r = r ^^^ gfMulLoop p n a b 0#8 := by
  induction n generalizing a b r with
  | zero => simp [gfMulLoop]
  | succ n ih =>
    simp only [gfMulLoop]
    rw [ih _ _ (if b.getLsbD 0 then r ^^^ a else r), ih _ _ (if b.getLsbD 0 then 0#8 ^^^ a else 0#8)]
    split <;> simp [BitVec.xor_assoc]

theorem gfMulLoop_succ (p : BitVec 9) (n : Nat) (a b : Byte) :
    gfMulLoop p (n + 1) a b 0#8 =
      (if b.getLsbD 0 then a else 0#8) ^^^ gfMulLoop p n (gfDouble p a) (b >>> 1) 0#8 := by
  rw [gfMulLoop, gfMulLoop_sum]
  simp

theorem gfMulLoop_xor_left (p : BitVec 9) (n : Nat) (a a' b : Byte) :
    gfMulLoop p n (a ^^^ a') b 0#8 = gfMulLoop p n a b 0#8 ^^^ gfMulLoop p n a' b 0#8 := by
  induction n generalizing a a' b with
  | zero => simp [gfMulLoop]
  | succ n ih =>
    simp only [gfMulLoop_succ, gfDouble_xor, ih]
    split
    · ac_rfl
    · simp

theorem gfMulLoop_xor_right (p : BitVec 9) (n : Nat) (a b b' : Byte) :
    gfMulLoop p n a (b ^^^ b') 0#8 = gfMulLoop p n a b 0#8 ^^^ gfMulLoop p n a b' 0#8 := by
  induction n generalizing a b b' with
  | zero => simp [gfMulLoop]
  | succ n ih =>
    simp only [gfMulLoop_succ, BitVec.ushiftRight_xor_distrib, ih, BitVec.getLsbD_xor, ite_xor]
    ac_rfl

theorem gfMulLoop_double (p : BitVec 9) (n : Nat) (a b : Byte) :
    gfMulLoop p n (gfDouble p a) b 0#8 = gfDouble p (gfMulLoop p n a b 0#8) := by
  induction n generalizing a b with
  | zero => simp [gfMulLoop]
  | succ n ih =>
    simp only [gfMulLoop_succ, gfDouble_xor, ih]
    split <;> simp

theorem gfMul_xor_left (p : BitVec 9) (a a' b : Byte) : gfMul p (a ^^^ a') b = gfMul p a b ^^^ gfMul p a' b :=
  gfMulLoop_xor_left p 8 a a' b

theorem gfMul_xor_right (p : BitVec 9) (a b b' : Byte) : gfMul p a (b ^^^ b') = gfMul p a b ^^^ gfMul p a b' :=
  gfMulLoop_xor_right p 8 a b b'

theorem gfMul_double_left (p : BitVec 9) (a b : Byte) : gfMul p (gfDouble p a) b = gfDouble p (gfMul p a b) :=
  gfMulLoop_double p 8 a b

@[simp] theorem gfMul_one (p : BitVec 9) (a : Byte) : gfMul p a 1#8 = a := by
  simp [gfMul, gfMulLoop]

/-- Doubling 1 less than eight times never reaches the modulus, so the product with 1 lists the bits of the byte. -/
@[simp] theorem one_gfMul (p : BitVec 9) (b : Byte) : gfMul p 1#8 b = b := by
  simp only [gfMul, gfMulLoop, gfDouble_eq]
  simp
  revert b
  decide

/-- The loop builds its result from the multiplicand and the sum by doubling and adding. -/
theorem gfMulLoop_mem {p : BitVec 9} {motive : Byte → Prop} (hxor : ∀ a b, motive a → motive b → motive (a ^^^ b))
    (hdouble : ∀ a, motive a → motive (gfDouble p a)) (n : Nat) {a r : Byte} (b : Byte) (ha : motive a)
    (hr : motive r) : motive (gfMulLoop p n a b r) := by
  induction n generalizing a b r with
  | zero => exact hr
  | succ n ih =>
    refine ih _ (hdouble a ha) ?_
    split
    · exact hxor r a hr ha
    · exact hr

/-- Every byte is built from 1 by doubling and adding. -/
theorem byte_induction (p : BitVec 9) {motive : Byte → Prop} (hone : motive 1#8)
    (hxor : ∀ a b, motive a → motive b → motive (a ^^^ b)) (hdouble : ∀ a, motive a → motive (gfDouble p a))
    (a : Byte) : motive a := by
  have hzero : motive 0#8 := by simpa using hxor _ _ hone hone
  have h := gfMulLoop_mem hxor hdouble 8 a hone hzero
  rwa [show gfMulLoop p 8 1#8 a 0#8 = a from one_gfMul p a] at h

theorem gfMul_double_right (p : BitVec 9) (a b : Byte) : gfMul p a (gfDouble p b) = gfDouble p (gfMul p a b) := by
  induction a using byte_induction p with
  | hone => simp
  | hxor a a' ha ha' => simp only [gfMul_xor_left, gfDouble_xor, ha, ha']
  | hdouble a ha => simp only [gfMul_double_left, ha]

theorem gfMul_comm (p : BitVec 9) (a b : Byte) : gfMul p a b = gfMul p b a := by
  induction a using byte_induction p with
  | hone => simp
  | hxor a a' ha ha' => simp only [gfMul_xor_left, gfMul_xor_right, ha, ha']
  | hdouble a ha => simp only [gfMul_double_left, gfMul_double_right, ha]

theorem gfMul_assoc (p : BitVec 9) (a b c : Byte) : gfMul p (gfMul p a b) c = gfMul p a (gfMul p b c) := by
  induction a using byte_induction p with
  | hone => simp
  | hxor a a' ha ha' => simp only [gfMul_xor_left, ha, ha']
  | hdouble a ha => simp only [gfMul_double_left, ha]

/-! ### The field (R101) -/

/-- The bytes as elements of the ring that `RS_PRIM_POLY` defines. -/
@[ext] structure Gf (p : BitVec 9) where
  byte : Byte

/-- Addition is `xor`, multiplication `gfMul` (R101). -/
@[reducible] def Gf.commRing (p : BitVec 9) : CommRing (Gf p) :=
  letI : Add (Gf p) := ⟨fun a b => ⟨a.byte ^^^ b.byte⟩⟩
  letI : Zero (Gf p) := ⟨⟨0#8⟩⟩
  letI : Neg (Gf p) := ⟨fun a => a⟩
  letI : Mul (Gf p) := ⟨fun a b => ⟨gfMul p a.byte b.byte⟩⟩
  letI : One (Gf p) := ⟨⟨1#8⟩⟩
  CommRing.ofMinimalAxioms (fun _ _ _ => Gf.ext (BitVec.xor_assoc ..)) (fun _ => Gf.ext BitVec.zero_xor)
    (fun _ => Gf.ext BitVec.xor_self) (fun _ _ _ => Gf.ext (gfMul_assoc ..)) (fun _ _ => Gf.ext (gfMul_comm ..))
    (fun _ => Gf.ext (one_gfMul ..)) (fun _ _ _ => Gf.ext (gfMul_xor_right ..))

/-- A way to read the bytes as the elements of a ring `K`, with the operations of R101. -/
structure ByteView (p : BitVec 9) (K : Type) [CommRing K] where
  val : Byte → K
  bijective : Function.Bijective val
  val_xor : ∀ a b, val (a ^^^ b) = val a + val b
  val_gfMul : ∀ a b, val (gfMul p a b) = val a * val b
  val_one : val 1#8 = 1

/-- The bytes read as themselves. -/
def Gf.view (p : BitVec 9) : @ByteView p (Gf p) (Gf.commRing p) :=
  letI := Gf.commRing p
  { val := Gf.mk
    bijective := ⟨fun _ _ h => congrArg Gf.byte h, fun b => ⟨b.byte, rfl⟩⟩
    val_xor := fun _ _ => rfl
    val_gfMul := fun _ _ => rfl
    val_one := rfl }

section View

variable {p : BitVec 9} {K : Type} [CommRing K] (φ : ByteView p K)

theorem ByteView.val_zero : φ.val 0#8 = 0 := by
  have h := φ.val_xor 0#8 0#8
  rw [BitVec.xor_self] at h
  exact left_eq_add.mp h

theorem ByteView.val_inj {a b : Byte} : φ.val a = φ.val b ↔ a = b := φ.bijective.1.eq_iff

theorem ByteView.val_eq_zero {a : Byte} : φ.val a = 0 ↔ a = 0#8 := by
  rw [← φ.val_zero, φ.val_inj]

include φ in
/-- Every element is its own negative: `xor` is addition and subtraction (R101). -/
theorem ByteView.add_self (x : K) : x + x = 0 := by
  obtain ⟨a, rfl⟩ := φ.bijective.2 x
  rw [← φ.val_xor, BitVec.xor_self, φ.val_zero]

include φ in
theorem ByteView.sub_eq_add (x y : K) : x - y = x + y := by
  rw [sub_eq_iff_eq_add, add_assoc, φ.add_self, add_zero]

include φ in
theorem ByteView.add_eq_zero {x y : K} : x + y = 0 ↔ x = y := by
  rw [← φ.sub_eq_add, sub_eq_zero]

theorem ByteView.val_gfPow (a : Byte) (e : Nat) : φ.val (gfPow p a e) = φ.val a ^ e := by
  induction e with
  | zero => simpa [gfPow] using φ.val_one
  | succ e ih => rw [gfPow, φ.val_gfMul, ih, pow_succ]

/-- The order of `RS_ALPHA` (R5, R101) in any reading of the bytes. -/
theorem ByteView.orderOf_alpha {c : Config} (h : c.Admissible) (φ : ByteView c.rsPrimPoly K) :
    orderOf (φ.val c.rsAlpha) = 255 := by
  have hprim := h.primitive
  simp only [Config.alphaPrimitive, noEarlierOne, Bool.and_eq_true, List.all_eq_true, List.mem_range, bne_iff_ne,
    beq_iff_eq] at hprim
  obtain ⟨hearly, hone⟩ := hprim
  have hval (e : Nat) : φ.val c.rsAlpha ^ e = 1 ↔ gfPow c.rsPrimPoly c.rsAlpha e = 1#8 := by
    rw [← φ.val_gfPow, ← φ.val_one, φ.val_inj]
  rw [orderOf_eq_iff (by decide)]
  refine ⟨(hval 255).mpr hone, fun m hm hpos heq => ?_⟩
  exact hearly (m - 1) (by omega) (by rw [Nat.sub_add_cancel hpos]; exact (hval m).mp heq)

/-- The 255 powers of `RS_ALPHA` are pairwise different and none is 0, so they are all the nonzero bytes (R101). -/
theorem exists_gfPow_alpha {c : Config} (h : c.Admissible) {a : Byte} (ha : a ≠ 0#8) :
    ∃ e, gfPow c.rsPrimPoly c.rsAlpha e = a := by
  let _ := Gf.commRing c.rsPrimPoly
  let φ := Gf.view c.rsPrimPoly
  have horder := ByteView.orderOf_alpha h φ
  have hinj : Set.InjOn (fun e => (gfPow c.rsPrimPoly c.rsAlpha e).toNat) (Finset.range 255) := by
    intro e he e' he' heq
    have hbyte : gfPow c.rsPrimPoly c.rsAlpha e = gfPow c.rsPrimPoly c.rsAlpha e' := BitVec.eq_of_toNat_eq heq
    rw [← φ.val_inj, φ.val_gfPow, φ.val_gfPow] at hbyte
    exact pow_injOn_Iio_orderOf (by simpa [horder] using he) (by simpa [horder] using he') hbyte
  have hne (e : Nat) : gfPow c.rsPrimPoly c.rsAlpha e ≠ 0#8 := by
    intro hzero
    rw [← φ.val_eq_zero, φ.val_gfPow] at hzero
    have hone : (φ.val c.rsAlpha ^ e) ^ 255 = 1 := by
      rw [← pow_mul, mul_comm, pow_mul, ← horder, pow_orderOf_eq_one, one_pow]
    rw [hzero, zero_pow (by decide), ← φ.val_zero, ← φ.val_one, φ.val_inj] at hone
    exact absurd hone (by decide)
  have himage : (Finset.range 255).image (fun e => (gfPow c.rsPrimPoly c.rsAlpha e).toNat) = Finset.Ioo 0 256 := by
    refine Finset.eq_of_subset_of_card_le (fun n hn => ?_) (by rw [Finset.card_image_of_injOn hinj]; simp)
    obtain ⟨e, -, rfl⟩ := Finset.mem_image.mp hn
    refine Finset.mem_Ioo.mpr ⟨Nat.pos_of_ne_zero fun hz => hne e (BitVec.eq_of_toNat_eq hz), BitVec.isLt _⟩
  have hmem : a.toNat ∈ Finset.Ioo 0 256 :=
    Finset.mem_Ioo.mpr ⟨Nat.pos_of_ne_zero fun hz => ha (BitVec.eq_of_toNat_eq hz), a.isLt⟩
  rw [← himage] at hmem
  obtain ⟨e, -, he⟩ := Finset.mem_image.mp hmem
  exact ⟨e, BitVec.eq_of_toNat_eq he⟩

end View

/-- Settles O31: a nonzero byte is a power `alpha^e`, so its 255th power is 1 (R103). -/
theorem nonzeroElementsHaveInverses : Obligations.NonzeroElementsHaveInverses := by
  intro c a h ha
  obtain ⟨e, rfl⟩ := exists_gfPow_alpha h ha
  let _ := Gf.commRing c.rsPrimPoly
  let φ := Gf.view c.rsPrimPoly
  have hpow : φ.val c.rsAlpha ^ 255 = 1 := ByteView.orderOf_alpha h φ ▸ pow_orderOf_eq_one _
  rw [← φ.val_inj, φ.val_one]
  simp only [gfInv, φ.val_gfMul, φ.val_gfPow]
  rw [← pow_succ', ← pow_mul, mul_comm, pow_mul, hpow, one_pow]

/-- The field of admissible parameters: the inverses are those the model computes. -/
@[reducible] def Gf.field {c : Config} (h : c.Admissible) : Field (Gf c.rsPrimPoly) where
  __ := Gf.commRing c.rsPrimPoly
  inv a := ⟨gfInv c.rsPrimPoly a.byte⟩
  exists_pair_ne := ⟨⟨0#8⟩, ⟨1#8⟩, fun h => absurd (congrArg Gf.byte h) (by simp)⟩
  mul_inv_cancel a ha := Gf.ext (nonzeroElementsHaveInverses c a.byte h fun hz => ha (Gf.ext hz))
  inv_zero := Gf.ext ((gfMul_comm ..).trans (gfMul_zero_left ..))
  nnqsmul := _
  qsmul := _

/-- Admissible parameters make the bytes a field (R101). -/
theorem exists_field_view {c : Config} (h : c.Admissible) :
    ∃ (K : Type) (_ : Field K), Nonempty (ByteView c.rsPrimPoly K) :=
  ⟨Gf c.rsPrimPoly, Gf.field h, ⟨Gf.view c.rsPrimPoly⟩⟩

end Sys2Proof.Machine

namespace Sys2Proof.Machine

section Words

open Finset

variable {p : BitVec 9} {K : Type}

/-! ### Words as polynomials (R103) -/

section Evaluation

variable [CommRing K] (φ : ByteView p K)

@[simp] theorem polyEval_nil (p : BitVec 9) (x : Byte) : polyEval p [] x = 0#8 := rfl

@[simp] theorem polyEval_cons (p : BitVec 9) (b : Byte) (w : List Byte) (x : Byte) :
    polyEval p (b :: w) x = gfMul p (polyEval p w x) x ^^^ b := rfl

theorem ByteView.val_polyEval (w : List Byte) (x : Byte) :
    φ.val (polyEval p w x) = ∑ j ∈ range w.length, φ.val (w.getD j 0#8) * φ.val x ^ j := by
  induction w with
  | nil => exact φ.val_zero
  | cons b w ih =>
    rw [polyEval_cons, φ.val_xor, φ.val_gfMul, ih, List.length_cons, sum_range_succ', sum_mul]
    simp [pow_succ, mul_assoc]

theorem ByteView.val_polyEval_append (u w : List Byte) (x : Byte) :
    φ.val (polyEval p (u ++ w) x) = φ.val (polyEval p u x) + φ.val x ^ u.length * φ.val (polyEval p w x) := by
  induction u with
  | nil => simp [φ.val_zero]
  | cons b u ih =>
    simp only [List.cons_append, polyEval_cons, φ.val_xor, φ.val_gfMul, ih, List.length_cons]
    ring

theorem ByteView.val_polyEval_map_gfMul (f : Byte) (w : List Byte) (x : Byte) :
    φ.val (polyEval p (w.map (gfMul p f)) x) = φ.val f * φ.val (polyEval p w x) := by
  induction w with
  | nil => simp [φ.val_zero]
  | cons b w ih =>
    simp only [List.map_cons, polyEval_cons, φ.val_xor, φ.val_gfMul, ih]
    ring

theorem ByteView.val_polyEval_zipWith_xor {u w : List Byte} (h : u.length = w.length) (x : Byte) :
    φ.val (polyEval p (List.zipWith (· ^^^ ·) u w) x) = φ.val (polyEval p u x) + φ.val (polyEval p w x) := by
  induction u generalizing w with
  | nil =>
    obtain rfl : w = [] := List.length_eq_zero_iff.mp h.symm
    simp [φ.val_zero]
  | cons b u ih =>
    obtain _ | ⟨b', w⟩ := w
    · cases h
    · simp only [List.zipWith_cons_cons, polyEval_cons, φ.val_xor, φ.val_gfMul, ih (Nat.succ.inj h)]
      ring

theorem addScaled_eq_zipWith_xor (p : BitVec 9) (q r : List Byte) (f : Byte) :
    addScaled p q f r = List.zipWith (· ^^^ ·) q (r.map (gfMul p f)) := by
  rw [addScaled, List.zipWith_map_right]

/-! ### The generator (R104) -/

theorem ByteView.val_polyEval_polyMulLinear (r : Byte) (g : List Byte) (x : Byte) :
    φ.val (polyEval p (polyMulLinear p r g) x) = (φ.val x + φ.val r) * φ.val (polyEval p g x) := by
  rw [polyMulLinear, φ.val_polyEval_zipWith_xor (by simp), φ.val_polyEval_append, φ.val_polyEval_map_gfMul]
  simp [φ.val_zero, φ.val_gfMul]
  ring

/-- The generator vanishes at each of its 24 roots. -/
theorem ByteView.polyEval_rsGenerator {c : Config} (φ : ByteView c.rsPrimPoly K) {k : Nat} (hk : k < rsParityLen) :
    polyEval c.rsPrimPoly (rsGenerator c) (rsRoot c k) = 0#8 := by
  have hprod (l : List Nat) (g : List Byte) (x : Byte) :
      φ.val (polyEval c.rsPrimPoly (l.foldl (fun g k => polyMulLinear c.rsPrimPoly (rsRoot c k) g) g) x) =
        (l.map fun k => φ.val x + φ.val (rsRoot c k)).prod * φ.val (polyEval c.rsPrimPoly g x) := by
    induction l generalizing g with
    | nil => simp
    | cons k l ih =>
      rw [List.foldl_cons, ih, φ.val_polyEval_polyMulLinear, List.map_cons, List.prod_cons]
      ring
  rw [← φ.val_eq_zero, rsGenerator, hprod]
  have hzero : (0 : K) ∈ (List.range rsParityLen).map fun i => φ.val (rsRoot c k) + φ.val (rsRoot c i) :=
    List.mem_map.mpr ⟨k, List.mem_range.mpr hk, φ.add_self _⟩
  rw [List.prod_eq_zero hzero, zero_mul]

end Evaluation

/-- The generator is monic of degree 24. -/
theorem rsGenerator_monic (c : Config) : ∃ g, g.length = rsParityLen ∧ rsGenerator c = g ++ [1#8] := by
  have hlast (l : List Nat) (g : List Byte) (hg : ∃ g', g = g' ++ [1#8]) :
      ∃ g', l.foldl (fun g k => polyMulLinear c.rsPrimPoly (rsRoot c k) g) g = g' ++ [1#8] := by
    induction l generalizing g with
    | nil => exact hg
    | cons k l ih =>
      obtain ⟨g', rfl⟩ := hg
      refine ih _ ⟨List.zipWith (· ^^^ ·) (0#8 :: g') ((g' ++ [1#8]).map (gfMul c.rsPrimPoly (rsRoot c k))), ?_⟩
      dsimp only
      rw [polyMulLinear, ← List.cons_append, List.zipWith_append (by simp)]
      simp
  obtain ⟨g, hg⟩ := hlast (List.range rsParityLen) [1#8] ⟨[], rfl⟩
  have hlen := length_rsGenerator c
  rw [rsGenerator, hg] at hlen
  exact ⟨g, by simpa using hlen, hg⟩

/-! ### The parity (R107) -/

section Parity

variable [CommRing K] {c : Config} (φ : ByteView c.rsPrimPoly K)

theorem isCodeword_iff {w : List Byte} :
    isCodeword c w = true ↔ ∀ k, k < rsParityLen → polyEval c.rsPrimPoly w (rsRoot c k) = 0#8 := by
  simp [isCodeword, syndromes]

theorem zipWith_xor_map_zero {u g : List Byte} (h : u.length = g.length) (p : BitVec 9) :
    List.zipWith (· ^^^ ·) u (g.map (gfMul p 0#8)) = u :=
  List.ext_getElem (by simp [h]) fun i _ _ => by simp

/-- The shift register without its case distinction: a feedback of 0 adds nothing. -/
theorem rsShift_append (p : BitVec 9) {top g : List Byte} (h : top.length + 1 = g.length) (d last : Byte) :
    rsShift p (g ++ [1#8]) d (top ++ [last]) =
      List.zipWith (· ^^^ ·) (0#8 :: top) (g.map (gfMul p (d ^^^ last))) := by
  have hadd : addScaled p (0#8 :: top) (d ^^^ last) (g ++ [1#8]) =
      List.zipWith (· ^^^ ·) (0#8 :: top) (g.map (gfMul p (d ^^^ last))) := by
    rw [addScaled_eq_zipWith_xor, List.map_append]
    nth_rw 1 [← List.append_nil (0#8 :: top)]
    rw [List.zipWith_append (by simp [h])]
    simp
  simp only [rsShift, List.getLastD_concat, List.dropLast_concat, hadd]
  split
  case isTrue hzero => rw [hzero, zipWith_xor_map_zero (by simp [h])]
  case isFalse => rfl

/-- One step of the shift register multiplies by `x` and adds `d x^24`, at each root of the generator. -/
theorem ByteView.val_polyEval_rsShift {rem : List Byte} (hrem : rem.length = rsParityLen) (d : Byte) {k : Nat}
    (hk : k < rsParityLen) :
    φ.val (polyEval c.rsPrimPoly (rsShift c.rsPrimPoly (rsGenerator c) d rem) (rsRoot c k)) =
      φ.val (rsRoot c k) * φ.val (polyEval c.rsPrimPoly rem (rsRoot c k)) +
        φ.val (rsRoot c k) ^ rsParityLen * φ.val d := by
  obtain ⟨g, hglen, hg⟩ := rsGenerator_monic c
  have hgroot : φ.val (polyEval c.rsPrimPoly g (rsRoot c k)) = φ.val (rsRoot c k) ^ rsParityLen := by
    have h := (φ.val_eq_zero).mpr (φ.polyEval_rsGenerator hk)
    rw [hg, φ.val_polyEval_append, hglen, φ.add_eq_zero] at h
    simpa [φ.val_one] using h
  obtain ⟨top, last, rfl⟩ : ∃ top last, rem = top ++ [last] :=
    ⟨_, _, (List.dropLast_append_getLast (List.ne_nil_of_length_pos (by rw [hrem]; decide))).symm⟩
  have htop : top.length + 1 = rsParityLen := by simpa using hrem
  rw [hg, rsShift_append _ (htop.trans hglen.symm), φ.val_polyEval_zipWith_xor (by simp [htop, hglen]),
    φ.val_polyEval_map_gfMul, hgroot, φ.val_polyEval_append, ← htop]
  simp [φ.val_xor, φ.val_gfMul]
  ring

/-- At each root of the generator the parity has the value of the data, moved up by 24 degrees. -/
theorem ByteView.val_polyEval_rsParity (d : List Byte) {k : Nat} (hk : k < rsParityLen) :
    φ.val (polyEval c.rsPrimPoly (rsParity c d) (rsRoot c k)) =
      φ.val (rsRoot c k) ^ rsParityLen * φ.val (polyEval c.rsPrimPoly d (rsRoot c k)) := by
  induction d with
  | nil =>
    have hzeros := polyEval_append_zeros c.rsPrimPoly [] rsParityLen (rsRoot c k)
    rw [List.nil_append] at hzeros
    rw [rsParity, List.foldr_nil, hzeros, polyEval_nil, φ.val_zero, mul_zero]
  | cons b d ih =>
    have hstep : rsParity c (b :: d) = rsShift c.rsPrimPoly (rsGenerator c) b (rsParity c d) := rfl
    rw [hstep, φ.val_polyEval_rsShift (length_rsParity c d) b hk, ih, polyEval_cons, φ.val_xor, φ.val_gfMul]
    ring

/-- Settles O30: at each root parity and data have the same value, and their sum is 0. -/
theorem parityCompletesACodeword : Obligations.ParityCompletesACodeword := by
  intro c d _ _
  refine ⟨length_rsParity c d, isCodeword_iff.mpr fun k hk => ?_⟩
  let _ := Gf.commRing c.rsPrimPoly
  let φ := Gf.view c.rsPrimPoly
  rw [← φ.val_eq_zero, φ.val_polyEval_append, length_rsParity, φ.val_polyEval_rsParity d hk, φ.add_self]

end Parity

end Words

end Sys2Proof.Machine

namespace Sys2Proof.Machine

open Finset

/-! ### Where two words differ -/

/-- The positions in which two words differ. -/
def diffSet (w x : List Byte) : Finset Nat := (range w.length).filter fun j => w.getD j 0#8 ≠ x.getD j 0#8

theorem mem_diffSet {w x : List Byte} {j : Nat} :
    j ∈ diffSet w x ↔ j < w.length ∧ w.getD j 0#8 ≠ x.getD j 0#8 := by
  simp [diffSet]

theorem distance_eq_card {w x : List Byte} (h : w.length = x.length) : Claims.distance w x = (diffSet w x).card := by
  induction w generalizing x with
  | nil => simp [Claims.distance, diffSet]
  | cons b w ih =>
    obtain _ | ⟨b', x⟩ := x
    · cases h
    · have hcard := ih (Nat.succ.inj h)
      simp only [Claims.distance, diffSet, card_filter] at hcard ⊢
      rw [List.zipWith_cons_cons, List.count_cons, hcard, List.length_cons, sum_range_succ']
      simp

theorem eq_of_diffSet_eq_empty {w x : List Byte} (h : w.length = x.length) (hd : diffSet w x = ∅) : w = x := by
  refine List.ext_getElem h fun j hj hj' => ?_
  by_contra hne
  have hmem : j ∈ diffSet w x := mem_diffSet.mpr ⟨hj, by simpa [hj, hj'] using hne⟩
  simp [hd] at hmem

/-! ### Power sums -/

section PowerSums

variable {K : Type} [Field K]

/-- As many power sums as there are distinct nodes determine the weights (the Vandermonde determinant). -/
theorem eq_zero_of_power_sums {S : Finset Nat} {a v : Nat → K} (hinj : Set.InjOn a S)
    (hsum : ∀ k, k < S.card → ∑ j ∈ S, v j * a j ^ k = 0) {j : Nat} (hj : j ∈ S) : v j = 0 := by
  let node (i : Fin S.card) : K := a (S.equivFin.symm i)
  let weight (i : Fin S.card) : K := v (S.equivFin.symm i)
  have hnode : Function.Injective node := fun i i' h =>
    S.equivFin.symm.injective (Subtype.ext (hinj (S.equivFin.symm i).2 (S.equivFin.symm i').2 h))
  have hzero : weight = 0 := by
    refine Matrix.eq_zero_of_forall_pow_sum_mul_pow_eq_zero hnode fun k => ?_
    rw [← hsum k k.isLt, ← sum_coe_sort S fun j => v j * a j ^ (k : Nat)]
    exact Equiv.sum_comp S.equivFin.symm fun j : S => v j * a j ^ (k : Nat)
  simpa [weight] using congrFun hzero (S.equivFin ⟨j, hj⟩)

end PowerSums

/-! ### Syndromes and errors (R108, R110) -/

section Errors

variable {K : Type} [Field K] {c : Config} (φ : ByteView c.rsPrimPoly K)

/-- `alpha^j`, the locator number of position `j`. -/
def ByteView.node (φ : ByteView c.rsPrimPoly K) (j : Nat) : K := φ.val c.rsAlpha ^ j

theorem ByteView.val_alphaPow (h : c.Admissible) (e : Nat) : φ.val (alphaPow c e) = φ.node e := by
  rw [alphaPow, φ.val_gfPow, ← ByteView.orderOf_alpha h φ, pow_mod_orderOf, ByteView.node]

theorem ByteView.node_ne_zero (h : c.Admissible) (j : Nat) : φ.node j ≠ 0 := by
  refine pow_ne_zero j fun hzero => ?_
  have hone := pow_orderOf_eq_one (φ.val c.rsAlpha)
  rw [ByteView.orderOf_alpha h φ, hzero] at hone
  simp at hone

theorem ByteView.node_injOn (h : c.Admissible) : Set.InjOn φ.node (range 255) := fun i hi j hj =>
  pow_injOn_Iio_orderOf (by simpa [ByteView.orderOf_alpha h φ] using hi)
    (by simpa [ByteView.orderOf_alpha h φ] using hj)

/-- The error value at position `j` of `w` against `x`, with the factor that `RS_FCR` contributes. -/
def ByteView.errorTerm (φ : ByteView c.rsPrimPoly K) (w x : List Byte) (j : Nat) : K :=
  (φ.val (w.getD j 0#8) + φ.val (x.getD j 0#8)) * φ.node j ^ c.rsFcr

theorem ByteView.errorTerm_ne_zero (h : c.Admissible) {w x : List Byte} {j : Nat} (hj : j ∈ diffSet w x) :
    φ.errorTerm w x j ≠ 0 := by
  refine mul_ne_zero (fun hzero => (mem_diffSet.mp hj).2 ?_) (pow_ne_zero _ (φ.node_ne_zero h j))
  exact φ.val_inj.mp (φ.add_eq_zero.mp hzero)

/-- The syndromes of a word are the power sums of its errors against any codeword. -/
theorem ByteView.val_syndrome (h : c.Admissible) {w x : List Byte} (hlen : w.length = x.length)
    (hx : isCodeword c x = true) {k : Nat} (hk : k < rsParityLen) :
    φ.val (polyEval c.rsPrimPoly w (rsRoot c k)) = ∑ j ∈ diffSet w x, φ.errorTerm w x j * φ.node j ^ k := by
  have hroot (j : Nat) : φ.val (rsRoot c k) ^ j = φ.node j ^ c.rsFcr * φ.node j ^ k := by
    rw [rsRoot, φ.val_alphaPow h]
    simp only [ByteView.node]
    ring
  have hzero := φ.val_eq_zero.mpr (isCodeword_iff.mp hx k hk)
  calc φ.val (polyEval c.rsPrimPoly w (rsRoot c k))
      = φ.val (polyEval c.rsPrimPoly w (rsRoot c k)) + φ.val (polyEval c.rsPrimPoly x (rsRoot c k)) := by
        rw [hzero, add_zero]
    _ = ∑ j ∈ range w.length, φ.errorTerm w x j * φ.node j ^ k := by
        rw [φ.val_polyEval, φ.val_polyEval, ← hlen, ← sum_add_distrib]
        refine sum_congr rfl fun j _ => ?_
        rw [hroot, ByteView.errorTerm]
        ring
    _ = ∑ j ∈ diffSet w x, φ.errorTerm w x j * φ.node j ^ k := by
        rw [diffSet, sum_filter_of_ne]
        intro j _ hne heq
        exact hne (by rw [ByteView.errorTerm, heq, φ.add_self, zero_mul, zero_mul])

end Errors

/-- Settles O32: the errors of one codeword against another have 24 power sums that are 0, so fewer than 25 of them
would all be 0. -/
theorem codewordsDifferInTwentyFivePlaces : Obligations.CodewordsDifferInTwentyFivePlaces := by
  intro c x y h hx hy hcx hcy hne
  obtain ⟨K, _, ⟨φ⟩⟩ := exists_field_view h
  have hlen := hx.trans hy.symm
  rw [distance_eq_card hlen]
  by_contra hlt
  obtain ⟨j, hj⟩ : (diffSet x y).Nonempty :=
    nonempty_iff_ne_empty.mpr fun hempty => hne (eq_of_diffSet_eq_empty hlen hempty)
  refine φ.errorTerm_ne_zero h hj (eq_zero_of_power_sums (a := φ.node) ?_ (fun k hk => ?_) hj)
  · refine (φ.node_injOn h).mono fun i hi => ?_
    have := (mem_diffSet.mp hi).1
    simp; omega
  · have hk' : k < rsParityLen := by simp only [rsParityLen]; omega
    rw [← φ.val_syndrome h hlen hcy hk', isCodeword_iff.mp hcx k hk', φ.val_zero]

end Sys2Proof.Machine

namespace Sys2Proof.Machine

/-! ### Linear systems

`solveLinear` answers a solution, and answers one whenever there is one: eliminating the first unknown turns the
solutions of the rows into the solutions of the reduced rows. -/

/-- `xs` satisfies the equation of every row. -/
def Solves (p : BitVec 9) (rows : List (List Byte)) (xs : List Byte) : Prop := ∀ r ∈ rows, rowValue p r xs = 0#8

/-- The row `r` solved for its first unknown. -/
def pivotRow (p : BitVec 9) (r : List Byte) : List Byte := r.tail.map (gfMul p (gfInv p (r.headD 0#8)))

/-- The row `q` with its first unknown eliminated. -/
def eliminate (p : BitVec 9) (pivot q : List Byte) : List Byte := addScaled p q.tail (q.headD 0#8) pivot

@[simp] theorem length_pivotRow (p : BitVec 9) (r : List Byte) : (pivotRow p r).length = r.length - 1 := by
  simp [pivotRow]

theorem rowValue_nil_eq_headD (p : BitVec 9) (r : List Byte) : rowValue p r [] = r.headD 0#8 := by
  cases r <;> rfl

theorem rowValue_cons (p : BitVec 9) (q : List Byte) (x : Byte) (xs : List Byte) :
    rowValue p q (x :: xs) = gfMul p (q.headD 0#8) x ^^^ rowValue p q.tail xs := by
  cases q <;> simp [rowValue]

/-- An unknown that no row has is set to 0. -/
theorem solveLinear_succ_of_none {p : BitVec 9} {n : Nat} {rows : List (List Byte)}
    (h : rows.find? (fun r => r.headD 0#8 != 0#8) = none) :
    solveLinear p (n + 1) rows = (solveLinear p n (rows.map List.tail)).map (0#8 :: ·) := by
  rw [solveLinear, h]

/-- An unknown that some row has is eliminated with the first such row. -/
theorem solveLinear_succ_of_some {p : BitVec 9} {n : Nat} {rows : List (List Byte)} {r : List Byte}
    (h : rows.find? (fun r => r.headD 0#8 != 0#8) = some r) :
    solveLinear p (n + 1) rows =
      (solveLinear p n (rows.map (eliminate p (pivotRow p r)))).map fun xs => rowValue p (pivotRow p r) xs :: xs := by
  rw [solveLinear, h]
  rfl

section Rows

variable {p : BitVec 9} {K : Type} [CommRing K] (φ : ByteView p K)

theorem ByteView.val_rowValue_addScaled (f : Byte) {q r : List Byte} (h : q.length = r.length) (xs : List Byte) :
    φ.val (rowValue p (addScaled p q f r) xs) = φ.val (rowValue p q xs) + φ.val f * φ.val (rowValue p r xs) := by
  induction q generalizing r xs with
  | nil =>
    obtain rfl : r = [] := List.length_eq_zero_iff.mp h.symm
    simp [addScaled, rowValue, φ.val_zero]
  | cons b q ih =>
    obtain _ | ⟨b', r⟩ := r
    · cases h
    · cases xs with
      | nil => simp [addScaled, rowValue, φ.val_xor, φ.val_gfMul]
      | cons x xs =>
        have htail := ih (Nat.succ.inj h) xs
        simp only [addScaled] at htail
        simp only [addScaled, List.zipWith_cons_cons, rowValue, φ.val_xor, φ.val_gfMul, htail]
        ring

theorem ByteView.val_rowValue_map_gfMul (f : Byte) (r xs : List Byte) :
    φ.val (rowValue p (r.map (gfMul p f)) xs) = φ.val f * φ.val (rowValue p r xs) := by
  induction r generalizing xs with
  | nil => simp [rowValue, φ.val_zero]
  | cons b r ih =>
    cases xs with
    | nil => simp [rowValue, φ.val_gfMul]
    | cons x xs =>
      simp only [List.map_cons, rowValue, φ.val_xor, φ.val_gfMul, ih]
      ring

/-- The value of a row whose coefficients and unknowns belong to distinct positions. -/
theorem ByteView.val_rowValue_map (g f : Nat → Byte) (b : Byte) {l : List Nat} (h : l.Nodup) :
    φ.val (rowValue p (l.map g ++ [b]) (l.map f)) = ∑ j ∈ l.toFinset, φ.val (g j) * φ.val (f j) + φ.val b := by
  rw [List.sum_toFinset _ h]
  clear h
  induction l with
  | nil => simp [rowValue]
  | cons j l ih =>
    simp only [List.map_cons, List.cons_append, rowValue, φ.val_xor, φ.val_gfMul, ih, List.sum_cons]
    ring

end Rows

section Solver

variable {c : Config}

/-- Eliminating the first unknown is substituting its value. -/
theorem rowValue_eliminate {pivot q : List Byte} (h : q.length = pivot.length + 1) (xs : List Byte) :
    rowValue c.rsPrimPoly (eliminate c.rsPrimPoly pivot q) xs =
      rowValue c.rsPrimPoly q (rowValue c.rsPrimPoly pivot xs :: xs) := by
  let _ := Gf.commRing c.rsPrimPoly
  let φ := Gf.view c.rsPrimPoly
  rw [← φ.val_inj, eliminate, φ.val_rowValue_addScaled _ (by simp [h]), rowValue_cons, φ.val_xor, φ.val_gfMul,
    add_comm]

/-- A solution of a row whose first coefficient is not 0 has the first unknown that the pivot row gives. -/
theorem eq_rowValue_pivotRow (h : c.Admissible) {r : List Byte} (hr : r.headD 0#8 ≠ 0#8) {x : Byte} {xs : List Byte}
    (hzero : rowValue c.rsPrimPoly r (x :: xs) = 0#8) : x = rowValue c.rsPrimPoly (pivotRow c.rsPrimPoly r) xs := by
  let _ := Gf.commRing c.rsPrimPoly
  let φ := Gf.view c.rsPrimPoly
  have hinv := congrArg φ.val (nonzeroElementsHaveInverses c _ h hr)
  rw [φ.val_gfMul, φ.val_one] at hinv
  rw [rowValue_cons, ← φ.val_eq_zero, φ.val_xor, φ.val_gfMul, φ.add_eq_zero] at hzero
  rw [← φ.val_inj, pivotRow, φ.val_rowValue_map_gfMul, ← hzero]
  linear_combination -φ.val x * hinv

/-- An answer satisfies every row. -/
theorem solveLinear_sound {n : Nat} {rows : List (List Byte)} {xs : List Byte}
    (hlen : ∀ r ∈ rows, r.length = n + 1) (hsome : solveLinear c.rsPrimPoly n rows = some xs) :
    Solves c.rsPrimPoly rows xs := by
  induction n generalizing rows xs with
  | zero =>
    rw [solveLinear] at hsome
    split at hsome
    case isTrue hall =>
      obtain rfl := Option.some.inj hsome
      intro r hr
      simpa [rowValue_nil_eq_headD] using List.all_eq_true.mp hall r hr
    case isFalse => cases hsome
  | succ n ih =>
    cases hfind : rows.find? (fun r => r.headD 0#8 != 0#8) with
    | none =>
      rw [solveLinear_succ_of_none hfind] at hsome
      obtain ⟨ys, hys, rfl⟩ := Option.map_eq_some_iff.mp hsome
      intro r hr
      have hhead : r.headD 0#8 = 0#8 := by simpa using List.find?_eq_none.mp hfind r hr
      have htail := ih (by simpa using fun q hq => by simp [hlen q hq]) hys r.tail (List.mem_map_of_mem hr)
      rw [rowValue_cons, hhead, htail, gfMul_zero_left, BitVec.xor_zero]
    | some r =>
      rw [solveLinear_succ_of_some hfind] at hsome
      obtain ⟨ys, hys, rfl⟩ := Option.map_eq_some_iff.mp hsome
      have hrlen := hlen r (List.mem_of_find?_eq_some hfind)
      intro q hq
      rw [← rowValue_eliminate (by simp [hlen q hq, hrlen])]
      refine ih ?_ hys _ (List.mem_map_of_mem hq)
      simpa using fun q hq => by simp [eliminate, hlen q hq, hrlen]

/-- Where there is a solution, there is an answer. -/
theorem solveLinear_complete (h : c.Admissible) {n : Nat} {rows : List (List Byte)} {xs : List Byte}
    (hlen : ∀ r ∈ rows, r.length = n + 1) (hxs : xs.length = n) (hsol : Solves c.rsPrimPoly rows xs) :
    ∃ ys, solveLinear c.rsPrimPoly n rows = some ys := by
  induction n generalizing rows xs with
  | zero =>
    obtain rfl := List.length_eq_zero_iff.mp hxs
    refine ⟨[], if_pos (List.all_eq_true.mpr fun r hr => ?_)⟩
    simpa [rowValue_nil_eq_headD] using hsol r hr
  | succ n ih =>
    obtain _ | ⟨x, xs⟩ := xs
    · cases hxs
    cases hfind : rows.find? (fun r => r.headD 0#8 != 0#8) with
    | none =>
      have hreduced : Solves c.rsPrimPoly (rows.map List.tail) xs := by
        intro q hq
        obtain ⟨r, hr, rfl⟩ := List.mem_map.mp hq
        have hhead : r.headD 0#8 = 0#8 := by simpa using List.find?_eq_none.mp hfind r hr
        have hrow := hsol r hr
        rwa [rowValue_cons, hhead, gfMul_zero_left, BitVec.zero_xor] at hrow
      obtain ⟨ys, hys⟩ := ih (by simpa using fun q hq => by simp [hlen q hq]) (Nat.succ.inj hxs) hreduced
      exact ⟨_, by rw [solveLinear_succ_of_none hfind, hys, Option.map_some]⟩
    | some r =>
      have hrmem := List.mem_of_find?_eq_some hfind
      have hrlen := hlen r hrmem
      obtain rfl := eq_rowValue_pivotRow h (by simpa using List.find?_some hfind) (hsol r hrmem)
      have hreduced : Solves c.rsPrimPoly (rows.map (eliminate c.rsPrimPoly (pivotRow c.rsPrimPoly r))) xs := by
        intro q' hq'
        obtain ⟨q, hq, rfl⟩ := List.mem_map.mp hq'
        rw [rowValue_eliminate (by simp [hlen q hq, hrlen])]
        exact hsol q hq
      obtain ⟨ys, hys⟩ :=
        ih (by simpa using fun q hq => by simp [eliminate, hlen q hq, hrlen]) (Nat.succ.inj hxs) hreduced
      exact ⟨_, by rw [solveLinear_succ_of_some hfind, hys, Option.map_some]⟩

end Solver

end Sys2Proof.Machine

namespace Sys2Proof.Machine

open Finset Polynomial

/-! ### The error locator (R110 step 1)

Of a received word `w` and a codeword `x` that differ in the positions `diffSet w x`: a locator of length `l` satisfies
the equations exactly when it vanishes at the inverse locator number of each of these positions. -/

/-- The radius is half the number of parity symbols (R100). -/
theorem rsRadius_add_rsRadius : rsRadius + rsRadius = rsParityLen := rfl

section Polynomials

variable {p : BitVec 9} {K : Type} [Field K] (φ : ByteView p K)

/-- The polynomial a byte list stands for, ascending degree (R103). -/
noncomputable def ByteView.poly (φ : ByteView p K) (u : List Byte) : K[X] :=
  ∑ i ∈ range u.length, C (φ.val (u.getD i 0#8)) * X ^ i

theorem ByteView.eval_poly (u : List Byte) (y : K) :
    (φ.poly u).eval y = ∑ i ∈ range u.length, φ.val (u.getD i 0#8) * y ^ i := by
  simp [ByteView.poly, eval_finsetSum]

theorem ByteView.val_polyEval_eq_eval (u : List Byte) (y : Byte) :
    φ.val (polyEval p u y) = (φ.poly u).eval (φ.val y) := by
  rw [φ.val_polyEval, φ.eval_poly]

@[simp] theorem ByteView.coeff_poly (u : List Byte) (i : Nat) : (φ.poly u).coeff i = φ.val (u.getD i 0#8) := by
  simp only [ByteView.poly, finsetSum_coeff, coeff_C_mul, coeff_X_pow, mul_ite, mul_one, mul_zero]
  rw [sum_ite_eq (range u.length) i fun j => φ.val (u.getD j 0#8)]
  split
  case isTrue => rfl
  case isFalse hi => rw [List.getD_eq_default _ _ (by simpa using hi), φ.val_zero]

/-- Every polynomial with constant coefficient 1 is that of a locator. -/
theorem ByteView.exists_locator {f : K[X]} {l : Nat} (hdeg : f.natDegree ≤ l) (hzero : f.coeff 0 = 1) :
    ∃ xs, xs.length = l ∧ φ.poly (1#8 :: xs) = f := by
  obtain ⟨inv, hinv⟩ := φ.bijective.2.hasRightInverse
  refine ⟨(List.range l).map fun i => inv (f.coeff (i + 1)), by simp, Polynomial.ext fun i => ?_⟩
  rw [φ.coeff_poly]
  obtain _ | i := i
  · simp [hzero, φ.val_one]
  · by_cases hi : i < l
    · simp [hi, hinv (f.coeff (i + 1))]
    · rw [coeff_eq_zero_of_natDegree_lt (by omega), List.getD_eq_default _ _ (by simp; omega), φ.val_zero]

end Polynomials

section Locator

variable {K : Type} [Field K] {c : Config} (φ : ByteView c.rsPrimPoly K)

/-- A locator whose degree is at most `d` has at most `d` error positions among 0..254. -/
theorem ByteView.card_le_of_locator_roots (h : c.Admissible) {xs : List Byte} {d : Nat} {S : Finset Nat}
    (hdeg : ∀ i, d < i → (1#8 :: xs).getD i 0#8 = 0#8) (hS : S ⊆ range 255)
    (hroot : ∀ j ∈ S, (φ.poly (1#8 :: xs)).eval (φ.node j)⁻¹ = 0) : S.card ≤ d := by
  classical
  by_contra hlt
  have hinj : Set.InjOn (fun j => (φ.node j)⁻¹) S := fun i hi j hj hij =>
    φ.node_injOn h (hS hi) (hS hj) (inv_injective hij)
  have hnatDegree : (φ.poly (1#8 :: xs)).natDegree ≤ d :=
    natDegree_le_iff_coeff_eq_zero.mpr fun i hi => by rw [φ.coeff_poly, hdeg i hi, φ.val_zero]
  have hpoly : φ.poly (1#8 :: xs) = 0 := by
    refine eq_zero_of_natDegree_lt_card_of_eval_eq_zero' _ (S.image fun j => (φ.node j)⁻¹) ?_ ?_
    · simpa using hroot
    · rw [card_image_of_injOn hinj]; omega
  have hone := φ.coeff_poly (1#8 :: xs) 0
  simp [hpoly, φ.val_one] at hone

/-- The equation for `S[n]` of a locator of length `l`. -/
def locatorRow (synd : List Byte) (l n : Nat) : List Byte :=
  ((List.range l).map fun i => synd.getD (n - 1 - i) 0#8) ++ [synd.getD n 0#8]

theorem length_of_mem_locatorRows {synd r : List Byte} {l : Nat} (hr : r ∈ locatorRows synd l) :
    r.length = l + 1 := by
  obtain ⟨n, -, rfl⟩ := List.mem_map.mp hr
  simp

theorem solves_locatorRows_iff {synd xs : List Byte} {l : Nat} :
    Solves c.rsPrimPoly (locatorRows synd l) xs ↔
      ∀ k, k + l < rsParityLen → rowValue c.rsPrimPoly (locatorRow synd l (k + l)) xs = 0#8 := by
  have hrows : locatorRows synd l = (List.range' l (rsParityLen - l)).map (locatorRow synd l) := rfl
  simp only [Solves, hrows, List.forall_mem_map, List.mem_range'_1]
  refine ⟨fun hall k hk => hall _ (by omega), fun hall n hn => ?_⟩
  have hrow := hall (n - l) (by omega)
  rwa [Nat.sub_add_cancel hn.1] at hrow

theorem val_getD_syndromes (w : List Byte) {k : Nat} (hk : k < rsParityLen) :
    (syndromes c w).getD k 0#8 = polyEval c.rsPrimPoly w (rsRoot c k) := by
  simp [syndromes, hk]

variable {w x : List Byte} (h : c.Admissible) (hlen : w.length = x.length) (hw : w.length = rsCodeLen)
  (hx : isCodeword c x = true)

include h hlen hx in
/-- A row of the locator's equations is a power sum of the errors, each weighted with the locator's value. -/
theorem ByteView.val_locatorRow {l k : Nat} (hk : k + l < rsParityLen) {xs : List Byte} (hxs : xs.length = l) :
    φ.val (rowValue c.rsPrimPoly (locatorRow (syndromes c w) l (k + l)) xs) =
      ∑ j ∈ diffSet w x,
        φ.errorTerm w x j * φ.node j ^ l * (φ.poly (1#8 :: xs)).eval (φ.node j)⁻¹ * φ.node j ^ k := by
  have hsynd {m : Nat} (hm : m < rsParityLen) :
      φ.val ((syndromes c w).getD m 0#8) = ∑ j ∈ diffSet w x, φ.errorTerm w x j * φ.node j ^ m := by
    rw [val_getD_syndromes w hm, φ.val_syndrome h hlen hx hm]
  have hlist : xs = (List.range l).map fun i => xs.getD i 0#8 :=
    List.ext_getElem (by simp [hxs]) fun i hi _ => by simp [hi]
  have hpow {j i : Nat} (hi : i < l) :
      φ.node j ^ (k + l - 1 - i) = φ.node j ^ (l + k) * (φ.node j)⁻¹ ^ (i + 1) := by
    rw [inv_pow, ← div_eq_mul_inv, eq_div_iff (pow_ne_zero _ (φ.node_ne_zero h j)), ← pow_add]
    congr 1
    omega
  rw [hlist, locatorRow, φ.val_rowValue_map _ _ _ List.nodup_range, ← hlist, List.toFinset_range, hsynd hk]
  calc ∑ i ∈ range l, φ.val ((syndromes c w).getD (k + l - 1 - i) 0#8) * φ.val (xs.getD i 0#8) +
        ∑ j ∈ diffSet w x, φ.errorTerm w x j * φ.node j ^ (k + l)
      = ∑ j ∈ diffSet w x,
          (∑ i ∈ range l, φ.errorTerm w x j * φ.node j ^ (k + l - 1 - i) * φ.val (xs.getD i 0#8) +
            φ.errorTerm w x j * φ.node j ^ (k + l)) := by
        rw [sum_add_distrib, sum_comm]
        congr 1
        refine sum_congr rfl fun i hi => ?_
        rw [hsynd (by omega), sum_mul]
    _ = _ := by
        refine sum_congr rfl fun j _ => ?_
        rw [φ.eval_poly, List.length_cons, hxs, sum_range_succ', mul_add, add_mul, mul_sum, sum_mul]
        congr 1
        · refine sum_congr rfl fun i hi => ?_
          rw [hpow (mem_range.mp hi), List.getD_cons_succ]
          ring
        · simp [φ.val_one]
          ring

include hw in
theorem diffSet_subset_range : diffSet w x ⊆ range 255 := fun j hj => by
  have hlt := (mem_diffSet.mp hj).1
  rw [hw, rsCodeLen] at hlt
  exact mem_range.mpr (by omega)

include h hlen hw hx in
/-- A solution of the locator's equations vanishes at every error position. -/
theorem ByteView.eval_locator_eq_zero {xs : List Byte} (hcard : (diffSet w x).card + xs.length ≤ rsParityLen)
    (hsol : Solves c.rsPrimPoly (locatorRows (syndromes c w) xs.length) xs) {j : Nat} (hj : j ∈ diffSet w x) :
    (φ.poly (1#8 :: xs)).eval (φ.node j)⁻¹ = 0 := by
  have hterm := eq_zero_of_power_sums ((φ.node_injOn h).mono (diffSet_subset_range hw)) (fun k hk => by
    rw [← φ.val_locatorRow h hlen hx (l := xs.length) (by omega) rfl,
      solves_locatorRows_iff.mp hsol k (by omega), φ.val_zero]) hj
  refine (mul_eq_zero.mp hterm).resolve_left (mul_ne_zero (φ.errorTerm_ne_zero h hj) ?_)
  exact pow_ne_zero _ (φ.node_ne_zero h j)

include h hlen hw hx in
/-- No locator shorter than the number of errors satisfies the equations. -/
theorem card_diffSet_le_of_solves {xs : List Byte} (hcard : (diffSet w x).card + xs.length ≤ rsParityLen)
    (hsol : Solves c.rsPrimPoly (locatorRows (syndromes c w) xs.length) xs) : (diffSet w x).card ≤ xs.length := by
  obtain ⟨K, _, ⟨φ⟩⟩ := exists_field_view h
  refine φ.card_le_of_locator_roots h (fun i hi => List.getD_eq_default _ _ (by simpa using hi))
    (diffSet_subset_range hw) fun j hj => φ.eval_locator_eq_zero h hlen hw hx hcard hsol hj

include h hlen hx in
/-- The product of `1 + alpha^j x` over the error positions satisfies the equations. -/
theorem exists_solves_locatorRows :
    ∃ xs, xs.length = (diffSet w x).card ∧
      Solves c.rsPrimPoly (locatorRows (syndromes c w) (diffSet w x).card) xs := by
  obtain ⟨K, _, ⟨φ⟩⟩ := exists_field_view h
  let f : K[X] := ∏ j ∈ diffSet w x, (1 - C (φ.node j) * X)
  have hdeg : f.natDegree ≤ (diffSet w x).card := by
    refine (natDegree_prod_le _ _).trans ((sum_le_card_nsmul _ _ 1 fun j _ => ?_).trans (by simp))
    compute_degree
  have hzero : f.coeff 0 = 1 := by simp [f, coeff_zero_eq_eval_zero, eval_prod]
  obtain ⟨xs, hxs, hpoly⟩ := φ.exists_locator hdeg hzero
  refine ⟨xs, hxs, solves_locatorRows_iff.mpr fun k hk => ?_⟩
  rw [← φ.val_eq_zero, φ.val_locatorRow h hlen hx hk hxs, hpoly]
  refine sum_eq_zero fun j hj => ?_
  have hroot : f.eval (φ.node j)⁻¹ = 0 := by
    rw [eval_prod]
    exact prod_eq_zero hj (by simp [φ.node_ne_zero h j])
  rw [hroot, mul_zero, zero_mul]

include h hlen hw hx in
/-- The first length that has a solution is the number of errors (R110 step 1). -/
theorem exists_errorLocator (hpos : 0 < (diffSet w x).card) (hcard : (diffSet w x).card ≤ rsRadius) :
    ∃ xs, xs.length = (diffSet w x).card ∧ Solves c.rsPrimPoly (locatorRows (syndromes c w) xs.length) xs ∧
      errorLocator c (syndromes c w) = some (1#8 :: xs) := by
  have hlength {l : Nat} : ∀ r ∈ locatorRows (syndromes c w) l, r.length = l + 1 := fun _ =>
    length_of_mem_locatorRows
  have hradius := rsRadius_add_rsRadius
  obtain ⟨xs₀, hxs₀, hsol₀⟩ := exists_solves_locatorRows h hlen hx
  obtain ⟨xs, hxs⟩ := solveLinear_complete h hlength hxs₀ hsol₀
  have hxslen := length_solveLinear hxs
  refine ⟨xs, hxslen, hxslen ▸ solveLinear_sound hlength hxs, List.findSome?_eq_some_iff.mpr ?_⟩
  refine ⟨List.range' 1 ((diffSet w x).card - 1), (diffSet w x).card,
    List.range' ((diffSet w x).card + 1) (rsRadius - (diffSet w x).card), ?_, by rw [hxs]; rfl, fun l hl => ?_⟩
  · rw [← List.range'_succ]
    have happend := List.range'_append (s := 1) (m := (diffSet w x).card - 1)
      (n := rsRadius - (diffSet w x).card + 1) (step := 1)
    rw [show 1 + 1 * ((diffSet w x).card - 1) = (diffSet w x).card by omega] at happend
    rw [happend]
    congr 1
    omega
  · rw [List.mem_range'_1] at hl
    rw [Option.map_eq_none_iff]
    by_contra hsome
    obtain ⟨ys, hys⟩ := Option.ne_none_iff_exists'.mp hsome
    obtain rfl := length_solveLinear hys
    have hle := card_diffSet_le_of_solves h hlen hw hx (by omega) (solveLinear_sound hlength hys)
    omega

end Locator

end Sys2Proof.Machine

namespace Sys2Proof.Machine

open Finset Polynomial

/-! ### Correcting a word at given positions (R110 step 3) -/

theorem getD_modify (w : List Byte) (f : Byte → Byte) {i j : Nat} (hj : j < w.length) :
    (w.modify i f).getD j 0#8 = if i = j then f (w.getD j 0#8) else w.getD j 0#8 := by
  simp only [List.getD_eq_getElem?_getD, List.getElem?_modify, List.getElem?_eq_getElem hj]
  split <;> rfl

/-- Symbols at positions without an error value stay. -/
theorem getD_addErrors_of_not_mem {w : List Byte} {errors : List (Nat × Byte)} {j : Nat} (hj : j < w.length)
    (hmem : j ∉ errors.map Prod.fst) : (addErrors w errors).getD j 0#8 = w.getD j 0#8 := by
  induction errors generalizing w with
  | nil => rfl
  | cons e errors ih =>
    simp only [List.map_cons, List.mem_cons, not_or] at hmem
    have hstep : addErrors w (e :: errors) = addErrors (w.modify e.1 (· ^^^ e.2)) errors := rfl
    rw [hstep, ih (by simpa using hj) hmem.2, getD_modify _ _ hj, if_neg (Ne.symm hmem.1)]

/-- The symbol at a position with an error value has it added. -/
theorem getD_addErrors_of_mem {w : List Byte} {pos : List Nat} (hnodup : pos.Nodup) (f : Nat → Byte) {j : Nat}
    (hj : j < w.length) (hmem : j ∈ pos) :
    (addErrors w (pos.map fun i => (i, f i))).getD j 0#8 = w.getD j 0#8 ^^^ f j := by
  induction pos generalizing w with
  | nil => cases hmem
  | cons i pos ih =>
    obtain ⟨hi, hpos⟩ := List.nodup_cons.mp hnodup
    have hstep : addErrors w ((i :: pos).map fun i => (i, f i)) =
        addErrors (w.modify i (· ^^^ f i)) (pos.map fun i => (i, f i)) := rfl
    rw [hstep]
    by_cases hij : i = j
    · subst hij
      rw [getD_addErrors_of_not_mem (by simpa using hj) (by simpa [Function.comp_def] using hi), getD_modify _ _ hj,
        if_pos rfl]
    · rw [ih hpos (by simpa using hj) ((List.mem_cons.mp hmem).resolve_left (Ne.symm hij)), getD_modify _ _ hj,
        if_neg hij]

/-- Adding error values changes no more positions than there are values. -/
theorem distance_addErrors_le (w : List Byte) (errors : List (Nat × Byte)) :
    Claims.distance w (addErrors w errors) ≤ errors.length := by
  rw [distance_eq_card (length_addErrors w errors).symm]
  have hsub : diffSet w (addErrors w errors) ⊆ (errors.map Prod.fst).toFinset := fun j hj => by
    obtain ⟨hlt, hne⟩ := mem_diffSet.mp hj
    by_contra hmem
    exact hne (getD_addErrors_of_not_mem hlt (by simpa using hmem)).symm
  calc (diffSet w (addErrors w errors)).card ≤ (errors.map Prod.fst).toFinset.card := card_le_card hsub
    _ ≤ (errors.map Prod.fst).length := List.toFinset_card_le _
    _ = errors.length := List.length_map _

/-- Adding the differences at the positions where two words differ turns the one into the other. -/
theorem addErrors_diff {w x : List Byte} (hlen : w.length = x.length) {pos : List Nat} (hnodup : pos.Nodup)
    (hpos : ∀ j, j ∈ pos ↔ j ∈ diffSet w x) :
    addErrors w (pos.map fun j => (j, w.getD j 0#8 ^^^ x.getD j 0#8)) = x := by
  refine List.ext_getElem (by simp [hlen]) fun j hj hj' => ?_
  have hjw : j < w.length := by simpa using hj
  rw [← List.getD_eq_getElem _ 0#8 hj, ← List.getD_eq_getElem _ 0#8 hj']
  by_cases hmem : j ∈ pos
  · rw [getD_addErrors_of_mem hnodup _ hjw hmem, ← BitVec.xor_assoc, BitVec.xor_self, BitVec.zero_xor]
  · rw [getD_addErrors_of_not_mem hjw (by simpa [Function.comp_def] using hmem)]
    by_contra hne
    exact hmem ((hpos j).mpr (mem_diffSet.mpr ⟨hjw, hne⟩))

/-! ### What the decoder answers is within its radius -/

theorem length_errorLocator_le {c : Config} {synd locator : List Byte} (h : errorLocator c synd = some locator) :
    locator.length ≤ rsRadius + 1 := by
  obtain ⟨l, hl, hsome⟩ := List.exists_of_findSome?_eq_some h
  obtain ⟨xs, hxs, rfl⟩ := Option.map_eq_some_iff.mp hsome
  have hlt := (List.mem_range'_1.mp hl).2
  rw [List.length_cons, length_solveLinear hxs]
  omega

/-- What the steps 2 to 4 of R110 ask of an answer. -/
theorem correctWith_eq_some_iff {c : Config} {w synd locator x : List Byte} :
    correctWith c w synd locator = some x ↔
      locator.getLastD 0#8 ≠ 0#8 ∧ (errorPositions c locator).length = locator.length - 1 ∧
        (errorPositions c locator).any (rsCodeLen ≤ ·) = false ∧
        ∃ values,
          solveLinear c.rsPrimPoly (errorPositions c locator).length (errorRows c synd (errorPositions c locator)) =
              some values ∧
            addErrors w ((errorPositions c locator).zip values) = x ∧ isCodeword c x = true := by
  unfold correctWith
  dsimp only
  split_ifs with hlast hcount hany
  · exact ⟨nofun, fun ⟨hne, _⟩ => absurd hlast hne⟩
  · exact ⟨nofun, fun ⟨_, heq, _⟩ => absurd heq hcount⟩
  · exact ⟨nofun, fun ⟨_, _, hinside, _⟩ => absurd hany (by simp [hinside])⟩
  · rw [Bool.not_eq_true] at hany
    cases hvalues : solveLinear c.rsPrimPoly (errorPositions c locator).length
      (errorRows c synd (errorPositions c locator)) with
    | none => simp
    | some values =>
      simp only [Option.ite_none_right_eq_some, Option.some.injEq, hlast, not_not.mp hcount, hany, ne_eq,
        not_false_eq_true, true_and, exists_eq_left']
      exact ⟨fun ⟨hcode, heq⟩ => ⟨heq, heq ▸ hcode⟩, fun ⟨heq, hcode⟩ => ⟨heq ▸ hcode, heq⟩⟩

/-- A correction passes the check of its syndromes and changes as many positions as the locator allows. -/
theorem correctWith_sound {c : Config} {w synd locator x : List Byte} (h : correctWith c w synd locator = some x) :
    x.length = w.length ∧ isCodeword c x = true ∧ Claims.distance w x ≤ locator.length - 1 := by
  obtain ⟨-, hcount, -, values, hvalues, rfl, hcode⟩ := correctWith_eq_some_iff.mp h
  refine ⟨length_addErrors .., hcode, (distance_addErrors_le ..).trans ?_⟩
  rw [List.length_zip, length_solveLinear hvalues, min_self, hcount]

theorem distance_self (w : List Byte) : Claims.distance w w = 0 := by
  simp [distance_eq_card rfl, diffSet]

/-- Whatever the parameters: an answer of the decoder is a codeword within its radius. -/
theorem rsCorrect_sound {c : Config} {w x : List Byte} (h : rsCorrect c w = some x) :
    x.length = w.length ∧ isCodeword c x = true ∧ Claims.distance w x ≤ rsRadius := by
  unfold rsCorrect at h
  split at h
  case isTrue hcode =>
    obtain rfl := Option.some.inj h
    exact ⟨rfl, hcode, by simp [distance_self]⟩
  case isFalse =>
    split at h
    · cases h
    case h_2 locator hlocator =>
      obtain ⟨hlen, hcode, hdist⟩ := correctWith_sound h
      have hlocator := length_errorLocator_le hlocator
      exact ⟨hlen, hcode, by omega⟩

/-! ### Every word within the radius is corrected (R109) -/

section Correct

variable {c : Config} {w x xs : List Byte} (h : c.Admissible) (hlen : w.length = x.length)
  (hw : w.length = rsCodeLen) (hx : isCodeword c x = true) (hxs : xs.length = (diffSet w x).card)
  (hcard : (diffSet w x).card ≤ rsRadius)
  (hsol : Solves c.rsPrimPoly (locatorRows (syndromes c w) xs.length) xs)

include h hlen hw hx hxs hcard hsol in
/-- The zeros of the locator are the errors (R110 step 2). -/
theorem mem_errorPositions_iff {j : Nat} : j ∈ errorPositions c (1#8 :: xs) ↔ j ∈ diffSet w x := by
  obtain ⟨K, _, ⟨φ⟩⟩ := exists_field_view h
  have hcard' : (diffSet w x).card + xs.length ≤ rsParityLen := by
    have hradius := rsRadius_add_rsRadius; omega
  have hsub := diffSet_subset_range (x := x) hw
  have hmem : j ∈ errorPositions c (1#8 :: xs) ↔ j < 255 ∧ (φ.poly (1#8 :: xs)).eval (φ.node j)⁻¹ = 0 := by
    simp only [errorPositions, List.mem_filter, List.mem_range, beq_iff_eq]
    refine and_congr_right fun hj => ?_
    have hinv : φ.val (alphaPow c (255 - j)) = (φ.node j)⁻¹ := by
      have hone : φ.node 255 = 1 := ByteView.orderOf_alpha h φ ▸ pow_orderOf_eq_one _
      refine eq_inv_of_mul_eq_one_left ?_
      rw [φ.val_alphaPow h, ← hone]
      simp only [ByteView.node]
      rw [← pow_add, Nat.sub_add_cancel (by omega)]
    rw [← φ.val_eq_zero, φ.val_polyEval_eq_eval, hinv]
  rw [hmem]
  refine ⟨fun ⟨hj, hroot⟩ => ?_, fun hj =>
    ⟨mem_range.mp (hsub hj), φ.eval_locator_eq_zero h hlen hw hx hcard' hsol hj⟩⟩
  by_contra hnot
  have hle : (insert j (diffSet w x)).card ≤ xs.length := by
    refine φ.card_le_of_locator_roots h (fun i hi => List.getD_eq_default _ _ (by simpa using hi)) ?_ ?_
    · exact insert_subset (mem_range.mpr hj) hsub
    · simpa [hroot] using fun i hi => φ.eval_locator_eq_zero h hlen hw hx hcard' hsol hi
  rw [card_insert_of_notMem hnot] at hle
  omega

include h hlen hw hx hxs hcard hsol in
/-- The locator has its full degree: a shorter one would have too many zeros. -/
theorem getLastD_locator_ne_zero (hpos : 0 < (diffSet w x).card) : (1#8 :: xs).getLastD 0#8 ≠ 0#8 := by
  obtain ⟨K, _, ⟨φ⟩⟩ := exists_field_view h
  intro hlast
  have hlast' : (1#8 :: xs).getD xs.length 0#8 = 0#8 := by
    simpa [List.getLastD_eq_getLast?, List.getLast?_eq_getElem?] using hlast
  have hle : (diffSet w x).card ≤ xs.length - 1 := by
    refine φ.card_le_of_locator_roots h (fun i hi => ?_) (diffSet_subset_range hw) fun j hj =>
      φ.eval_locator_eq_zero h hlen hw hx ?_ hsol hj
    · rcases (show i = xs.length ∨ xs.length < i by omega) with rfl | hlt
      · exact hlast'
      · exact List.getD_eq_default _ _ (by simpa using hlt)
    · have hradius := rsRadius_add_rsRadius; omega
  omega

theorem nodup_errorPositions (c : Config) (locator : List Byte) : (errorPositions c locator).Nodup :=
  List.nodup_range.filter _

section ErrorValues

variable {pos : List Nat} (hnodup : pos.Nodup) (hpos : ∀ j, j ∈ pos ↔ j ∈ diffSet w x)

include hpos in
theorem toFinset_eq_diffSet : pos.toFinset = diffSet w x := Finset.ext fun j => by simpa using hpos j

include hnodup hpos in
theorem length_eq_card_diffSet : pos.length = (diffSet w x).card := by
  rw [← toFinset_eq_diffSet hpos, List.toFinset_card_of_nodup hnodup]

variable {K : Type} [Field K] (φ : ByteView c.rsPrimPoly K)

include h hlen hx hnodup hpos hcard in
/-- The equations for the error values compare power sums of the values and of the differences (R110 step 3). -/
theorem ByteView.solves_errorRows_iff (f : Nat → Byte) :
    Solves c.rsPrimPoly (errorRows c (syndromes c w) pos) (pos.map f) ↔
      ∀ k, k < pos.length → ∑ j ∈ diffSet w x,
        (φ.val (f j) + φ.val (w.getD j 0#8 ^^^ x.getD j 0#8)) * φ.node j ^ c.rsFcr * φ.node j ^ k = 0 := by
  simp only [Solves, errorRows, List.forall_mem_map, List.mem_range]
  refine forall₂_congr fun k hk => ?_
  have hk' : k < rsParityLen := by
    have hradius := rsRadius_add_rsRadius
    have hposlen := length_eq_card_diffSet hnodup hpos
    omega
  rw [← φ.val_eq_zero, φ.val_rowValue_map _ _ _ hnodup, toFinset_eq_diffSet hpos, val_getD_syndromes w hk',
    φ.val_syndrome h hlen hx hk', ← sum_add_distrib]
  refine Eq.congr_left (sum_congr rfl fun j _ => ?_)
  rw [φ.val_alphaPow h, ByteView.errorTerm, φ.val_xor]
  simp only [ByteView.node]
  ring

include h hlen hw hx hnodup hpos hcard in
/-- The differences are the only solution of the equations for the error values (R110 step 3). -/
theorem solveLinear_errorRows :
    solveLinear c.rsPrimPoly pos.length (errorRows c (syndromes c w) pos) =
      some (pos.map fun j => w.getD j 0#8 ^^^ x.getD j 0#8) := by
  obtain ⟨K, _, ⟨φ⟩⟩ := exists_field_view h
  have hsolves := φ.solves_errorRows_iff h hlen hx hcard hnodup hpos
  have hrowlen : ∀ r ∈ errorRows c (syndromes c w) pos, r.length = pos.length + 1 := by
    simp [errorRows]
  obtain ⟨values, hvalues⟩ := solveLinear_complete h hrowlen (List.length_map _)
    ((hsolves fun j => w.getD j 0#8 ^^^ x.getD j 0#8).mpr fun k hk => by simp [φ.add_self])
  have hvalueslen := length_solveLinear hvalues
  have hmap : values = pos.map fun j => values.getD (pos.idxOf j) 0#8 :=
    List.ext_getElem (by simp [hvalueslen]) fun i hi hi' => by
      simp [hnodup.idxOf_getElem i (by simpa using hi'), hi]
  have hsound := solveLinear_sound hrowlen hvalues
  rw [hmap, hsolves] at hsound
  rw [hvalues, hmap]
  refine congrArg some (List.map_congr_left fun j hj => ?_)
  have hzero := eq_zero_of_power_sums ((φ.node_injOn h).mono (diffSet_subset_range hw))
    (fun k hk => hsound k (length_eq_card_diffSet hnodup hpos ▸ hk)) ((hpos j).mp hj)
  rw [mul_eq_zero, φ.add_eq_zero, φ.val_inj] at hzero
  exact hzero.resolve_right (pow_ne_zero _ (φ.node_ne_zero h j))

end ErrorValues

include h hlen hw hx hxs hcard hsol in
/-- With the locator of the errors the word is corrected to the codeword. -/
theorem correctWith_locator (hpos : 0 < (diffSet w x).card) :
    correctWith c w (syndromes c w) (1#8 :: xs) = some x := by
  have hmem : ∀ j, j ∈ errorPositions c (1#8 :: xs) ↔ j ∈ diffSet w x := fun j =>
    mem_errorPositions_iff h hlen hw hx hxs hcard hsol
  have hnodup := nodup_errorPositions c (1#8 :: xs)
  have hcount : (errorPositions c (1#8 :: xs)).length = (1#8 :: xs).length - 1 := by
    rw [length_eq_card_diffSet hnodup hmem, List.length_cons, hxs, Nat.add_sub_cancel]
  have hinside : (errorPositions c (1#8 :: xs)).any (rsCodeLen ≤ ·) = false := by
    rw [List.any_eq_false]
    intro j hj
    have hlt := (mem_diffSet.mp ((hmem j).mp hj)).1
    simpa [hw] using hlt
  have hzip := List.zip_map' (f := id) (g := fun j => w.getD j 0#8 ^^^ x.getD j 0#8)
    (l := errorPositions c (1#8 :: xs))
  rw [List.map_id] at hzip
  refine correctWith_eq_some_iff.mpr ⟨getLastD_locator_ne_zero h hlen hw hx hxs hcard hsol hpos, hcount, hinside, _,
    solveLinear_errorRows h hlen hw hx hcard hnodup hmem, ?_, hx⟩
  rw [hzip]
  exact addErrors_diff hlen hnodup hmem

end Correct

/-- A word within 12 positions of a codeword is corrected to it (R109). -/
theorem rsCorrect_eq_some {c : Config} {w x : List Byte} (h : c.Admissible) (hw : w.length = rsCodeLen)
    (hxlen : x.length = rsCodeLen) (hx : isCodeword c x = true) (hdist : Claims.distance w x ≤ rsRadius) :
    rsCorrect c w = some x := by
  have hlen := hw.trans hxlen.symm
  unfold rsCorrect
  split
  case isTrue hcode =>
    by_contra hne
    have hfar := codewordsDifferInTwentyFivePlaces c w x h hw hxlen hcode hx fun heq => hne (congrArg some heq)
    simp only [rsRadius] at hdist
    omega
  case isFalse hcode =>
    have hcard := distance_eq_card hlen ▸ hdist
    have hpos : 0 < (diffSet w x).card := by
      refine card_pos.mpr (nonempty_iff_ne_empty.mpr fun hempty => hcode ?_)
      rwa [eq_of_diffSet_eq_empty hlen hempty]
    obtain ⟨xs, hxs, hsol, hlocator⟩ := exists_errorLocator h hlen hw hx hpos hcard
    rw [hlocator]
    exact correctWith_locator h hlen hw hx hxs hcard hsol hpos

/-- Settles O34: a word within the radius of a codeword is corrected to it, and only such a word is corrected. -/
theorem rsDecodeIsBoundedDistance : Obligations.RsDecodeIsBoundedDistance := by
  intro c w h hw
  by_cases hball : ∃ x : List Byte, x.length = 156 ∧ isCodeword c x = true ∧ Claims.distance w x ≤ 12
  · obtain ⟨x, hxlen, hx, hdist⟩ := hball
    have hcorrect := rsCorrect_eq_some h hw hxlen hx hdist
    refine .inl ⟨x, hxlen, hx, hdist, fun y hylen hy hydist => ?_, by rw [rsDecode, hcorrect]⟩
    exact Option.some.inj ((rsCorrect_eq_some h hw hylen hy hydist).symm.trans hcorrect)
  · refine .inr ⟨fun x hxlen hx => by_contra fun hdist => hball ⟨x, hxlen, hx, not_lt.mp hdist⟩, ?_⟩
    cases hcorrect : rsCorrect c w with
    | none => rw [rsDecode, hcorrect]
    | some x =>
      obtain ⟨hxlen, hx, hdist⟩ := rsCorrect_sound hcorrect
      exact absurd ⟨x, hxlen.trans hw, hx, hdist⟩ hball

end Sys2Proof.Machine

namespace Sys2Proof.Machine

/-! ### The symbols of a stream in the frame (R105, R106) -/

/-- Where symbol `j` of the codeword of stream `k` stands in `MSG`. -/
def symbolAddr (c : Config) (k : Fin 2) (j : Nat) : Nat :=
  if j < 24 then parBase c k + j else dataBase k + 2 * (j - 24)

theorem symbolAddr_of_lt (c : Config) (k : Fin 2) {j : Nat} (hj : j < 24) :
    symbolAddr c k j = parBase c k + j := if_pos hj

theorem symbolAddr_add (c : Config) (k : Fin 2) (i : Nat) :
    symbolAddr c k (24 + i) = dataBase k + 2 * i := by
  rw [symbolAddr, if_neg (by omega), Nat.add_sub_cancel_left]

theorem dataBase_eq (k : Fin 2) : dataBase k = 56 + k := rfl

theorem parBase_bounds {c : Config} (h : c.Admissible) (k : Fin 2) : 8 ≤ parBase c k ∧ parBase c k + 24 ≤ 56 := by
  obtain rfl | rfl : k = 0 ∨ k = 1 := by omega
  all_goals rcases h.parBase_cases with ⟨h0, h1⟩ | ⟨h0, h1⟩ <;> omega

/-- Every symbol lies in the frame, behind the header. -/
theorem symbolAddr_bounds {c : Config} (h : c.Admissible) (k : Fin 2) {j : Nat} (hj : j < 156) :
    8 ≤ symbolAddr c k j ∧ symbolAddr c k j < 320 := by
  have hpar := parBase_bounds h k
  have hk := k.isLt
  simp only [symbolAddr, dataBase_eq]
  split <;> omega

theorem symbolAddr_inj {c : Config} (h : c.Admissible) {k l : Fin 2} {i j : Nat} (hi : i < 156)
    (hj : j < 156) (heq : symbolAddr c k i = symbolAddr c l j) : k = l ∧ i = j := by
  have hkl : k = l ∨ parBase c k + 24 ≤ parBase c l ∨ parBase c l + 24 ≤ parBase c k := by
    obtain rfl | rfl : k = 0 ∨ k = 1 := by omega
    all_goals obtain rfl | rfl : l = 0 ∨ l = 1 := by omega
    all_goals rcases h.parBase_cases with ⟨h0, h1⟩ | ⟨h0, h1⟩ <;> omega
  have hk := parBase_bounds h k
  have hl := parBase_bounds h l
  have hk' := k.isLt
  have hl' := l.isLt
  simp only [symbolAddr, dataBase_eq] at heq
  rcases hkl with rfl | hdisjoint
  · split at heq <;> split at heq <;> omega
  · rw [Fin.ext_iff]
    split at heq <;> split at heq <;> omega

/-- The symbols of the two streams are all bytes of the frame behind its header. -/
theorem exists_symbolAddr {c : Config} (h : c.Admissible) {a : Nat} (hlo : 8 ≤ a) (hhi : a < 320) :
    ∃ k j, j < 156 ∧ symbolAddr c k j = a ∧ (56 ≤ a → 24 ≤ j) := by
  by_cases hdata : 56 ≤ a
  · refine ⟨⟨a % 2, by omega⟩, 24 + (a - 56) / 2, ?_, ?_, fun _ => by omega⟩
    · omega
    · rw [symbolAddr_add, dataBase_eq]; dsimp only; omega
  · have hhalf : ∃ k, parBase c k ≤ a ∧ a < parBase c k + 24 := by
      by_cases h0 : parBase c 0 ≤ a ∧ a < parBase c 0 + 24
      · exact ⟨0, h0⟩
      · exact ⟨1, by rcases h.parBase_cases with hcase | hcase <;> omega⟩
    obtain ⟨k, hk⟩ := hhalf
    refine ⟨k, a - parBase c k, by omega, ?_, fun _ => by omega⟩
    rw [symbolAddr_of_lt c k (by omega)]; omega

/-- The codeword of a stream, symbol by symbol (R106). -/
theorem State.codeword_eq_map (s : State) (k : Fin 2) :
    s.codeword k = (List.range 156).map fun j => s.msg.read (symbolAddr s.cfg k j) := by
  refine List.ext_getElem (by simp [rsCodeLen]) fun j hj hj' => ?_
  simp only [State.codeword, State.streamParity, State.streamData, Memory.readBytes_eq_map, List.getElem_append,
    List.getElem_map, List.getElem_range, List.length_map, List.length_range]
  split
  case isTrue hj => rw [symbolAddr_of_lt _ _ hj]
  case isFalse hj => rw [symbolAddr, if_neg (show ¬ j < 24 from hj)]; rfl

theorem State.getD_codeword (s : State) (k : Fin 2) {j : Nat} (hj : j < 156) :
    (s.codeword k).getD j 0#8 = s.msg.read (symbolAddr s.cfg k j) := by
  simp [State.codeword_eq_map, hj]

theorem State.codeword_congr {s t : State} {k : Fin 2} (hcfg : t.cfg = s.cfg)
    (hread : ∀ j, j < 156 → t.msg.read (symbolAddr s.cfg k j) = s.msg.read (symbolAddr s.cfg k j)) :
    t.codeword k = s.codeword k := by
  rw [State.codeword_eq_map, State.codeword_eq_map, hcfg]
  exact List.map_congr_left fun j hj => hread j (List.mem_range.mp hj)

theorem State.codeword_eq_codewordOf (s : State) (k : Fin 2) : s.codeword k = Claims.codewordOf s k := by
  rw [State.codeword, State.streamParity, Memory.readBytes_eq_map]
  rfl

/-! ### `RS.ENC` (R112) -/

theorem State.Inv.encodeStream {s : State} (h : s.Inv) (k : Fin 2) : (s.encodeStream k).Inv where
  admissible := h.admissible
  msg_wf := Memory.wf_writeBytes h.msg_wf (by
    have hpar := parBase_bounds h.admissible k
    simp only [length_rsParity, rsParityLen, msgSize]; omega)
  sft_wf := h.sft_wf

theorem State.read_encodeStream {s : State} (h : s.Inv) (k : Fin 2) (a : Nat) :
    (s.encodeStream k).msg.read a =
      if parBase s.cfg k ≤ a ∧ a < parBase s.cfg k + 24 then
        (rsParity s.cfg (s.streamData k)).getD (a - parBase s.cfg k) 0#8
      else s.msg.read a := by
  have hpar := parBase_bounds h.admissible k
  have hfit : parBase s.cfg k + (rsParity s.cfg (s.streamData k)).length ≤ msgSize := by
    simp only [length_rsParity, rsParityLen, msgSize]; omega
  rw [State.encodeStream_msg, Memory.read_writeBytes h.msg_wf hfit, length_rsParity]
  rfl

/-- Encoding a stream writes no data symbol. -/
theorem State.streamData_encodeStream {s : State} (h : s.Inv) (k l : Fin 2) :
    (s.encodeStream k).streamData l = s.streamData l := by
  have hpar := parBase_bounds h.admissible k
  refine List.map_congr_left fun i _ => ?_
  rw [State.read_encodeStream h, if_neg (by rw [dataBase_eq]; omega)]

/-- The state `RS.ENC` leaves, before its response. -/
def State.encoded (s : State) : State := (s.encodeStream 0).encodeStream 1

theorem exec_rsEnc (s : State) : exec .rsEnc s = .next (s.encoded.respond []) := rfl

theorem State.Inv.encoded {s : State} (h : s.Inv) : s.encoded.Inv := (h.encodeStream 0).encodeStream 1

theorem State.read_encoded {s : State} (h : s.Inv) (a : Nat) :
    s.encoded.msg.read a =
      if parBase s.cfg 0 ≤ a ∧ a < parBase s.cfg 0 + 24 then
        (rsParity s.cfg (s.streamData 0)).getD (a - parBase s.cfg 0) 0#8
      else if parBase s.cfg 1 ≤ a ∧ a < parBase s.cfg 1 + 24 then
        (rsParity s.cfg (s.streamData 1)).getD (a - parBase s.cfg 1) 0#8
      else s.msg.read a := by
  rw [State.encoded, State.read_encodeStream (h.encodeStream 0), State.read_encodeStream h,
    State.streamData_encodeStream h, State.encodeStream_cfg]
  rcases h.admissible.parBase_cases with hcase | hcase <;> split_ifs <;> first | rfl | omega

/-- Outside the parity region `RS.ENC` changes nothing. -/
theorem State.read_encoded_of_outside {s : State} (h : s.Inv) {a : Nat} (ha : a < 8 ∨ 56 ≤ a) :
    s.encoded.msg.read a = s.msg.read a := by
  have h0 := parBase_bounds h.admissible 0
  have h1 := parBase_bounds h.admissible 1
  rw [State.read_encoded h, if_neg (by omega), if_neg (by omega)]

/-- After `RS.ENC` each parity half holds the parity of its stream. -/
theorem State.read_encoded_parity {s : State} (h : s.Inv) (k : Fin 2) {j : Nat} (hj : j < 24) :
    s.encoded.msg.read (parBase s.cfg k + j) = (rsParity s.cfg (s.streamData k)).getD j 0#8 := by
  rw [State.read_encoded h]
  obtain rfl | rfl : k = 0 ∨ k = 1 := by omega
  · rw [if_pos (by omega), Nat.add_sub_cancel_left]
  · rw [if_neg (by rcases h.admissible.parBase_cases with hcase | hcase <;> omega), if_pos (by omega),
      Nat.add_sub_cancel_left]

/-- Settles O29: stream 1 is encoded after stream 0, whose parity holds none of its data. -/
theorem rsEncWritesBothParities : Obligations.RsEncWritesBothParities := by
  intro s h
  exact ⟨_, exec_rsEnc s, rfl, State.read_encoded h⟩

/-- After `RS.ENC` both streams hold codewords (R112). -/
theorem State.isCodeword_encoded {s : State} (h : s.Inv) (k : Fin 2) :
    isCodeword s.cfg (s.encoded.codeword k) = true := by
  have hdata : s.encoded.streamData k = s.streamData k := by
    rw [State.encoded, State.streamData_encodeStream (h.encodeStream 0), State.streamData_encodeStream h]
  have hparity : s.encoded.streamParity k = rsParity s.cfg (s.streamData k) := by
    rw [State.streamParity, Memory.readBytes_eq_map]
    refine List.ext_getElem (by simp) fun j hj hj' => ?_
    have hlt : j < 24 := by simpa [rsParityLen] using hj
    rw [List.getElem_map, List.getElem_range, ← List.getD_eq_getElem _ 0#8 hj']
    exact State.read_encoded_parity h k hlt
  rw [State.codeword, hparity, hdata]
  exact (parityCompletesACodeword s.cfg _ h.admissible (s.length_streamData k)).2

/-! ### `RS.DEC` (R113) -/

@[simp] theorem length_rsDecode (c : Config) (w : List Byte) : (rsDecode c w).2.length = w.length := by
  cases hcorrect : rsCorrect c w with
  | none => simp [rsDecode, hcorrect]
  | some x => simpa [rsDecode, hcorrect] using (rsCorrect_sound hcorrect).1

theorem mem_dataCells_iff {k : Fin 2} {d : List Byte} {cell : Host.Cell} :
    cell ∈ dataCells k d ↔ ∃ i, i < d.length ∧ cell = (dataBase k + 2 * i, d.getD i 0#8) := by
  simp only [dataCells, List.mem_map, Prod.exists, List.mem_zipIdx_iff_getElem?, List.getElem?_eq_some_iff]
  constructor
  · rintro ⟨b, i, ⟨hi, hb⟩, rfl⟩
    exact ⟨i, hi, by simp [hi, hb]⟩
  · rintro ⟨i, hi, rfl⟩
    exact ⟨d[i], i, ⟨hi, rfl⟩, by simp [hi]⟩

theorem dataCells_lt_msgSize {k : Fin 2} {d : List Byte} (hd : d.length = rsDataLen) :
    ∀ cell ∈ dataCells k d, cell.1 < msgSize := by
  intro cell hcell
  obtain ⟨i, hi, rfl⟩ := mem_dataCells_iff.mp hcell
  have hk := k.isLt
  simp only [rsDataLen] at hd
  simp only [dataBase_eq, msgSize]
  omega

/-- Reading after storing cells, at an address that none of them has. -/
theorem Memory.read_writeCells_of_forall_ne {size : Nat} {m : Memory} (h : Memory.wf size m = true)
    {cells : List Host.Cell} (hc : ∀ cell ∈ cells, cell.1 < size) {a : Nat} (ha : ∀ cell ∈ cells, cell.1 ≠ a) :
    (m.writeCells cells).read a = m.read a := by
  rw [Memory.read_writeCells h hc, List.find?_eq_none.mpr (by simpa using ha)]
  rfl

/-- Reading after storing cells, at an address whose cells all hold the same byte. -/
theorem Memory.read_writeCells_of_mem {size : Nat} {m : Memory} (h : Memory.wf size m = true)
    {cells : List Host.Cell} (hc : ∀ cell ∈ cells, cell.1 < size) {a : Nat} {b : Byte} (hmem : (a, b) ∈ cells)
    (hsame : ∀ cell ∈ cells, cell.1 = a → cell.2 = b) : (m.writeCells cells).read a = b := by
  rw [Memory.read_writeCells h hc]
  cases hfind : cells.reverse.find? fun cell => cell.1 == a with
  | none => simpa using List.find?_eq_none.mp hfind (a, b) (List.mem_reverse.mpr hmem)
  | some cell =>
    have hcell := List.mem_of_find?_eq_some hfind
    exact hsame cell (List.mem_reverse.mp hcell) (by simpa using List.find?_some hfind)

section StoreCorrected

variable {s : State} (h : s.Inv) (k : Fin 2) {w : List Byte} (hw : w.length = rsCodeLen)

include hw in
theorem length_drop_rsParityLen : (w.drop rsParityLen).length = rsDataLen := by
  rw [List.length_drop, hw]; rfl

include hw in
theorem length_take_rsParityLen : (w.take rsParityLen).length = 24 := by
  rw [List.length_take, hw]; rfl

include h hw in
theorem Memory.wf_writeCells_dataCells :
    Memory.wf msgSize (s.msg.writeCells (dataCells k (w.drop rsParityLen))) = true :=
  Memory.wf_writeCells h.msg_wf (dataCells_lt_msgSize (length_drop_rsParityLen hw))

theorem State.storeCorrected_msg (s : State) (k : Fin 2) (w : List Byte) :
    (s.storeCorrected k w).msg =
      if s.cfg.rsDecWritesParity then
        (s.msg.writeCells (dataCells k (w.drop rsParityLen))).writeBytes (parBase s.cfg k) (w.take rsParityLen)
      else s.msg.writeCells (dataCells k (w.drop rsParityLen)) := rfl

include h hw in
theorem State.wf_storeCorrected : Memory.wf msgSize (s.storeCorrected k w).msg = true := by
  have hdata := Memory.wf_writeCells_dataCells h k hw
  have hpar := parBase_bounds h.admissible k
  rw [State.storeCorrected_msg]
  split
  · exact Memory.wf_writeBytes hdata (by rw [length_take_rsParityLen hw, msgSize]; omega)
  · exact hdata

include h hw in
/-- A byte outside the parity half of the stream is what the write-back of the data leaves. -/
theorem State.read_storeCorrected_of_not_parity {a : Nat} (ha : a < parBase s.cfg k ∨ parBase s.cfg k + 24 ≤ a) :
    (s.storeCorrected k w).msg.read a = (s.msg.writeCells (dataCells k (w.drop rsParityLen))).read a := by
  have hpar := parBase_bounds h.admissible k
  rw [State.storeCorrected_msg]
  split
  · rw [Memory.read_writeBytes (Memory.wf_writeCells_dataCells h k hw)
      (by rw [length_take_rsParityLen hw, msgSize]; omega), length_take_rsParityLen hw, if_neg (by omega)]
  · rfl

include h hw in
/-- The data symbols become those of the corrected word, the parity symbols if the parameter says so (R113). -/
theorem State.read_storeCorrected_symbol {j : Nat} (hj : j < 156) :
    (s.storeCorrected k w).msg.read (symbolAddr s.cfg k j) =
      if decide (24 ≤ j) || s.cfg.rsDecWritesParity then w.getD j 0#8 else s.msg.read (symbolAddr s.cfg k j) := by
  have hpar := parBase_bounds h.admissible k
  have hlen := length_drop_rsParityLen hw
  by_cases hdata : 24 ≤ j
  · obtain ⟨i, rfl⟩ := Nat.exists_eq_add_of_le hdata
    rw [symbolAddr_add, State.read_storeCorrected_of_not_parity h k hw (by rw [dataBase_eq]; omega)]
    simp only [hdata, decide_true, Bool.true_or, if_true]
    refine Memory.read_writeCells_of_mem h.msg_wf (dataCells_lt_msgSize hlen) ?_ fun cell hcell haddr => ?_
    · exact mem_dataCells_iff.mpr ⟨i, by rw [hlen, rsDataLen]; omega, by simp [rsParityLen]⟩
    · obtain ⟨i', -, rfl⟩ := mem_dataCells_iff.mp hcell
      obtain rfl : i' = i := by dsimp only at haddr; omega
      simp [rsParityLen]
  · rw [symbolAddr_of_lt _ _ (not_le.mp hdata), State.storeCorrected_msg]
    simp only [hdata, decide_false, Bool.false_or]
    split
    · rw [Memory.read_writeBytes (Memory.wf_writeCells_dataCells h k hw)
        (by rw [length_take_rsParityLen hw, msgSize]; omega), length_take_rsParityLen hw, if_pos (by omega),
        Nat.add_sub_cancel_left]
      simp [rsParityLen, not_le.mp hdata]
    · refine Memory.read_writeCells_of_forall_ne h.msg_wf (dataCells_lt_msgSize hlen) fun cell hcell => ?_
      obtain ⟨i, -, rfl⟩ := mem_dataCells_iff.mp hcell
      rw [dataBase_eq]
      dsimp only
      omega

include h hw in
theorem State.read_storeCorrected_other {a : Nat} (ha : ∀ j, j < 156 → symbolAddr s.cfg k j ≠ a) :
    (s.storeCorrected k w).msg.read a = s.msg.read a := by
  have hparity : a < parBase s.cfg k ∨ parBase s.cfg k + 24 ≤ a := by
    by_contra hin
    refine ha (a - parBase s.cfg k) (by omega) ?_
    rw [symbolAddr_of_lt _ _ (by omega)]
    omega
  have hlen := length_drop_rsParityLen hw
  rw [State.read_storeCorrected_of_not_parity h k hw hparity]
  refine Memory.read_writeCells_of_forall_ne h.msg_wf (dataCells_lt_msgSize hlen) fun cell hcell => ?_
  obtain ⟨i, hi, rfl⟩ := mem_dataCells_iff.mp hcell
  rw [hlen, rsDataLen] at hi
  rw [← symbolAddr_add s.cfg]
  exact ha (24 + i) (by omega)

end StoreCorrected

section DecodeStream

variable {s : State} (h : s.Inv) (k : Fin 2)

theorem State.length_corrected (s : State) (k : Fin 2) : (rsDecode s.cfg (s.codeword k)).2.length = rsCodeLen := by
  rw [length_rsDecode, State.length_codeword]

include h in
theorem State.Inv.decodeStream : (s.decodeStream k).Inv where
  admissible := by rw [State.decodeStream_cfg]; exact h.admissible
  msg_wf := by
    rcases s.decodeStream_cases k with ⟨-, heq⟩ | ⟨-, heq⟩ <;> rw [heq]
    · exact h.msg_wf
    · exact State.wf_storeCorrected h k (s.length_corrected k)
  sft_wf := by rw [State.decodeStream_sft]; exact h.sft_wf

/-- Decoding a stream writes `MSG` and its record alone. -/
theorem State.decodeStream_eq (s : State) (k : Fin 2) :
    s.decodeStream k =
      { s with
        msg := (s.decodeStream k).msg
        status := s.status.setRsRec k (rsDecode s.cfg (s.codeword k)).1 } := by
  rcases s.decodeStream_cases k with ⟨hok, heq⟩ | ⟨hok, heq⟩ <;> rw [heq, hok]

include h in
theorem State.read_decodeStream_symbol {j : Nat} (hj : j < 156) :
    (s.decodeStream k).msg.read (symbolAddr s.cfg k j) =
      if (rsDecode s.cfg (s.codeword k)).1 && (decide (24 ≤ j) || s.cfg.rsDecWritesParity) then
        (rsDecode s.cfg (s.codeword k)).2.getD j 0#8
      else s.msg.read (symbolAddr s.cfg k j) := by
  rcases s.decodeStream_cases k with ⟨hok, heq⟩ | ⟨hok, heq⟩ <;> rw [heq, hok]
  · rfl
  · rw [Bool.true_and]
    exact State.read_storeCorrected_symbol h k (s.length_corrected k) hj

include h in
theorem State.read_decodeStream_other {a : Nat} (ha : ∀ j, j < 156 → symbolAddr s.cfg k j ≠ a) :
    (s.decodeStream k).msg.read a = s.msg.read a := by
  rcases s.decodeStream_cases k with ⟨-, heq⟩ | ⟨-, heq⟩ <;> rw [heq]
  exact State.read_storeCorrected_other h k (s.length_corrected k) ha

include h in
/-- The two streams share no byte (R100). -/
theorem State.read_decodeStream_other_stream {l : Fin 2} (hkl : k ≠ l) {j : Nat} (hj : j < 156) :
    (s.decodeStream k).msg.read (symbolAddr s.cfg l j) = s.msg.read (symbolAddr s.cfg l j) :=
  State.read_decodeStream_other h k fun _ hi heq => hkl (symbolAddr_inj h.admissible hi hj heq).1

include h in
theorem State.codeword_decodeStream {l : Fin 2} (hkl : k ≠ l) : (s.decodeStream k).codeword l = s.codeword l :=
  State.codeword_congr (s.decodeStream_cfg k) fun _ hj => State.read_decodeStream_other_stream h k hkl hj

end DecodeStream

/-- The state `RS.DEC` leaves, before its response. -/
def State.decoded (s : State) : State := (s.decodeStream 0).decodeStream 1

theorem exec_rsDec (s : State) : exec .rsDec s = .next (s.decoded.respond [s.decoded.status.rsByte]) := rfl

section Decoded

variable {s : State} (h : s.Inv)

include h in
/-- `RS.DEC` on every byte of the frame behind the header: each stream is decoded from what it was before. -/
theorem State.read_decoded_symbol (k : Fin 2) {j : Nat} (hj : j < 156) :
    s.decoded.msg.read (symbolAddr s.cfg k j) =
      if (rsDecode s.cfg (s.codeword k)).1 && (decide (24 ≤ j) || s.cfg.rsDecWritesParity) then
        (rsDecode s.cfg (s.codeword k)).2.getD j 0#8
      else s.msg.read (symbolAddr s.cfg k j) := by
  have hcfg := s.decodeStream_cfg 0
  obtain rfl | rfl : k = 0 ∨ k = 1 := by omega
  · have hother := State.read_decodeStream_other_stream (h.decodeStream 0) 1 (l := 0) (by decide) hj
    rw [hcfg] at hother
    exact hother.trans (State.read_decodeStream_symbol h 0 hj)
  · have hown := State.read_decodeStream_symbol (h.decodeStream 0) 1 hj
    rwa [hcfg, State.codeword_decodeStream h 0 (by decide), State.read_decodeStream_other_stream h 0 (by decide) hj]
      at hown

include h in
theorem State.read_decoded_of_outside {a : Nat} (ha : a < 8 ∨ 320 ≤ a) : s.decoded.msg.read a = s.msg.read a := by
  have hne (k : Fin 2) : ∀ j, j < 156 → symbolAddr s.cfg k j ≠ a := fun j hj heq => by
    have := symbolAddr_bounds h.admissible k hj
    omega
  have hother := State.read_decodeStream_other (h.decodeStream 0) 1 (a := a) (by simpa using hne 1)
  exact hother.trans (State.read_decodeStream_other h 0 (hne 0))

include h in
theorem State.decoded_eq :
    s.decoded =
      { s with
        msg := s.decoded.msg
        status := { s.status with
          rsRec0 := (rsDecode s.cfg (s.codeword 0)).1
          rsRec1 := (rsDecode s.cfg (s.codeword 1)).1 } } := by
  conv_lhs => rw [State.decoded, State.decodeStream_eq]
  simp [State.codeword_decodeStream h 0 (l := 1) (by decide), State.decoded]

end Decoded

/-- The response byte of `RS.DEC` from the two records (R113): bit 2 is their conjunction. -/
theorem Status.rsByte_records (st : Status) (ok0 ok1 : Bool) :
    Status.rsByte { st with rsRec0 := ok0, rsRec1 := ok1 } =
      if ok0 then (if ok1 then 0x07#8 else 0x01#8) else if ok1 then 0x02#8 else 0x00#8 := by
  dsimp only [Status.rsByte, Status.rsOk]
  revert ok0 ok1
  decide

/-- Settles O35: both streams are decoded from the bytes before the command, since they share none. -/
theorem rsDecCorrectsEachStream : Obligations.RsDecCorrectsEachStream := by
  refine ⟨rfl, fun s h => ⟨_, exec_rsDec s, ?_, fun k i hi => ?_, fun k j hj => ?_, fun a ha => ?_⟩⟩
  · have heq := State.decoded_eq h
    rw [State.codeword_eq_codewordOf, State.codeword_eq_codewordOf] at heq
    rw [congrArg State.status heq, Status.rsByte_records]
    conv_lhs => rw [heq]
    cases (rsDecode s.cfg (Claims.codewordOf s 0)).1 <;> cases (rsDecode s.cfg (Claims.codewordOf s 1)).1 <;> rfl
  · have hread := State.read_decoded_symbol h k (j := 24 + i) (by omega)
    rw [symbolAddr_add, State.codeword_eq_codewordOf] at hread
    simpa [dataBase_eq] using hread
  · have hread := State.read_decoded_symbol h k (j := j) (by omega)
    rw [symbolAddr_of_lt _ _ hj, State.codeword_eq_codewordOf] at hread
    simpa [not_le.mpr hj, parBase] using hread
  · exact State.read_decoded_of_outside h ha


/-! ### `RS.DEC` on streams it can recover (R114) -/

section Recovered

variable {u e : State} (h : u.Inv) (hcfg : u.cfg = e.cfg)
  (hrec : ∀ k, rsDecode u.cfg (u.codeword k) = (true, e.codeword k))

include h hrec in
theorem State.rsByte_of_recovered : u.decoded.status.rsByte = 0x07#8 := by
  rw [congrArg State.status (State.decoded_eq h), Status.rsByte_records, hrec, hrec]
  rfl

include h hcfg hrec in
theorem State.read_decoded_of_recovered {k : Fin 2} {j : Nat} (hj : j < 156)
    (hwrite : 24 ≤ j ∨ u.cfg.rsDecWritesParity = true) :
    u.decoded.msg.read (symbolAddr u.cfg k j) = e.msg.read (symbolAddr u.cfg k j) := by
  rw [State.read_decoded_symbol h k hj, hrec, hcfg, ← State.getD_codeword e k hj, if_pos]
  simpa [← hcfg] using hwrite

end Recovered

/-- Settles O36: both streams hold codewords after `RS.ENC`, and a codeword is decoded to itself. -/
theorem rsDecAfterRsEncChangesNothing : Obligations.RsDecAfterRsEncChangesNothing := by
  intro s t u h henc hdec
  obtain rfl := Host.Outcome.next.inj ((exec_rsEnc s).symm.trans henc)
  obtain rfl := Host.Outcome.next.inj ((exec_rsDec _).symm.trans hdec)
  have hinv : (s.encoded.respond []).Inv := ⟨h.encoded.admissible, h.encoded.msg_wf, h.encoded.sft_wf⟩
  have hrec (k : Fin 2) : rsDecode (s.encoded.respond []).cfg ((s.encoded.respond []).codeword k) =
      (true, (s.encoded.respond []).codeword k) := rsDecode_of_isCodeword (State.isCodeword_encoded h k)
  generalize s.encoded.respond [] = t at hinv hrec
  refine ⟨?_, fun a => ?_⟩
  · rw [State.respond_output, State.rsByte_of_recovered hinv hrec, State.decoded_eq hinv]
  · rw [State.respond_msg]
    by_cases ha : a < 8 ∨ 320 ≤ a
    · exact State.read_decoded_of_outside hinv ha
    · obtain ⟨k, j, hj, rfl, -⟩ := exists_symbolAddr hinv.admissible (a := a) (by omega) (by omega)
      rw [State.read_decoded_symbol hinv k hj, hrec, State.getD_codeword t k hj, ite_self]

/-- Settles O37: a word within 12 positions of the encoded codeword is decoded to it. -/
theorem rsDecRestoresTwelveErrorsPerStream : Obligations.RsDecRestoresTwelveErrorsPerStream := by
  intro s t u v h henc hu hcfg hdist hdec
  obtain rfl := Host.Outcome.next.inj ((exec_rsEnc s).symm.trans henc)
  obtain rfl := Host.Outcome.next.inj ((exec_rsDec _).symm.trans hdec)
  have hrec (k : Fin 2) : rsDecode u.cfg (u.codeword k) = (true, s.encoded.codeword k) := by
    have hnear := hdist k
    rw [← State.codeword_eq_codewordOf, ← State.codeword_eq_codewordOf] at hnear
    have hcorrect := rsCorrect_eq_some (c := u.cfg) (x := s.encoded.codeword k) hu.admissible (u.length_codeword k)
      (s.encoded.length_codeword k) (by rw [hcfg]; exact State.isCodeword_encoded h k) hnear
    rw [rsDecode, hcorrect]
  refine ⟨?_, fun a hlo hhi => ?_, fun hwrites a hlo hhi => ?_⟩
  · rw [State.respond_output, State.rsByte_of_recovered hu hrec, State.decoded_eq hu]
  · obtain ⟨k, j, hj, rfl, hdata⟩ := exists_symbolAddr hu.admissible (a := a) (by omega) hhi
    exact State.read_decoded_of_recovered (e := s.encoded) hu hcfg hrec hj (.inl (hdata hlo))
  · obtain ⟨k, j, hj, rfl, -⟩ := exists_symbolAddr hu.admissible hlo (by omega)
    exact State.read_decoded_of_recovered (e := s.encoded) hu hcfg hrec hj (.inr (hcfg ▸ hwrites))

/-! ### The regions of the frame (R34) -/

/-- A block command writes inside the block region. -/
theorem Effect.read_msg_of_isBlock {i : Instr} {s u : State} (h : s.Inv) (heff : Effect i s u)
    (hblock : Claims.isBlock i = true) {a : Nat} (ha : a < 0x039 ∨ 0x140 ≤ a) : u.msg.read a = s.msg.read a := by
  have hbounds := h.admissible.block_bounds
  have hwrite {m : Memory} (hm : Memory.wf msgSize m = true) (k : Fin 6) {off : Nat} {bytes : List Byte}
      (hlo : s.cfg.blockOff[k] ≤ off) (hhi : off + bytes.length ≤ s.cfg.blockOff[k] + s.cfg.blockLen[k] + 4) :
      (m.writeBytes off bytes).read a = m.read a ∧ Memory.wf msgSize (m.writeBytes off bytes) = true := by
    have hk := hbounds k
    have hfit : off + bytes.length ≤ msgSize := by rw [msgSize]; omega
    exact ⟨by rw [Memory.read_writeBytes hm hfit, if_neg (by omega)], Memory.wf_writeBytes hm hfit⟩
  have hcrc {m : Memory} (hm : Memory.wf msgSize m = true) (k : Fin 6) (crc : BitVec 16) :
      (m.writeBytes (s.blockCrcOff k) (leBytes 2 crc.toNat)).read a = m.read a :=
    (hwrite hm k (by simp only [State.blockCrcOff, State.blockBase]; omega)
      (by simp only [State.blockCrcOff, State.blockBase, State.blockLength, length_leBytes]; omega)).1
  cases i with
  | blkHdr blk =>
    obtain ⟨k, -, rfl⟩ := heff
    exact (hwrite h.msg_wf k le_rfl (by
      simp only [State.blockHeader, List.length_cons, List.length_nil]; omega)).1
  | blkSetcrc blk =>
    obtain ⟨k, -, rfl⟩ := heff
    exact hcrc h.msg_wf k _
  | blkChkcrc blk | blkRead blk =>
    obtain ⟨k, -, rfl⟩ := heff
    rfl
  | blkBuild blk data =>
    obtain ⟨k, -, hlen, rfl⟩ := heff
    have hbody := hwrite h.msg_wf k (off := s.blockBase k) (bytes := s.blockHeader k ++ data) le_rfl (by
      simp only [State.blockBase, State.blockHeader, State.blockLength, List.length_append, List.length_cons,
        List.length_nil] at hlen ⊢
      omega)
    exact (hcrc hbody.2 k _).trans hbody.1
  | _ => cases hblock

/-- A Reed-Solomon command writes inside the parity region and the payload. -/
theorem Effect.read_msg_of_rs {i : Instr} {s u : State} (h : s.Inv) (heff : Effect i s u)
    (hrs : i = .rsEnc ∨ i = .rsDec) {a : Nat} (ha : a < 8 ∨ 0x140 ≤ a) : u.msg.read a = s.msg.read a := by
  rcases hrs with rfl | rfl
  · obtain rfl := heff
    exact State.read_encoded_of_outside h (by omega)
  · obtain rfl := heff
    exact State.read_decoded_of_outside h ha

/-- Settles O13: a command that fails writes no memory, and the effect of each of the others stays in its region. -/
theorem frameCommandsStayInTheirRegion : Obligations.FrameCommandsStayInTheirRegion := by
  intro i s t h hexec
  rcases exec_cases i s with ⟨u, p, heff, hnext⟩ | ⟨e, hnext⟩
  · obtain rfl := Host.Outcome.next.inj (hnext.symm.trans hexec)
    refine ⟨fun hi a ha => ?_, fun hblock a ha => heff.read_msg_of_isBlock h hblock (.inl ha)⟩
    rcases hi with hblock | hrs
    · exact heff.read_msg_of_isBlock h hblock (by omega)
    · exact heff.read_msg_of_rs h hrs ha
  · obtain rfl := Host.Outcome.next.inj (hnext.symm.trans hexec)
    exact ⟨fun _ _ _ => rfl, fun _ _ _ => rfl⟩

end Sys2Proof.Machine

namespace Sys2Proof.Machine

/-! ### Bit reversal (R130) -/

theorem getLsbD_rev8 (b : Byte) {i : Nat} (hi : i < 8) : (rev8 b).getLsbD i = b.getLsbD (7 - i) := by
  rw [rev8, BitVec.getLsbD_ofBoolListLE]
  interval_cases i <;> rfl

/-- Reversing the bits twice gives the byte back (R130). -/
@[simp] theorem rev8_rev8 (b : Byte) : rev8 (rev8 b) = b := by
  refine BitVec.eq_of_getLsbD_eq fun i hi => ?_
  rw [getLsbD_rev8 _ hi, getLsbD_rev8 _ (by omega), show 7 - (7 - i) = i by omega]

theorem rev8_xor (a b : Byte) : rev8 (a ^^^ b) = rev8 a ^^^ rev8 b := by
  refine BitVec.eq_of_getLsbD_eq fun i hi => ?_
  simp only [BitVec.getLsbD_xor, getLsbD_rev8 _ hi]

/-! ### Whitening, byte by byte (R132, R135) -/

theorem whitenFrom_eq_mapIdx (mask : Vector Byte 64) (i : Nat) (x : List Byte) :
    whitenFrom mask i x = x.mapIdx fun j b => rev8 (b ^^^ maskByte mask (i + j)) :=
  List.ext_getElem (by simp) fun j hj _ => by
    rw [getElem_whitenFrom mask i j x (by simpa using hj), List.getElem_mapIdx]

theorem unwhitenFrom_eq_mapIdx (mask : Vector Byte 64) (i : Nat) (y : List Byte) :
    unwhitenFrom mask i y = y.mapIdx fun j b => rev8 b ^^^ maskByte mask (i + j) := by
  induction y generalizing i with
  | nil => rfl
  | cons b y ih => simp [unwhitenFrom, ih, List.mapIdx_cons, Nat.add_assoc, Nat.add_comm 1]

/-- Each byte of a sequence is whitened by itself, with the mask byte of its index (R132). -/
theorem whiten_eq_mapIdx (mask : Vector Byte 64) (x : List Byte) :
    whiten mask x = x.mapIdx fun j b => rev8 (b ^^^ maskByte mask j) := by
  simp [whiten, whitenFrom_eq_mapIdx]

theorem unwhiten_eq_mapIdx (mask : Vector Byte 64) (y : List Byte) :
    unwhiten mask y = y.mapIdx fun j b => rev8 b ^^^ maskByte mask j := by
  simp [unwhiten, unwhitenFrom_eq_mapIdx]

theorem mapIdx_same (x : List Byte) : x.mapIdx (fun _ b => b) = x :=
  List.ext_getElem (by simp) fun _ _ _ => by simp

/-- Two transforms of bytes by their index agree on all sequences exactly when they agree on every byte at every
index: a byte can stand at any index of a sequence. -/
theorem forall_mapIdx_eq_iff {f g : Nat → Byte → Byte} :
    (∀ x : List Byte, x.mapIdx f = x.mapIdx g) ↔ ∀ j b, f j b = g j b := by
  constructor
  · intro h j b
    simpa using congrArg (·[j]?) (h (List.replicate (j + 1) b))
  · intro h x
    rw [funext₂ h]

/-- The mask repeats after 64 bytes, so what holds of its 64 bytes holds at every index (R132). -/
theorem forall_maskByte_iff {mask : Vector Byte 64} {P : Byte → Prop} :
    (∀ j, P (maskByte mask j)) ↔ ∀ j, j < 64 → P (maskByte mask j) := by
  refine ⟨fun h j _ => h j, fun h j => ?_⟩
  have hmod : maskByte mask (j % 64) = maskByte mask j := by simp [maskByte]
  rw [← hmod]
  exact h (j % 64) (Nat.mod_lt j (by decide))

/-! ### `unwhiten` undoes `whiten` (R135) -/

theorem unwhiten_whiten (mask : Vector Byte 64) (x : List Byte) : unwhiten mask (whiten mask x) = x := by
  rw [whiten_eq_mapIdx, unwhiten_eq_mapIdx, List.mapIdx_mapIdx]
  simp [Function.comp_def, mapIdx_same]

theorem whiten_unwhiten (mask : Vector Byte 64) (y : List Byte) : whiten mask (unwhiten mask y) = y := by
  rw [unwhiten_eq_mapIdx, whiten_eq_mapIdx, List.mapIdx_mapIdx]
  simp [Function.comp_def, mapIdx_same]

/-- Undoing the whitening is whitening exactly for a mask of palindromic bytes: at a byte `b` the two add to `rev8 b`
the mask byte and its reversal. -/
theorem unwhiten_eq_whiten_iff {mask : Vector Byte 64} :
    (∀ y, unwhiten mask y = whiten mask y) ↔ ∀ j, j < 64 → rev8 (maskByte mask j) = maskByte mask j := by
  have hbyte (m : Byte) : (∀ b, rev8 b ^^^ m = rev8 (b ^^^ m)) ↔ rev8 m = m := by
    simp only [rev8_xor, BitVec.xor_right_inj, forall_const, eq_comm]
  simp only [whiten_eq_mapIdx, unwhiten_eq_mapIdx, forall_mapIdx_eq_iff, hbyte]
  exact forall_maskByte_iff (P := fun m => rev8 m = m)

/-- Settles O39: XOR with a mask byte and bit reversal each undo themselves, taken in the opposite order. -/
theorem unwhitenInvertsWhiten : Obligations.UnwhitenInvertsWhiten := fun mask =>
  ⟨unwhiten_whiten mask, whiten_unwhiten mask, unwhiten_eq_whiten_iff⟩

/-! ### Whitening twice (R134) -/

theorem whiten_whiten_eq_mapIdx (mask : Vector Byte 64) (x : List Byte) :
    whiten mask (whiten mask x) = x.mapIdx fun j b => b ^^^ maskByte mask j ^^^ rev8 (maskByte mask j) := by
  have hbyte (m b : Byte) : rev8 (rev8 (b ^^^ m) ^^^ m) = b ^^^ m ^^^ rev8 m := by rw [rev8_xor, rev8_rev8]
  simp only [whiten_eq_mapIdx, List.mapIdx_mapIdx, Function.comp_def, hbyte]

/-- Whitening is its own inverse exactly when it is the true inverse `unwhiten`. -/
theorem whiten_whiten_eq_self_iff {mask : Vector Byte 64} :
    (∀ x, whiten mask (whiten mask x) = x) ↔ ∀ y, unwhiten mask y = whiten mask y := by
  refine ⟨fun h y => ?_, fun h x => ?_⟩
  · calc unwhiten mask y = unwhiten mask (whiten mask (whiten mask y)) := by rw [h]
      _ = whiten mask y := unwhiten_whiten mask _
  · rw [← h, unwhiten_whiten]

/-- A byte added to its own reversal is a palindrome (R130). -/
theorem rev8_xor_rev8_self (m : Byte) : rev8 (m ^^^ rev8 m) = m ^^^ rev8 m := by
  rw [rev8_xor, rev8_rev8, BitVec.xor_comm]

/-- Settles O40: byte by byte, and the last clause through the inverse of O39. -/
theorem whitenTwiceAddsTheMaskPattern : Obligations.WhitenTwiceAddsTheMaskPattern := by
  intro mask
  refine ⟨fun x => ?_, fun j => rev8_xor_rev8_self _, whiten_whiten_eq_self_iff.trans unwhiten_eq_whiten_iff⟩
  rw [whiten_whiten_eq_mapIdx]
  exact ⟨List.length_mapIdx, fun i hi => by simp [hi]⟩

/-! ### Commands that store bytes in a bank -/

/-- `MemWrite` in the words of the statements (R32). -/
theorem Memory.stores_writeBytes {size : Nat} {m : Memory} (h : Memory.wf size m = true) {off : Nat} {bytes : List Byte}
    (hfit : off + bytes.length ≤ size) : Claims.Stores m (m.writeBytes off bytes) off bytes :=
  Memory.read_writeBytes h hfit

theorem State.writeBank_eq_withBank (s : State) (b : Bank) (off : Nat) (bytes : List Byte) :
    s.writeBank b off bytes = Claims.withBank s b ((s.bank b).writeBytes off bytes) := by cases b <;> rfl

theorem State.bank_withBank (s : State) (b : Bank) (m : Memory) : (Claims.withBank s b m).bank b = m := by
  cases b <;> rfl

theorem State.bank_respond (s : State) (p : Packet) (b : Bank) : (s.respond p).bank b = s.bank b := by
  cases b <;> rfl

/-- The end of a command that stores bytes in a bank and answers without a payload: the bytes, the response, and
nothing else. -/
theorem finish_writeBank {s : State} {b : Bank} {off : Nat} {bytes : List Byte}
    (hwf : Memory.wf (Claims.bankSize b) (s.bank b) = true) (hfit : off + bytes.length ≤ Claims.bankSize b) :
    ∃ t, finish s (.ok (s.writeBank b off bytes, [])) = .next t ∧
      t = Claims.answered (Claims.withBank s b (t.bank b)) [] ∧ Claims.Stores (s.bank b) (t.bank b) off bytes := by
  have hbank : ((s.writeBank b off bytes).respond []).bank b = (s.bank b).writeBytes off bytes := by
    rw [State.bank_respond, State.writeBank_eq_withBank, State.bank_withBank]
  refine ⟨_, finish_ok _ _ _, ?_, ?_⟩
  · rw [hbank, ← State.writeBank_eq_withBank]; rfl
  · rw [hbank]; exact Memory.stores_writeBytes hwf hfit

/-! ### The command `WHITEN` (R133) -/

/-- `WHITEN` in the shape of the commands that read a range. -/
theorem exec_whiten (addr len : BitVec 16) (s : State) :
    exec (.whiten addr len) s =
      finish s (decodeReadAddr addr >>= fun x => checkRange x.1.size x.2 len.toNat >>= fun _ =>
        .ok (s.writeBank x.1 x.2 (whiten s.cfg.whitenMask (s.readBytes x.1 x.2 len.toNat)), [])) :=
  rfl

/-- The packet of `WHITEN` (R133). -/
theorem decode_whiten (addr len : BitVec 16) :
    decode [0x38#8, Claims.byteOf addr 0, Claims.byteOf addr 1, Claims.byteOf len 0, Claims.byteOf len 1] =
      .ok (.whiten addr len) := by
  have hformat (a0 a1 l0 l1 : Byte) : decode [0x38#8, a0, a1, l0, l1] = .ok (.whiten (u16 a0 a1) (u16 l0 l1)) := rfl
  rw [hformat, u16_byteOf, u16_byteOf]

theorem maskByte_eq_getD (mask : Vector Byte 64) (i : Nat) : maskByte mask i = mask.toList.getD (i % 64) 0#8 := by
  have hlen : i % 64 < mask.toList.length := by simpa using Nat.mod_lt i (by decide)
  rw [List.getD_eq_getElem _ _ hlen, Vector.getElem_toList, maskByte]

/-- The mask index counts from the start of the range, not from address 0 (R133). -/
theorem whiten_readBytes (mask : Vector Byte 64) (s : State) (b : Bank) (off n : Nat) :
    whiten mask (s.readBytes b off n) =
      (List.range n).map fun i => rev8 (Memory.read (s.bank b) (off + i) ^^^ mask.toList.getD (i % 64) 0#8) := by
  rw [State.readBytes, Memory.readBytes_eq_map, whiten_eq_mapIdx]
  exact List.ext_getElem (by simp) fun i _ _ => by
    simp only [List.getElem_mapIdx, List.getElem_map, List.getElem_range, maskByte_eq_getD]

/-- Settles O38: the packet, then the three ends of the command: the range stored, refused address, range that does
not fit. -/
theorem whitenTransformsTheRangeInPlace : Obligations.WhitenTransformsTheRangeInPlace := by
  refine ⟨decode_whiten, fun s b off n hoff hn hfit hwf => ?_, fun s addr len hbad => ?_,
    fun s b off n hoff hn hfit => ?_⟩
  · rw [exec_whiten, BitVec.toNat_ofNat, Nat.mod_eq_of_lt hn, finish_of_range_within hoff hfit, whiten_readBytes]
    exact finish_writeBank hwf (by simpa using hfit)
  · rw [exec_whiten, finish_of_badReadAddr hbad]
  · rw [exec_whiten, BitVec.toNat_ofNat, Nat.mod_eq_of_lt hn, finish_of_range_beyond hoff hfit]

end Sys2Proof.Machine

namespace Sys2Proof

/-! ### The bytes of a word, and of an extended field -/

/-- The little-endian bytes of a word are its bytes, lowest first (R6). -/
theorem leBytes_eq_map_byteOf {w : Nat} (n : Nat) (v : BitVec w) :
    leBytes n v.toNat = (List.range n).map (Claims.byteOf v) :=
  List.ext_getElem (by simp) fun i _ _ => by
    apply BitVec.eq_of_toNat_eq
    simp [getElem_leBytes, toNat_byteOf]

theorem unle_append_zeros (bytes : List Byte) (k : Nat) : unle (bytes ++ List.replicate k 0x00#8) = unle bytes := by
  induction bytes with
  | nil =>
    induction k with
    | zero => rfl
    | succ k ih => simpa [unle, List.replicate_succ] using ih
  | cons b bytes ih => rw [List.cons_append, unle, unle, ih]

theorem byte_getLsbD_seven (b : Byte) : b.getLsbD 7 = decide (128 ≤ b.toNat) := by
  have hmsb : b.msb = b.getLsbD 7 := BitVec.msb_eq_getLsbD_last b
  rw [← hmsb, BitVec.msb_eq_decide]

end Sys2Proof

namespace Sys2Proof.Machine

/-- The byte by which a getter continues a field to four bytes (R152, R153). -/
def FieldType.fill (t : FieldType) (field : List Byte) : Byte :=
  match t with
  | .s8 | .s16 => if (field.getLastD 0x00#8).getLsbD 7 then 0xFF#8 else 0x00#8
  | _ => 0x00#8

/-- A field continued to four bytes by its fill byte. -/
def FieldType.extended (t : FieldType) (field : List Byte) : List Byte :=
  field ++ List.replicate (4 - t.width) (t.fill field)

theorem toNat_extend_s8 (b : Byte) :
    (FieldType.s8.extend (unle [b])).toNat = unle (FieldType.s8.extended [b]) := by
  have hb := b.isLt
  have hraw : BitVec.ofNat 8 (unle [b]) = b := by simp [unle]
  rw [FieldType.extend, hraw, BitVec.toNat_signExtend, BitVec.msb_eq_decide]
  simp only [FieldType.extended, FieldType.fill, FieldType.width, List.getLastD, byte_getLsbD_seven]
  by_cases h : 128 ≤ b.toNat <;> simp [h, unle] <;> omega

theorem toNat_extend_s16 (a b : Byte) :
    (FieldType.s16.extend (unle [a, b])).toNat = unle (FieldType.s16.extended [a, b]) := by
  have ha := a.isLt
  have hb := b.isLt
  have hraw : BitVec.ofNat 16 (unle [a, b]) = u16 a b := rfl
  have hsign : 32768 ≤ a.toNat + 256 * b.toNat ↔ 128 ≤ b.toNat := by omega
  rw [FieldType.extend, hraw, BitVec.toNat_signExtend, BitVec.msb_eq_decide, BitVec.toNat_setWidth, toNat_u16]
  simp only [FieldType.extended, FieldType.fill, FieldType.width, List.getLastD, byte_getLsbD_seven]
  by_cases h : 128 ≤ b.toNat <;> simp [h, hsign, unle] <;> omega

theorem FieldType.toNat_extend (t : FieldType) {field : List Byte} (h : field.length = t.width) :
    (t.extend (unle field)).toNat = unle (t.extended field) := by
  cases t with
  | u8 | u16 | u24 | u32 | s32 | f32 =>
    have hlt := unle_lt field
    rw [h] at hlt
    refine Eq.trans ?_ (unle_append_zeros field _).symm
    simp only [FieldType.extend, FieldType.width, BitVec.toNat_setWidth, BitVec.toNat_ofNat] at hlt ⊢
    omega
  | s8 =>
    obtain ⟨b, rfl⟩ := List.length_eq_one_iff.mp h
    exact toNat_extend_s8 b
  | s16 =>
    obtain ⟨a, b, rfl⟩ := List.length_eq_two.mp h
    exact toNat_extend_s16 a b

theorem FieldType.length_extended (t : FieldType) {field : List Byte} (h : field.length = t.width) :
    (t.extended field).length = 4 := by
  rw [FieldType.extended, List.length_append, List.length_replicate, h]
  cases t <;> rfl

/-- The payload of a getter is the field, continued by its fill byte (R152, R153). -/
theorem FieldType.leBytes_extend (t : FieldType) {field : List Byte} (h : field.length = t.width) :
    leBytes 4 (t.extend (unle field)).toNat = t.extended field := by
  rw [t.toNat_extend h, ← t.length_extended h, leBytes_unle]

/-- A pattern that fits a type is got back from its low bytes (R152). -/
theorem FieldType.extend_of_fits {t : FieldType} {val : BitVec 32} (h : t.fits val = true) :
    t.extend (unle (leBytes t.width val.toNat)) = val := by
  have hlt := val.isLt
  apply BitVec.eq_of_toNat_eq
  rw [unle_leBytes]
  cases t with
  | u8 | u16 | u24 | u32 | s32 | f32 =>
    simp only [FieldType.fits, decide_eq_true_eq] at h
    simp only [FieldType.extend, FieldType.width, BitVec.toNat_setWidth, BitVec.toNat_ofNat]
    omega
  | s8 | s16 =>
    simp only [FieldType.fits, Bool.or_eq_true, decide_eq_true_eq] at h
    simp only [FieldType.extend, FieldType.width, BitVec.toNat_signExtend, BitVec.msb_eq_decide,
      BitVec.toNat_setWidth, BitVec.toNat_ofNat, decide_eq_true_eq]
    split <;> omega

open Claims

/-! ### The accessors of a type

`getters` and `setters` list the accessors by instruction; the model's common procedures (R153, R170) go by
`FieldType`. A claim about the eight rows is proved once, for the type of the row. -/

/-- `GET.<T>` of a type. -/
def FieldType.getter : FieldType → Getter
  | .u8 => ⟨Instr.getU8, 1, 0x40#8⟩
  | .u16 => ⟨Instr.getU16, 2, 0x41#8⟩
  | .u24 => ⟨Instr.getU24, 3, 0x42#8⟩
  | .u32 => ⟨Instr.getU32, 4, 0x43#8⟩
  | .s8 => ⟨Instr.getS8, 1, 0x44#8⟩
  | .s16 => ⟨Instr.getS16, 2, 0x45#8⟩
  | .s32 => ⟨Instr.getS32, 4, 0x46#8⟩
  | .f32 => ⟨Instr.getF32, 4, 0x47#8⟩

/-- `SET.<T>` of a type. -/
def FieldType.setter : FieldType → Setter
  | .u8 => ⟨Instr.setU8, 1, fitsUnsigned 8⟩
  | .u16 => ⟨Instr.setU16, 2, fitsUnsigned 16⟩
  | .u24 => ⟨Instr.setU24, 3, fitsUnsigned 24⟩
  | .u32 => ⟨Instr.setU32, 4, fun _ => true⟩
  | .s8 => ⟨Instr.setS8, 1, fitsSigned 8⟩
  | .s16 => ⟨Instr.setS16, 2, fitsSigned 16⟩
  | .s32 => ⟨Instr.setS32, 4, fun _ => true⟩
  | .f32 => ⟨Instr.setF32, 4, fun _ => true⟩

/-- The eight types in the order of the two lists (R151). -/
def fieldTypes : List FieldType := [.u8, .u16, .u24, .u32, .s8, .s16, .s32, .f32]

theorem exists_getter {g : Getter} (h : g ∈ getters) : ∃ t : FieldType, g = t.getter := by
  obtain ⟨t, -, ht⟩ := List.mem_map.mp (show g ∈ fieldTypes.map FieldType.getter from h)
  exact ⟨t, ht.symm⟩

theorem exists_setter {g : Setter} (h : g ∈ setters) : ∃ t : FieldType, g = t.setter := by
  obtain ⟨t, -, ht⟩ := List.mem_map.mp (show g ∈ fieldTypes.map FieldType.setter from h)
  exact ⟨t, ht.symm⟩

theorem exists_setter_getter {r : Setter × Getter} (h : r ∈ List.zip setters getters) :
    ∃ t : FieldType, r = (t.setter, t.getter) := by
  obtain ⟨t, -, ht⟩ := List.mem_map.mp (show r ∈ fieldTypes.map fun t => (t.setter, t.getter) from h)
  exact ⟨t, ht.symm⟩

@[simp] theorem FieldType.width_getter (t : FieldType) : t.getter.width = t.width := by cases t <;> rfl

@[simp] theorem FieldType.width_setter (t : FieldType) : t.setter.width = t.width := by cases t <;> rfl

theorem FieldType.width_pos (t : FieldType) : 0 < t.width := by cases t <;> decide

theorem FieldType.width_le_four (t : FieldType) : t.width ≤ 4 := by cases t <;> decide

@[simp] theorem FieldType.fits_setter (t : FieldType) (val : BitVec 32) : t.setter.fits val = t.fits val := by
  cases t with
  | u32 | s32 | f32 => rfl
  | u8 | u16 | u24 => exact decide_eq_decide.mpr Nat.lt_succ_iff
  | s8 | s16 => exact congrArg (· || _) (decide_eq_decide.mpr Nat.lt_succ_iff)

/-- Every getter runs the common procedure (R153). -/
@[simp] theorem FieldType.exec_getter (t : FieldType) (addr : BitVec 16) (s : State) :
    exec (t.getter.instr addr) s = getField t addr s := by cases t <;> rfl

/-- Every setter runs the common procedure (R170). -/
@[simp] theorem FieldType.exec_setter (t : FieldType) (addr : BitVec 16) (val : BitVec 32) (s : State) :
    exec (t.setter.instr addr val) s = setField t addr val s := by cases t <;> rfl

/-- The packet of a getter: its opcode and the address (R154 to R161). -/
theorem decode_getter (t : FieldType) (addr : BitVec 16) :
    decode [t.getter.opcode, byteOf addr 0, byteOf addr 1] = .ok (t.getter.instr addr) := by
  have hformat (a0 a1 : Byte) : decode [t.getter.opcode, a0, a1] = .ok (t.getter.instr (u16 a0 a1)) := by
    cases t <;> rfl
  rw [hformat, u16_byteOf]

theorem FieldType.fieldBytes_setter (t : FieldType) (val : BitVec 32) :
    fieldBytes t.setter val = leBytes t.width val.toNat := by
  rw [fieldBytes, FieldType.width_setter, leBytes_eq_map_byteOf]

/-- A field is the low bytes of its value. -/
theorem FieldType.fieldBytes_eq_take (t : FieldType) (val : BitVec 32) :
    fieldBytes t.setter val = (valueBytes val).take t.width := by
  rw [fieldBytes, valueBytes, ← List.map_take, List.take_range, width_setter, min_eq_left t.width_le_four]

@[simp] theorem FieldType.length_fieldBytes (t : FieldType) (val : BitVec 32) :
    (fieldBytes t.setter val).length = t.width := by
  rw [t.fieldBytes_setter, length_leBytes]

@[simp] theorem length_span (m : Memory) (off n : Nat) : (span m off n).length = n := by simp [span]

/-! ### Addresses of the commands that write -/

theorem bankSize_le (b : Bank) : bankSize b ≤ 1024 := by cases b <;> decide

theorem decodeAddr_bankAddr (b : Bank) {off : Nat} (h : off < 1024) :
    decodeAddr (bankAddr b off) = .ok (.bank b, off) :=
  decodeReadAddr_ok_iff.mp (decodeReadAddr_bankAddr b h)

/-- The operand `SFM:off` is decoded to the window and the offset (R56). -/
theorem decodeAddr_windowAddr {off : Nat} (h : off < 1024) : decodeAddr (windowAddr off) = .ok (.sfm, off) := by
  have haddr : (windowAddr off).toNat = 0x8000 + off := by simp [windowAddr]; omega
  rw [decodeAddr_ok_iff, haddr]
  exact ⟨by omega, by omega, .inr (.inr ⟨by omega, rfl⟩)⟩

/-- Every address a writing command must refuse is refused (R56). -/
theorem decodeAddr_of_badAddr {addr : BitVec 16} (h : badAddr addr) : decodeAddr addr = .error .badArgument := by
  cases hdec : decodeAddr addr with
  | error e => rw [decodeAddr_error hdec]
  | ok r =>
    obtain ⟨hreserved, -, hsel⟩ := decodeAddr_ok_iff.mp hdec
    unfold badAddr at h
    omega

/-! ### The getters -/

/-- `GET.<T>` on a field that fits its memory (R153). -/
theorem getField_bankAddr {t : FieldType} {b : Bank} {off : Nat} (h : off + t.width ≤ bankSize b) (s : State) :
    getField t (bankAddr b off) s = .next (answered s (t.extended (span (s.bank b) off t.width))) := by
  have hoff : off < 1024 := by have := bankSize_le b; have := t.width_pos; omega
  rw [getField_legal (decodeReadAddr_bankAddr b hoff) (by rwa [Bank.size_eq_bankSize]), State.readBytes_eq_span,
    t.leBytes_extend (length_span _ _ _)]
  rfl

/-- Settles O41: each answer is the field with its fill bytes, and the rest goes by type. -/
theorem gettersAnswerTheExtendedField : Obligations.GettersAnswerTheExtendedField := by
  refine ⟨fun s b off => ⟨fun h => ⟨?_, ?_⟩, fun h => ⟨?_, ?_⟩, fun h => ?_, fun h => ⟨?_, ?_, ?_⟩⟩, fun g hg => ?_⟩
  · exact getField_bankAddr (t := .u8) h s
  · exact getField_bankAddr (t := .s8) h s
  · exact getField_bankAddr (t := .u16) h s
  · exact getField_bankAddr (t := .s16) h s
  · exact getField_bankAddr (t := .u24) h s
  · exact getField_bankAddr (t := .u32) h s
  · exact getField_bankAddr (t := .s32) h s
  · exact getField_bankAddr (t := .f32) h s
  · obtain ⟨t, rfl⟩ := exists_getter hg
    refine ⟨decode_getter t, fun s => ⟨fun addr hbad => ?_, fun b off hoff hbeyond => ?_⟩⟩
    · rw [t.exec_getter, getField_badArgument (decodeReadAddr_of_badReadAddr hbad), State.raise_eq_failed]
      rfl
    · rw [t.width_getter, ← Bank.size_eq_bankSize] at hbeyond
      rw [t.exec_getter, getField_addressRange (decodeReadAddr_bankAddr b hoff) hbeyond, State.raise_eq_failed]
      rfl

/-- A length operand is its number (R55). -/
theorem toNat_length_operand {n : Nat} (h : n < 65536) : (BitVec.ofNat 16 n).toNat = n := by
  rw [BitVec.toNat_ofNat, Nat.mod_eq_of_lt h]

/-- `GET.STR` in the shape of the commands that read a range. -/
theorem exec_getStr (addr len : BitVec 16) (s : State) :
    exec (.getStr addr len) s =
      finish s (decodeReadAddr addr >>= fun x => checkRange x.1.size x.2 len.toNat >>= fun _ =>
        .ok (s, s.readBytes x.1 x.2 len.toNat)) :=
  rfl

/-- The packet of `GET.STR` (R171). -/
theorem decode_getStr (addr len : BitVec 16) :
    decode [0x48#8, byteOf addr 0, byteOf addr 1, byteOf len 0, byteOf len 1] = .ok (.getStr addr len) := by
  have hformat (a0 a1 l0 l1 : Byte) : decode [0x48#8, a0, a1, l0, l1] = .ok (.getStr (u16 a0 a1) (u16 l0 l1)) := rfl
  rw [hformat, u16_byteOf, u16_byteOf]

/-- Settles O42: the packet, then the three ends of the command: answer, refused address, range that does not fit. -/
theorem getStrAnswersTheRawBytes : Obligations.GetStrAnswersTheRawBytes := by
  refine ⟨decode_getStr, fun s b off n hoff hn hfit => ?_, fun s addr len hbad => ?_, fun s b off n hoff hn hfit => ?_⟩
  · rw [exec_getStr, toNat_length_operand hn, finish_of_range_within hoff hfit, State.readBytes_eq_span]
    rfl
  · rw [exec_getStr, finish_of_badReadAddr hbad]
  · rw [exec_getStr, toNat_length_operand hn, finish_of_range_beyond hoff hfit]

/-! ### The setters on `MSG` and `SFT` -/

/-- `SET.<T>` on a field that fits its memory stores the field's bytes (R170). -/
theorem setField_bankAddr {t : FieldType} {s : State} {b : Bank} {off : Nat} {val : BitVec 32}
    (hwf : Memory.wf (bankSize b) (s.bank b) = true) (hrange : off + t.width ≤ bankSize b) (hfits : t.fits val = true) :
    ∃ u, setField t (bankAddr b off) val s = .next u ∧ u = answered (withBank s b (u.bank b)) [] ∧
      Stores (s.bank b) (u.bank b) off (fieldBytes t.setter val) := by
  have hoff : off < 1024 := by have := bankSize_le b; have := t.width_pos; omega
  rw [setField_legal (decodeAddr_bankAddr b hoff) hfits (by rwa [Space.size, Bank.size_eq_bankSize]),
    ← t.fieldBytes_setter]
  exact finish_writeBank hwf (by rwa [t.length_fieldBytes])

/-- Settles O43: the common procedure, for the type of the row. -/
theorem settersStoreTheField : Obligations.SettersStoreTheField := by
  intro g hg s b off val hwf hrange hfits
  obtain ⟨t, rfl⟩ := exists_setter hg
  rw [t.exec_setter]
  exact setField_bankAddr hwf (by rwa [← t.width_setter]) (by rwa [← t.fits_setter])

/-- Settles O44: the address, then the value, then the range (R170). -/
theorem settersFailInTheStatedOrder : Obligations.SettersFailInTheStatedOrder := by
  intro g hg s val
  obtain ⟨t, rfl⟩ := exists_setter hg
  simp only [t.exec_setter, t.fits_setter, t.width_setter]
  have badArgument : s.raise .badArgument = failed s 0x03#8 := State.raise_eq_failed s _
  have addressRange : s.raise .addressRange = failed s 0x04#8 := State.raise_eq_failed s _
  refine ⟨fun addr hbad => ?_, fun off hoff hfits => ⟨fun b => ?_, ?_⟩,
    fun off hoff hfits => ⟨fun b hbeyond => ?_, fun hbeyond => ?_⟩⟩
  · rw [setField_badAddress (decodeAddr_of_badAddr hbad), badArgument]
  · rw [setField_badValue (decodeAddr_bankAddr b hoff) hfits, badArgument]
  · rw [setField_badValue (decodeAddr_windowAddr hoff) hfits, badArgument]
  · rw [← Bank.size_eq_bankSize] at hbeyond
    rw [setField_addressRange (decodeAddr_bankAddr b hoff) hfits hbeyond, addressRange]
  · rw [setField_addressRange (decodeAddr_windowAddr hoff) hfits hbeyond, addressRange]

/-! ### `SET.STR` (R172) -/

theorem exec_setStr_legal {addr width : BitVec 16} {data : List Byte} {sp : Space} {off : Nat}
    (haddr : decodeAddr addr = .ok (sp, off)) (hdata : data.length ≤ width.toNat) (hrange : off + width.toNat ≤ sp.size)
    (s : State) :
    exec (.setStr addr width data) s = .next ((s.writeSpace sp off (padded width.toNat data)).respond []) := by
  simp only [exec, execSetStr, haddr, bind, Except.bind, checkArgument, hdata, decide_true, if_true, checkRange,
    if_pos hrange, finish_ok]

/-- The data is tested before the range, and either way the error is `BAD_ARGUMENT` (R172). -/
theorem exec_setStr_badArgument {addr width : BitVec 16} {data : List Byte}
    (h : badAddr addr ∨ width.toNat < data.length) (s : State) :
    exec (.setStr addr width data) s = .next (s.raise .badArgument) := by
  cases haddr : decodeAddr addr with
  | error e =>
    obtain rfl := decodeAddr_error haddr
    simp only [exec, execSetStr, haddr]; rfl
  | ok r =>
    have hlong : width.toNat < data.length := h.resolve_left fun hbad => by simp [decodeAddr_of_badAddr hbad] at haddr
    have hdata : decide (data.length ≤ width.toNat) = false := decide_eq_false (Nat.not_le.mpr hlong)
    simp only [exec, execSetStr, haddr, hdata]; rfl

theorem exec_setStr_addressRange {addr width : BitVec 16} {data : List Byte} {sp : Space} {off : Nat}
    (haddr : decodeAddr addr = .ok (sp, off)) (hdata : data.length ≤ width.toNat) (hrange : sp.size < off + width.toNat)
    (s : State) : exec (.setStr addr width data) s = .next (s.raise .addressRange) := by
  simp only [exec, execSetStr, haddr, bind, Except.bind, checkArgument, hdata, decide_true, if_true, checkRange,
    if_neg (Nat.not_le.mpr hrange), finish_error]

/-- Settles O46: the field stored, the address or the data refused, the width beyond each of the three spaces. -/
theorem setStrStoresThePaddedField : Obligations.SetStrStoresThePaddedField := by
  refine ⟨fun s b off width data hwf hoff hrange hdata => ?_, fun s addr width data h => ?_,
    fun s off width data hoff hwidth hdata => ⟨fun b hbeyond => ?_, fun hbeyond => ?_⟩⟩
  · have hwidth : (BitVec.ofNat 16 width).toNat = width :=
      toNat_length_operand (by have := bankSize_le b; omega)
    rw [exec_setStr_legal (decodeAddr_bankAddr b hoff) (by rwa [hwidth])
      (by rwa [hwidth, Space.size, Bank.size_eq_bankSize]), hwidth]
    exact finish_writeBank hwf (by rwa [length_padded hdata])
  · rw [exec_setStr_badArgument h, State.raise_eq_failed]; rfl
  · have hwidth := toNat_length_operand hwidth
    rw [exec_setStr_addressRange (decodeAddr_bankAddr b hoff) (by rwa [hwidth])
      (by rwa [hwidth, Space.size, Bank.size_eq_bankSize]), State.raise_eq_failed]
    rfl
  · have hwidth := toNat_length_operand hwidth
    rw [exec_setStr_addressRange (decodeAddr_windowAddr hoff) (by rwa [hwidth]) (by rwa [hwidth]),
      State.raise_eq_failed]
    rfl

/-! ### The window `SFM` (R180) -/

/-- A write through the window hits when one of its bytes lies in the carried slice. -/
theorem State.sfmHit_writeWindow_iff (s : State) (a : Nat) (bytes : List Byte) :
    (s.writeWindow a bytes).status.sfmHit = true ↔
      ∃ i, i < bytes.length ∧ (a + i) / 16 = s.subframeNumber := by
  rw [State.writeWindow_status, Status.setSfmHit_sfmHit, Bool.not_eq_true', List.isEmpty_eq_false_iff_exists_mem]
  constructor
  · rintro ⟨cell, hcell⟩
    obtain ⟨i, hi, hslice, -⟩ := mem_windowCells.mp hcell
    exact ⟨i, hi, hslice⟩
  · rintro ⟨i, hi, hslice⟩
    exact ⟨_, mem_windowCells.mpr ⟨i, hi, hslice, rfl⟩⟩

theorem State.Inv.windowCells_lt {s : State} (h : s.Inv) (a : Nat) (bytes : List Byte) :
    ∀ cell ∈ s.windowCells a bytes, cell.1 < msgSize := fun _ hcell =>
  have hbounds := windowCells_bounds hcell
  have hslice := h.admissible.slice_bounds
  by omega

/-- Reading `MSG` after a write through the window: byte `j` of the slice is byte `16k + j` of the table. -/
theorem State.read_writeWindow {s : State} (h : s.Inv) (a : Nat) (bytes : List Byte) (x : Nat) :
    (s.writeWindow a bytes).msg.read x =
      if s.cfg.sliceOff ≤ x ∧ x < s.cfg.sliceOff + 16 ∧ a ≤ 16 * s.subframeNumber + (x - s.cfg.sliceOff) ∧
          16 * s.subframeNumber + (x - s.cfg.sliceOff) < a + bytes.length then
        bytes.getD (16 * s.subframeNumber + (x - s.cfg.sliceOff) - a) 0#8
      else s.msg.read x := by
  have hmem {cell : Host.Cell} : cell ∈ s.windowCells a bytes ↔ ∃ i, ∃ hi : i < bytes.length,
      (a + i) / 16 = s.subframeNumber ∧ cell = (s.cfg.sliceOff + (a + i) % 16, bytes[i]) := mem_windowCells
  rw [State.writeWindow_msg]
  split
  case isTrue hin =>
    obtain ⟨hlow, hhigh, hfirst, hlast⟩ := hin
    obtain ⟨i, hi⟩ : ∃ i, 16 * s.subframeNumber + (x - s.cfg.sliceOff) = a + i := Nat.exists_eq_add_of_le hfirst
    have hlt : i < bytes.length := by omega
    rw [hi, Nat.add_sub_cancel_left, List.getD_eq_getElem _ _ hlt]
    refine Memory.read_writeCells_of_mem h.msg_wf (h.windowCells_lt a bytes)
      (hmem.mpr ⟨i, hlt, by omega, Prod.ext (by simp only; omega) rfl⟩) fun cell hcell hx => ?_
    obtain ⟨j, hj, hslice, rfl⟩ := hmem.mp hcell
    obtain rfl : j = i := by simp only at hx; omega
    rfl
  case isFalse hout =>
    refine Memory.read_writeCells_of_forall_ne h.msg_wf (h.windowCells_lt a bytes) fun cell hcell hx => hout ?_
    obtain ⟨i, hi, hslice, rfl⟩ := hmem.mp hcell
    simp only at hx
    omega

theorem State.windowStores_writeWindow {s : State} (h : s.Inv) (a : Nat) (bytes : List Byte) :
    WindowStores s ((s.writeWindow a bytes).respond []) a bytes :=
  ⟨rfl, s.sfmHit_writeWindow_iff a bytes, State.read_writeWindow h a bytes⟩

/-- `SET.<T>` on a field of the table, through the window (R170, R180). -/
theorem setField_windowAddr {t : FieldType} {a : Nat} {val : BitVec 32} (hrange : a + t.width ≤ 816)
    (hfits : t.fits val = true) (s : State) :
    setField t (windowAddr a) val s = .next ((s.writeWindow a (fieldBytes t.setter val)).respond []) := by
  rw [setField_legal (decodeAddr_windowAddr (by omega)) hfits hrange, t.fieldBytes_setter]
  rfl

/-- Settles O45: both kinds of setter end in a write through the window. -/
theorem windowWritesOnlyTheCarriedSlice : Obligations.WindowWritesOnlyTheCarriedSlice := by
  refine ⟨fun g hg s a val hinv hrange hfits => ?_, fun s a width data hinv hrange hdata => ?_⟩
  · obtain ⟨t, rfl⟩ := exists_setter hg
    rw [t.width_setter] at hrange
    rw [t.fits_setter] at hfits
    rw [t.exec_setter]
    exact ⟨_, setField_windowAddr hrange hfits s, State.windowStores_writeWindow hinv a _⟩
  · have hwidth : (BitVec.ofNat 16 width).toNat = width := toNat_length_operand (by omega)
    rw [exec_setStr_legal (decodeAddr_windowAddr (by omega)) (by rwa [hwidth]) (by rwa [hwidth]), hwidth]
    exact ⟨_, rfl, State.windowStores_writeWindow hinv a _⟩

/-! ### A getter after a setter (R176, R181) -/

/-- A getter answers the value whose low bytes are the field, when the value fits. -/
theorem getField_of_span_eq {t : FieldType} {b : Bank} {off : Nat} {val : BitVec 32} {s : State}
    (hrange : off + t.width ≤ bankSize b) (hfits : t.fits val = true)
    (hspan : span (s.bank b) off t.width = fieldBytes t.setter val) :
    getField t (bankAddr b off) s = .next (answered s (valueBytes val)) := by
  rw [getField_bankAddr hrange, hspan, ← t.leBytes_extend (t.length_fieldBytes val), t.fieldBytes_setter,
    FieldType.extend_of_fits hfits, valueBytes, leBytes_eq_map_byteOf]

/-- What a getter answers says what the field is. -/
theorem span_eq_of_getField {t : FieldType} {b : Bank} {off : Nat} {val : BitVec 32} {s : State}
    (hrange : off + t.width ≤ bankSize b)
    (hget : getField t (bankAddr b off) s = .next (answered s (valueBytes val))) :
    span (s.bank b) off t.width = fieldBytes t.setter val := by
  have hpayload : t.extended (span (s.bank b) off t.width) = valueBytes val := by
    rw [getField_bankAddr hrange] at hget
    simpa [answered] using hget
  rw [t.fieldBytes_eq_take, ← hpayload, FieldType.extended, List.take_left' (length_span _ _ _)]

theorem span_of_stores {m m' : Memory} {off : Nat} {bytes : List Byte} (h : Stores m m' off bytes) :
    span m' off bytes.length = bytes :=
  List.ext_getElem (length_span _ _ _) fun i hi _ => by
    have hlt : i < bytes.length := by rwa [length_span] at hi
    simp [span, h (off + i), hlt]

/-- Storing the bytes that are there changes no byte. -/
theorem read_of_stores_span {m m' : Memory} {off n : Nat} (h : Stores m m' off (span m off n)) (x : Nat) :
    Memory.read m' x = Memory.read m x := by
  rw [h x, length_span]
  split
  case isTrue hin =>
    have hlt : x - off < n := by omega
    simp [span, hlt, Nat.add_sub_cancel' hin.1]
  case isFalse => rfl

/-- Settles O47: the getter answers the bytes stored; and where it answered them before, they were there already. -/
theorem getAfterSetGivesTheValue : Obligations.GetAfterSetGivesTheValue := by
  intro r hr s u b off val hwf hrange hfits hset
  obtain ⟨t, rfl⟩ := exists_setter_getter hr
  simp only [t.width_getter, t.fits_setter, t.exec_setter, t.exec_getter] at hrange hfits hset ⊢
  obtain ⟨v, hv, hstate, hstores⟩ := setField_bankAddr hwf hrange hfits
  obtain rfl : u = v := by simpa [hset] using hv
  refine ⟨getField_of_span_eq hrange hfits ?_, fun hget x => ?_⟩
  · simpa using span_of_stores hstores
  · rw [← span_eq_of_getField hrange hget] at hstores
    have hread := read_of_stores_span hstores x
    cases b with
    | msg => exact ⟨hread, by rw [hstate]; rfl⟩
    | sft => exact ⟨by rw [hstate]; rfl, hread⟩

theorem State.carriedSlice_respond (s : State) (p : Packet) : (s.respond p).carriedSlice = s.carriedSlice := rfl

/-- `SF.CAPTURE` with a subframe number in the table stores the carried slice (R200). -/
theorem exec_sfCapture_legal {s : State} {k : Nat} (hnumber : s.subframeNumber = k) (hk : k ≤ lastSubframe) :
    exec .sfCapture s =
      .next (State.respond
        { s with
          sft := s.sft.writeBytes (sliceLen * k) s.carriedSlice
          seen := markSeen k s.seen } []) := by
  simp only [exec, execSfCapture, hnumber, if_neg (Nat.not_lt.mpr hk), finish_ok]

/-- The frame keeps its subframe number under a write through the window: the slice does not hold it (R5). -/
theorem State.subframeNumber_writeWindow {s : State} (h : s.Inv) (a : Nat) (bytes : List Byte) :
    (s.writeWindow a bytes).subframeNumber = s.subframeNumber := by
  have hslice : ¬ (s.cfg.sliceOff ≤ subframeNumberOff ∧ subframeNumberOff < s.cfg.sliceOff + 16) := by
    have hbounds := h.admissible.slice_bounds
    simp only [sliceLen] at hbounds
    omega
  rw [State.subframeNumber, State.read_writeWindow h, if_neg fun hin => hslice ⟨hin.1, hin.2.1⟩, State.subframeNumber]

/-- A table byte of the carried slice, after the slice is stored: what the frame has in its place (R200). -/
theorem State.read_captured {s : State} (hwf : Memory.wf sftSize s.sft = true) (hk : s.subframeNumber ≤ lastSubframe)
    {x : Nat} (hx : x / 16 = s.subframeNumber) :
    (s.sft.writeBytes (sliceLen * s.subframeNumber) s.carriedSlice).read x = s.msg.read (s.cfg.sliceOff + x % 16) := by
  have hlen : s.carriedSlice.length = 16 := Memory.length_readBytes _ _ _
  simp only [lastSubframe] at hk
  simp only [sliceLen, ← hx]
  have hoff : x - 16 * (x / 16) = x % 16 := by omega
  have hmod := Nat.mod_lt x (show 0 < 16 by decide)
  rw [Memory.read_writeBytes hwf (by rw [hlen, sftSize]; omega), hlen, if_pos (by omega), hoff,
    List.getD_eq_getElem _ _ (by rwa [hlen])]
  simp [State.carriedSlice, Memory.readBytes_eq_map]

/-- A field that lies whole in the carried slice is in the table once it was written through the window and the slice
captured. -/
theorem State.span_captured_writeWindow {s : State} (h : s.Inv) {a : Nat} {bytes : List Byte}
    (hk : s.subframeNumber ≤ lastSubframe) (hfirst : a / 16 = s.subframeNumber)
    (hlast : (a + bytes.length - 1) / 16 = s.subframeNumber) :
    span (s.sft.writeBytes (sliceLen * s.subframeNumber) (s.writeWindow a bytes).carriedSlice) a bytes.length = bytes := by
  have hnumber := State.subframeNumber_writeWindow h a bytes
  refine List.ext_getElem (length_span _ _ _) fun i _ hi => ?_
  have hslice : (a + i) / 16 = s.subframeNumber := by omega
  have hread := State.read_captured (s := s.writeWindow a bytes) h.sft_wf (by rwa [hnumber]) (hslice.trans hnumber.symm)
  rw [hnumber, State.writeWindow_sft, State.writeWindow_cfg, State.read_writeWindow h, if_pos (by omega)] at hread
  have hindex : 16 * s.subframeNumber + (s.cfg.sliceOff + (a + i) % 16 - s.cfg.sliceOff) - a = i := by omega
  rw [hindex] at hread
  simpa [span, hi] using hread

/-- Settles O48: the write hits with its first byte, the capture is of the slice the field lies in. -/
theorem capturedWindowFieldIsRead : Obligations.CapturedWindowFieldIsRead := by
  intro r hr s v u a val hinv hfits hrange hfirst hlast hset hcapture
  obtain ⟨t, rfl⟩ := exists_setter_getter hr
  simp only [t.width_getter, t.fits_setter, t.exec_setter, t.exec_getter] at hfits hrange hlast hset ⊢
  have hpos := t.width_pos
  have hk : s.subframeNumber ≤ lastSubframe := by
    have hle : s.subframeNumber ≤ 50 := by rw [State.subframeNumber, subframeNumberOff]; omega
    exact hle
  obtain rfl : (s.writeWindow a (fieldBytes t.setter val)).respond [] = v := by
    simpa [setField_windowAddr hrange hfits] using hset
  have hnumber : ((s.writeWindow a (fieldBytes t.setter val)).respond []).subframeNumber = s.subframeNumber :=
    State.subframeNumber_writeWindow hinv a _
  rw [exec_sfCapture_legal hnumber hk] at hcapture
  obtain rfl := Host.Outcome.next.inj hcapture
  refine ⟨?_, getField_of_span_eq hrange hfits ?_⟩
  · exact (s.sfmHit_writeWindow_iff a _).mpr ⟨0, by rwa [t.length_fieldBytes], hfirst⟩
  · have hspan := State.span_captured_writeWindow hinv hk hfirst (bytes := fieldBytes t.setter val)
      (by rwa [t.length_fieldBytes])
    simp only [State.bank_sft, State.respond_sft, State.carriedSlice_respond, State.writeWindow_sft]
    rwa [t.length_fieldBytes] at hspan

end Sys2Proof.Machine

namespace Sys2Proof.Machine

/-! ### Which command writes which register (R14 to R16)

`exec_cases` says that a command ends in its effect or in an error; an error writes no register but a sticky bit, so
each register is read off the effects. -/

section Registers
open Claims

@[simp] theorem State.writeSpace_crcr (s : State) (sp : Space) (off : Nat) (bytes : List Byte) :
    (s.writeSpace sp off bytes).crcr = s.crcr := by
  cases sp with
  | bank b => exact State.writeBank_crcr s b off bytes
  | sfm => rfl

@[simp] theorem State.writeSpace_seen (s : State) (sp : Space) (off : Nat) (bytes : List Byte) :
    (s.writeSpace sp off bytes).seen = s.seen := by
  cases sp with
  | bank b => exact State.writeBank_seen s b off bytes
  | sfm => rfl

/-- A write to an address space records at most whether it hit the window (R180). -/
theorem State.writeSpace_status (s : State) (sp : Space) (off : Nat) (bytes : List Byte) :
    ∃ hit, (s.writeSpace sp off bytes).status = s.status.setSfmHit hit := by
  cases sp with
  | bank b => exact ⟨s.status.sfmHit, State.writeBank_status s b off bytes⟩
  | sfm => exact ⟨_, rfl⟩

/-- Between `s` and `u` the registers that command `i` does not write are as they were. -/
structure KeepsRegisters (i : Instr) (s u : State) : Prop where
  crcr : writesCrcr i = false → u.crcr = s.crcr
  seen : writesSeen i = false → u.seen = s.seen
  rsRec : writesRsRec i = false → u.status.rsRec0 = s.status.rsRec0 ∧ u.status.rsRec1 = s.status.rsRec1
  crcOk : ∀ k : Fin 6, writesCrcOk k i = false → u.status.crcOk[k] = s.status.crcOk[k]
  sfmHit : isSet i = false → i ≠ .reset → u.status.sfmHit = s.status.sfmHit

/-- Recording the check of another block leaves `CRC_OK[k]` alone. -/
theorem Status.crcOk_setCrcOk_of_ne {j k : Fin 6} (h : j ≠ k) (ok : Bool) (st : Status) :
    (st.setCrcOk j ok).crcOk[k] = st.crcOk[k] :=
  Vector.getElem_set_ne j.isLt k.isLt fun hjk => h (Fin.ext hjk)

/-- A block command that records the check of its block writes `CRCR` and `CRC_OK` of that block only (R197 e). -/
theorem KeepsRegisters.of_setCrcOk {i : Instr} {s u : State} {blk : Byte} {j : Fin 6} {ok : Bool}
    (hblk : decodeBlk blk = .ok j) (hcrcr : writesCrcr i = true)
    (hcrcOk : ∀ k : Fin 6, writesCrcOk k i = (blk.toNat == k)) (hseen : u.seen = s.seen)
    (hstatus : u.status = s.status.setCrcOk j ok) : KeepsRegisters i s u where
  crcr h := by simp [hcrcr] at h
  seen _ := hseen
  rsRec _ := by simp [hstatus]
  crcOk k h := by
    have hne : j ≠ k := by
      rintro rfl
      simp [hcrcOk, decodeBlk_ok_iff.mp hblk] at h
    rw [hstatus, Status.crcOk_setCrcOk_of_ne hne]
  sfmHit _ _ := by simp [hstatus]

/-- A successful command writes only its own registers. -/
theorem Effect.keepsRegisters {i : Instr} {s u : State} (h : Effect i s u) : KeepsRegisters i s u := by
  cases i with
  | nop | rdStatus | rdCrc | sfRdSeen | getU8 | getU16 | getU24 | getU32 | getS8 | getS16 | getS32 | getF32 | getStr
  | clrErr | rsEnc =>
    obtain rfl := h
    exact ⟨fun _ => rfl, fun _ => rfl, fun _ => ⟨rfl, rfl⟩, fun _ _ => rfl, fun _ _ => rfl⟩
  | reset => exact ⟨nofun, nofun, nofun, nofun, fun _ hne => absurd rfl hne⟩
  | crc16 | crc16I =>
    obtain ⟨c, rfl⟩ := h
    exact ⟨nofun, fun _ => rfl, fun _ => ⟨rfl, rfl⟩, fun _ _ => rfl, fun _ _ => rfl⟩
  | blkHdr =>
    obtain ⟨k, -, rfl⟩ := h
    exact ⟨fun _ => rfl, fun _ => rfl, fun _ => ⟨rfl, rfl⟩, fun _ _ => rfl, fun _ _ => rfl⟩
  | blkSetcrc | blkChkcrc | blkRead =>
    obtain ⟨k, hblk, rfl⟩ := h
    exact .of_setCrcOk hblk rfl (fun _ => rfl) rfl rfl
  | blkBuild =>
    obtain ⟨k, hblk, -, rfl⟩ := h
    exact .of_setCrcOk hblk rfl (fun _ => rfl) rfl rfl
  | rsDec =>
    obtain rfl := h
    exact ⟨fun _ => by simp, fun _ => by simp, nofun, fun _ _ => by simp, fun _ _ => by simp⟩
  | whiten =>
    obtain ⟨b, off, bytes, -, rfl⟩ := h
    exact ⟨fun _ => by simp, fun _ => by simp, fun _ => by simp, fun _ _ => by simp, fun _ _ => by simp⟩
  | setU8 | setU16 | setU24 | setU32 | setS8 | setS16 | setS32 | setF32 | setStr =>
    obtain ⟨sp, off, bytes, -, rfl⟩ := h
    obtain ⟨hit, hstatus⟩ := s.writeSpace_status sp off bytes
    exact ⟨fun _ => by simp, fun _ => by simp, fun _ => by simp [hstatus], fun _ _ => by simp [hstatus], nofun⟩
  | sfCapture =>
    obtain ⟨-, rfl⟩ := h
    exact ⟨fun _ => rfl, nofun, fun _ => ⟨rfl, rfl⟩, fun _ _ => rfl, fun _ _ => rfl⟩
  | sfClear =>
    obtain rfl := h
    exact ⟨fun _ => rfl, nofun, fun _ => ⟨rfl, rfl⟩, fun _ _ => rfl, fun _ _ => rfl⟩

/-- A command, whether it succeeds or fails, writes only its own registers. -/
theorem exec_keepsRegisters {i : Instr} {s t : State} (hexec : exec i s = .next t) : KeepsRegisters i s t := by
  rcases exec_cases i s with ⟨u, p, heff, hnext⟩ | ⟨e, hnext⟩
  · obtain rfl := Host.Outcome.next.inj (hnext.symm.trans hexec)
    obtain ⟨crcr, seen, rsRec, crcOk, sfmHit⟩ := heff.keepsRegisters
    exact ⟨crcr, seen, rsRec, crcOk, sfmHit⟩
  · obtain rfl := Host.Outcome.next.inj (hnext.symm.trans hexec)
    exact ⟨fun _ => rfl, fun _ => rfl, fun _ => by simp, fun _ _ => by simp, fun _ _ => by simp⟩

/-- Settles O11: the five registers, each read off the effect of the command. -/
theorem registersChangeOnlyByTheirWriters : Obligations.RegistersChangeOnlyByTheirWriters := by
  intro i s t hexec
  obtain ⟨crcr, seen, rsRec, crcOk, sfmHit⟩ := exec_keepsRegisters hexec
  exact ⟨crcr, seen, rsRec, crcOk, sfmHit⟩

end Registers

end Sys2Proof.Machine

namespace Sys2Proof.Machine

/-! ### The seen bitmap (R14, R200 to R203) -/

section Subframes
open Claims

theorem getLsbD_markSeen (k : Nat) (seen : BitVec 51) {j : Nat} (hj : j < 51) :
    (markSeen k seen).getLsbD j = (seen.getLsbD j || j == k) := by
  have hbit : (1#51 <<< k).getLsbD j = (j == k) := by
    rw [← BitVec.twoPow_eq, BitVec.getLsbD_twoPow]
    rcases eq_or_ne j k with rfl | hne
    · simp [hj]
    · simp [hne, hne.symm]
  rw [markSeen, BitVec.getLsbD_or, hbit]

/-- `SF_COMPLETE` says that every bit of `SEEN` is 1 (R18). -/
theorem sfComplete_iff {seen : BitVec 51} : sfComplete seen = true ↔ ∀ k, k < 51 → seen.getLsbD k = true := by
  rw [sfComplete, beq_iff_eq]
  constructor
  · rintro rfl k hk
    rw [BitVec.getLsbD_allOnes, decide_eq_true hk]
  · intro h
    exact BitVec.eq_of_getLsbD_eq fun k hk => by rw [h k hk, BitVec.getLsbD_allOnes, decide_eq_true hk]

/-- `SF_COMPLETE` is bit 9 of `STATUS` (R16). -/
theorem State.getLsbD_nine_statusWord (s : State) : s.statusWord.getLsbD 9 = sfComplete s.seen := by
  rw [State.statusWord, BitVec.getLsbD_ofBoolListLE]
  rfl

/-- `SF.CAPTURE` with a subframe number above 50 fails (R200). -/
theorem exec_sfCapture_error {s : State} (h : lastSubframe < s.subframeNumber) :
    exec .sfCapture s = .next (s.raise .subframeRange) := by
  simp only [exec, execSfCapture, if_pos h, finish_error]

/-- What a command other than `SF.CLEAR` and `RESET` does to `SEEN`: `SF.CAPTURE` adds the bit of the frame's subframe
number, where there is one, and nothing else writes it. -/
theorem getLsbD_seen_exec {i : Instr} {s t : State} (hexec : exec i s = .next t) (hclear : i ≠ .sfClear)
    (hreset : i ≠ .reset) {k : Nat} (hk : k < 51) :
    t.seen.getLsbD k = true ↔ s.seen.getLsbD k = true ∨ (i = .sfCapture ∧ s.subframeNumber = k) := by
  by_cases hcapture : i = .sfCapture
  · subst hcapture
    by_cases hnumber : lastSubframe < s.subframeNumber
    · obtain rfl := Host.Outcome.next.inj ((exec_sfCapture_error hnumber).symm.trans hexec)
      have hne : s.subframeNumber ≠ k := by rw [lastSubframe] at hnumber; omega
      rw [State.raise_seen, or_iff_left fun h => hne h.2]
    · obtain rfl := Host.Outcome.next.inj ((exec_sfCapture_legal rfl (Nat.le_of_not_lt hnumber)).symm.trans hexec)
      rw [State.respond_seen, getLsbD_markSeen _ _ hk, Bool.or_eq_true, beq_iff_eq, eq_comm (a := k)]
      simp only [true_and]
  · have hwrites : writesSeen i = false := by
      unfold writesSeen
      split <;> simp_all
    simp [(exec_keepsRegisters hexec).seen hwrites, hcapture]

/-- The sequence `is` from `s` on holds an `SF.CAPTURE` executed while the frame's subframe number is `k`. -/
def Captures (s : State) (is : List Instr) (k : Nat) : Prop :=
  ∃ (before after : List Instr) (u : State),
    is = before ++ .sfCapture :: after ∧ Runs s before u ∧ u.subframeNumber = k

theorem not_captures_nil (s : State) (k : Nat) : ¬ Captures s [] k := by
  rintro ⟨before, after, u, hnil, -⟩
  simp at hnil

/-- A capture in a sequence is its first command or stands in the rest, which runs from the next state. -/
theorem captures_cons_iff {i : Instr} {is : List Instr} {s v : State} (hexec : exec i s = .next v) {k : Nat} :
    Captures s (i :: is) k ↔ (i = .sfCapture ∧ s.subframeNumber = k) ∨ Captures v is k := by
  constructor
  · rintro ⟨before, after, u, hsplit, hruns, hnumber⟩
    cases before with
    | nil =>
      obtain rfl : u = s := hruns
      exact .inl ⟨(List.cons.inj hsplit).1, hnumber⟩
    | cons j before =>
      obtain ⟨rfl, hrest⟩ := List.cons.inj hsplit
      obtain ⟨v', hfirst, hruns⟩ := hruns
      obtain rfl := Host.Outcome.next.inj (hexec.symm.trans hfirst)
      exact .inr ⟨before, after, u, hrest, hruns, hnumber⟩
  · rintro (⟨rfl, hnumber⟩ | ⟨before, after, u, rfl, hruns, hnumber⟩)
    · exact ⟨[], is, s, rfl, rfl, hnumber⟩
    · exact ⟨i :: before, after, u, rfl, ⟨v, hexec, hruns⟩, hnumber⟩

/-- `SEEN[k]` after a sequence without `SF.CLEAR` and `RESET`: it was 1 before, or the sequence captured slice `k`. -/
theorem getLsbD_seen_runs {s t : State} {is : List Instr} (hkeep : ∀ i ∈ is, i ≠ .sfClear ∧ i ≠ .reset)
    (hruns : Runs s is t) {k : Nat} (hk : k < 51) :
    t.seen.getLsbD k = true ↔ s.seen.getLsbD k = true ∨ Captures s is k := by
  induction is generalizing s with
  | nil =>
    obtain rfl : t = s := hruns
    simp [not_captures_nil]
  | cons i is ih =>
    obtain ⟨v, hexec, hrest⟩ := hruns
    obtain ⟨⟨hclear, hreset⟩, hkeep⟩ := List.forall_mem_cons.mp hkeep
    rw [ih hkeep hrest, getLsbD_seen_exec hexec hclear hreset hk, captures_cons_iff hexec, or_assoc]

/-- Settles O60: `SF_COMPLETE` is all 51 bits of `SEEN`, and from 0 each bit is there exactly when its slice was
captured (`getLsbD_seen_runs`, by induction on the sequence). -/
theorem completeExactlyWhenEverySliceWasCaptured : Obligations.CompleteExactlyWhenEverySliceWasCaptured := by
  intro s t is hseen hkeep hruns
  rw [State.getLsbD_nine_statusWord, sfComplete_iff]
  refine forall₂_congr fun k hk => ?_
  rw [getLsbD_seen_runs hkeep hruns hk, hseen]
  simp [Captures, State.subframeNumber, subframeNumberOff]

/-- Settles O57: the slice is stored whole and marked, or the subframe number is refused. -/
theorem sfCaptureCopiesTheSlice : Obligations.SfCaptureCopiesTheSlice := by
  refine ⟨rfl, fun s => ⟨fun hnumber hwf => ?_, fun hnumber => ?_⟩⟩
  · have hnumber : s.subframeNumber ≤ lastSubframe := hnumber
    have hslice : s.carriedSlice = span s.msg s.cfg.sliceOff 16 := Memory.readBytes_eq_map _ _ _
    refine ⟨_, exec_sfCapture_legal rfl hnumber, rfl, ?_, fun k hk => getLsbD_markSeen _ _ hk⟩
    rw [← hslice]
    refine Memory.stores_writeBytes hwf ?_
    rw [lastSubframe] at hnumber
    rw [State.carriedSlice, Memory.length_readBytes, sliceLen]
    omega
  · rw [exec_sfCapture_error hnumber, State.raise_eq_failed]
    rfl

/-- Bit `i` of a number, from its little-endian bytes (R6). -/
theorem getLsbD_getD_leBytes {n i : Nat} (v : Nat) (h : i < 8 * n) :
    ((leBytes n v).getD (i / 8) 0#8).getLsbD (i % 8) = v.testBit i := by
  have hbyte : i / 8 < (leBytes n v).length := by rw [length_leBytes]; omega
  have hbit : i % 8 < 8 := Nat.mod_lt i (by decide)
  have hpow : 256 ^ (i / 8) = 2 ^ (8 * (i / 8)) := by rw [Nat.pow_mul]
  rw [List.getD_eq_getElem _ _ hbyte, getElem_leBytes, BitVec.getLsbD_ofNat, hpow, Nat.testBit_div_two_pow,
    Nat.mod_add_div]
  simp [hbit]

/-- Settles O58: the answer is `SEEN` in seven little-endian bytes. -/
theorem sfRdSeenAnswersTheBitmap : Obligations.SfRdSeenAnswersTheBitmap := by
  refine ⟨rfl, fun s => ⟨leBytes 7 s.seen.toNat, rfl, length_leBytes _ _, fun k hk => ?_, fun k hlo hhi => ?_⟩⟩
  · exact getLsbD_getD_leBytes _ (by omega)
  · rw [getLsbD_getD_leBytes _ (by omega)]
    exact BitVec.getLsbD_of_ge s.seen k hlo

/-- Settles O59: nothing but `SEEN` is written, and with no slice seen `SF_COMPLETE` reads 0. -/
theorem sfClearForgetsOnlySeen : Obligations.SfClearForgetsOnlySeen := by
  refine ⟨rfl, fun s => ⟨rfl, ?_⟩⟩
  rw [State.getLsbD_nine_statusWord]
  exact (by decide : sfComplete 0#51 = false)

end Subframes

end Sys2Proof.Machine

namespace Sys2Proof.Machine

/-! ### Bytes stored and bytes changed -/

section Memory
open Claims

/-- Storing one sequence behind another is storing both at once (R32). -/
theorem Memory.writeBytes_append (m : Memory) (a : Nat) (xs ys : List Byte) :
    m.writeBytes a (xs ++ ys) = (m.writeBytes a xs).writeBytes (a + xs.length) ys := by
  induction xs generalizing m a with
  | nil => rfl
  | cons x xs ih =>
    rw [List.cons_append, Memory.writeBytes, ih, Memory.writeBytes, List.length_cons, Nat.add_assoc, Nat.add_comm 1]

theorem span_congr {m m' : Memory} {off n : Nat}
    (h : ∀ a, off ≤ a → a < off + n → Memory.read m' a = Memory.read m a) : span m' off n = span m off n :=
  List.map_congr_left fun _ hi => h _ (Nat.le_add_right _ _) (Nat.add_lt_add_left (List.mem_range.mp hi) _)

/-- A span in which one byte changed. -/
theorem span_eq_modify {m m' : Memory} {off n i : Nat} {f : Byte → Byte}
    (hchanged : Memory.read m' (off + i) = f (Memory.read m (off + i)))
    (hrest : ∀ a, a ≠ off + i → Memory.read m' a = Memory.read m a) : span m' off n = (span m off n).modify i f :=
  List.ext_getElem (by simp) fun j hj _ => by
    rw [List.getElem_modify]
    split
    case isTrue hij => subst hij; simpa [span] using hchanged
    case isFalse hij => simpa [span] using hrest (off + j) (by omega)

/-- Flipping a bit changes the byte. -/
theorem xor_bit_ne (b : Byte) {j : Nat} (hj : j < 8) : b ^^^ 0x01#8 <<< j ≠ b := by
  intro h
  have hmask : 0x01#8 <<< j = 0#8 := by simpa using congrArg (b ^^^ ·) h
  have hbit : (0x01#8 <<< j).getLsbD j = true := by simp [hj]
  simp [hmask] at hbit

end Memory

end Sys2Proof.Machine

namespace Sys2Proof.Machine

/-! ### The block commands (R190 to R197)

The parts of a block in the words of the statements, then each command on a legal block operand. -/

section Blocks
open Claims

theorem decodeBlk_blkByte (k : Fin 6) : decodeBlk (blkByte k) = .ok k :=
  decodeBlk_ok_iff.mpr (Nat.mod_eq_of_lt (by omega))

/-- A legal block operand passes its check (R58). -/
theorem finish_of_blkByte (k : Fin 6) (s : State) (f : Fin 6 → Except CommandError (State × Packet)) :
    finish s (decodeBlk (blkByte k) >>= f) = finish s (f k) := by
  rw [decodeBlk_blkByte]; rfl

theorem blockId_eq_idByte : ∀ k : Fin 6, blockId[k] = idByte k := by decide

theorem State.blockHeader_eq (s : State) (k : Fin 6) :
    s.blockHeader k = [idByte k, BitVec.ofNat 8 s.cfg.blockLen[k]] := by
  rw [State.blockHeader, blockId_eq_idByte]; rfl

theorem State.blockData_eq_span (s : State) (k : Fin 6) :
    s.blockData k = span s.msg (s.cfg.blockOff[k] + 2) s.cfg.blockLen[k] :=
  Memory.readBytes_eq_map _ _ _

theorem State.crc16_blockData (s : State) (k : Fin 6) : crc16 (s.blockData k) = blockCrc s k := by
  rw [State.blockData_eq_span]; rfl

theorem State.storedCrc_eq (s : State) (k : Fin 6) : s.storedCrc k = storedBlockCrc s k := by
  have hhigh : s.cfg.blockOff[k] + 2 + s.cfg.blockLen[k] + 1 = s.cfg.blockOff[k] + 3 + s.cfg.blockLen[k] := by omega
  simp only [State.storedCrc, State.blockCrcOff, State.blockBase, State.blockLength, Memory.readBytes, unle, hhigh,
    storedBlockCrc]
  rfl

theorem State.blockCrcMatches_eq (s : State) (k : Fin 6) : s.blockCrcMatches k = crcMatch s k := by
  rw [State.blockCrcMatches, State.storedCrc_eq, State.crc16_blockData]; rfl

theorem State.recordBlockCheck_eq (s : State) (k : Fin 6) :
    s.recordBlockCheck k =
      { s with crcr := blockCrc s k, status := { s.status with crcOk := s.status.crcOk.set k (crcMatch s k) } } := by
  rw [State.recordBlockCheck, State.crc16_blockData, State.blockCrcMatches_eq]; rfl

/-- Three flags in the low bits of a byte. -/
theorem ofBoolListLE_flags : ∀ crc id len : Bool,
    (BitVec.ofBoolListLE [crc, id, len, false, false, false, false, false] : Byte) =
      BitVec.ofNat 8 ((if crc then 1 else 0) + (if id then 2 else 0) + (if len then 4 else 0)) := by
  decide

theorem State.validityByte_eq (s : State) (k : Fin 6) :
    s.validityByte k = BitVec.ofNat 8
      ((if crcMatch s k then 1 else 0) +
        (if Memory.read s.msg s.cfg.blockOff[k] = idByte k then 2 else 0) +
        (if (Memory.read s.msg (s.cfg.blockOff[k] + 1)).toNat = s.cfg.blockLen[k] then 4 else 0)) := by
  rw [State.validityByte, ofBoolListLE_flags, State.blockCrcMatches_eq, blockId_eq_idByte]
  simp only [beq_iff_eq, State.blockBase, State.blockLength]

/-! ### Each command on block `k` -/

theorem exec_blkHdr (k : Fin 6) (s : State) :
    exec (.blkHdr (blkByte k)) s = finish s (.ok (s.writeBank .msg (s.blockBase k) (s.blockHeader k), [])) :=
  finish_of_blkByte k s _

theorem exec_blkSetcrc (k : Fin 6) (s : State) :
    exec (.blkSetcrc (blkByte k)) s = .next ((s.storeBlockCrc k (blockCrc s k)).respond []) := by
  rw [← State.crc16_blockData]
  exact finish_of_blkByte k s _

theorem exec_blkChkcrc (k : Fin 6) (s : State) :
    exec (.blkChkcrc (blkByte k)) s =
      .next ((s.recordBlockCheck k).respond [if crcMatch s k then 0x01#8 else 0x00#8]) := by
  rw [← State.blockCrcMatches_eq]
  exact finish_of_blkByte k s _

theorem exec_blkRead (k : Fin 6) (s : State) :
    exec (.blkRead (blkByte k)) s = .next ((s.recordBlockCheck k).respond (s.validityByte k :: s.blockData k)) :=
  finish_of_blkByte k s _

/-- The state after `BLK.BUILD` of block `k` from `data`, before the response (R195). -/
def State.built (s : State) (k : Fin 6) (data : List Byte) : State :=
  State.storeBlockCrc { s with msg := s.msg.writeBytes (s.blockBase k) (s.blockHeader k ++ data) } k (crc16 data)

theorem exec_blkBuild (k : Fin 6) (data : List Byte) (s : State) :
    exec (.blkBuild (blkByte k) data) s =
      finish s (checkLength (data.length == s.blockLength k) >>= fun _ => .ok (s.built k data, [])) :=
  finish_of_blkByte k s _

theorem exec_blkBuild_legal {k : Fin 6} {data : List Byte} {s : State} (h : data.length = s.cfg.blockLen[k]) :
    exec (.blkBuild (blkByte k) data) s = .next ((s.built k data).respond []) := by
  have hlen : checkLength (data.length == s.blockLength k) = .ok () := checkLength_ok_iff.mpr (beq_iff_eq.mpr h)
  rw [exec_blkBuild, hlen]; rfl

theorem exec_blkBuild_badLength {k : Fin 6} {data : List Byte} {s : State} (h : data.length ≠ s.cfg.blockLen[k]) :
    exec (.blkBuild (blkByte k) data) s = .next (s.raise .badLength) := by
  have hlen : checkLength (data.length == s.blockLength k) = .error .badLength :=
    checkLength_error_iff.mpr ⟨beq_eq_false_iff_ne.mpr h, rfl⟩
  rw [exec_blkBuild, hlen]; rfl

/-- `BLK.BUILD` stores the block in one piece. -/
theorem State.built_msg {s : State} {k : Fin 6} {data : List Byte} (h : data.length = s.cfg.blockLen[k]) :
    (s.built k data).msg =
      s.msg.writeBytes s.cfg.blockOff[k] (s.blockHeader k ++ data ++ leBytes 2 (crc16 data).toNat) := by
  have hcrcOff : s.blockCrcOff k = s.blockBase k + (s.blockHeader k ++ data).length := by
    rw [List.length_append, h, ← Nat.add_assoc]; rfl
  rw [Memory.writeBytes_append]
  exact congrArg (Memory.writeBytes _ · _) hcrcOff

/-- Every byte of a block is a byte of `MSG` (R36). -/
theorem State.Inv.block_lt_msgSize {s : State} (h : s.Inv) (k : Fin 6) :
    s.cfg.blockOff[k] + s.cfg.blockLen[k] + 4 < msgSize := by
  have hbounds := h.admissible.block_bounds k
  rw [msgSize]
  omega

/-- Settles O49: the header is stored where the block starts. -/
theorem blkHdrWritesTheHeader : Obligations.BlkHdrWritesTheHeader := by
  refine ⟨fun _ => rfl, fun s k h => ?_⟩
  rw [exec_blkHdr, State.blockHeader_eq]
  have hfit : s.cfg.blockOff[k] + 2 ≤ 1024 := by have := h.block_lt_msgSize k; rw [msgSize] at this; omega
  exact finish_writeBank h.msg_wf hfit

/-- Settles O52: the comparison is recorded and answered. -/
theorem blkChkcrcAnswersTheComparison : Obligations.BlkChkcrcAnswersTheComparison := by
  refine ⟨fun _ => rfl, fun s k => ?_⟩
  rw [exec_blkChkcrc, State.recordBlockCheck_eq]; rfl

/-- Settles O53: the comparison is recorded, the validity byte and the data span are answered. -/
theorem blkReadAnswersValidityAndData : Obligations.BlkReadAnswersValidityAndData := by
  refine ⟨fun _ => rfl, fun s k => ?_⟩
  rw [exec_blkRead, State.recordBlockCheck_eq, State.validityByte_eq, State.blockData_eq_span]; rfl

/-- Settles O54: the block is stored in one piece, or the length is refused. -/
theorem blkBuildWritesTheWholeBlock : Obligations.BlkBuildWritesTheWholeBlock := by
  refine ⟨fun s k data h hlen => ⟨_, exec_blkBuild_legal hlen, rfl, ?_⟩, fun s k data hlen => ?_⟩
  · have hblock := h.block_lt_msgSize k
    rw [State.respond_msg, State.built_msg hlen, State.blockHeader_eq, leBytes_two_eq_byteOf]
    exact Memory.stores_writeBytes h.msg_wf (by
      simp only [List.length_append, List.length_cons, List.length_nil]; omega)
  · rw [exec_blkBuild_badLength hlen, State.raise_eq_failed]; rfl

/-! ### The stored CRC (R193, R197) -/

theorem State.stores_storeBlockCrc {s : State} (h : s.Inv) (k : Fin 6) (c : BitVec 16) :
    Stores s.msg (s.storeBlockCrc k c).msg (s.cfg.blockOff[k] + 2 + s.cfg.blockLen[k]) [byteOf c 0, byteOf c 1] := by
  have hblock := h.block_lt_msgSize k
  rw [State.storeBlockCrc_msg, leBytes_two_eq_byteOf]
  exact Memory.stores_writeBytes h.msg_wf (by
    simp only [State.blockCrcOff, State.blockBase, State.blockLength, List.length_cons, List.length_nil]; omega)

/-- The computed CRC depends on the data span only. -/
theorem blockCrc_congr {t u : State} {k : Fin 6} (hcfg : u.cfg = t.cfg)
    (hread : ∀ a, t.cfg.blockOff[k] + 2 ≤ a → a < t.cfg.blockOff[k] + 2 + t.cfg.blockLen[k] →
      Memory.read u.msg a = Memory.read t.msg a) : blockCrc u k = blockCrc t k := by
  simp only [blockCrc, hcfg]
  rw [span_congr hread]

/-- The comparison depends on the data span and the CRC field only. -/
theorem crcMatch_congr {t u : State} {k : Fin 6} (hcfg : u.cfg = t.cfg)
    (hread : ∀ a, t.cfg.blockOff[k] + 2 ≤ a → a < t.cfg.blockOff[k] + t.cfg.blockLen[k] + 4 →
      Memory.read u.msg a = Memory.read t.msg a) : crcMatch u k = crcMatch t k := by
  have hstored : storedBlockCrc u k = storedBlockCrc t k := by
    simp only [storedBlockCrc, hcfg]
    rw [hread _ (by omega) (by omega), hread _ (by omega) (by omega)]
  rw [crcMatch, hstored, blockCrc_congr hcfg fun a hlo hhi => hread a hlo (by omega), crcMatch]

/-- After the CRC of the data span is stored, the comparison holds (R193). -/
theorem State.crcMatch_storeBlockCrc {s : State} (h : s.Inv) (k : Fin 6) :
    crcMatch (s.storeBlockCrc k (blockCrc s k)) k = true := by
  have hstores := State.stores_storeBlockCrc h k (blockCrc s k)
  have hcrc : blockCrc (s.storeBlockCrc k (blockCrc s k)) k = blockCrc s k :=
    blockCrc_congr rfl fun a hlo hhi => by rw [hstores, if_neg (by omega)]
  have hlow := hstores (s.cfg.blockOff[k] + 2 + s.cfg.blockLen[k])
  have hhigh := hstores (s.cfg.blockOff[k] + 3 + s.cfg.blockLen[k])
  have hindex : s.cfg.blockOff[k] + 3 + s.cfg.blockLen[k] - (s.cfg.blockOff[k] + 2 + s.cfg.blockLen[k]) = 1 := by omega
  rw [if_pos (by simp), Nat.sub_self, List.getD_cons_zero] at hlow
  rw [if_pos (by simp only [List.length_cons, List.length_nil]; omega), hindex, List.getD_cons_succ,
    List.getD_cons_zero] at hhigh
  rw [crcMatch, decide_eq_true_iff, hcrc, storedBlockCrc, State.storeBlockCrc_cfg, hlow, hhigh, ← toNat_u16,
    u16_byteOf]

/-- Settles O50: the CRC is stored and recorded, and the comparison then holds as long as its bytes stay. -/
theorem blkSetcrcStoresTheCrc : Obligations.BlkSetcrcStoresTheCrc := by
  refine ⟨fun _ => rfl, fun s k h => ⟨_, exec_blkSetcrc k s, rfl, State.stores_storeBlockCrc h k _,
    fun u hcfg hread => ⟨_, exec_blkChkcrc k u, ?_⟩⟩⟩
  have hmatch : crcMatch u k = true :=
    (crcMatch_congr (t := s.storeBlockCrc k (blockCrc s k)) hcfg hread).trans (State.crcMatch_storeBlockCrc h k)
  rw [hmatch]; rfl

/-- Where the comparison holds, it fails once a bit of the data span or of the CRC field is flipped: a flip in the data
changes the computed CRC, a flip in the field the stored one (R197 c). -/
theorem crcMatch_eq_false_of_flip {t u : State} {k : Fin 6} {a j : Nat} (hcfg : u.cfg = t.cfg)
    (hmatch : crcMatch t k = true) (hlo : t.cfg.blockOff[k] + 2 ≤ a)
    (hhi : a < t.cfg.blockOff[k] + t.cfg.blockLen[k] + 4) (hj : j < 8)
    (hflip : Memory.read u.msg a = Memory.read t.msg a ^^^ (0x01#8 <<< j))
    (hrest : ∀ x, x ≠ a → Memory.read u.msg x = Memory.read t.msg x) : crcMatch u k = false := by
  have hstored : storedBlockCrc t k = (blockCrc t k).toNat := of_decide_eq_true hmatch
  refine decide_eq_false fun heq => ?_
  by_cases hdata : a < t.cfg.blockOff[k] + 2 + t.cfg.blockLen[k]
  · obtain ⟨i, rfl⟩ := Nat.exists_eq_add_of_le hlo
    have hsame : storedBlockCrc u k = storedBlockCrc t k := by
      simp only [storedBlockCrc, hcfg]
      rw [hrest _ (by omega), hrest _ (by omega)]
    have hcrc : blockCrc u k = blockCrc t k := BitVec.eq_of_toNat_eq (by rw [← heq, hsame, hstored])
    simp only [blockCrc, hcfg] at hcrc
    rw [span_eq_modify (f := fun b => b ^^^ 0x01#8 <<< j) hflip hrest] at hcrc
    exact crcDetectsEverySingleBitFlip _ i j (by rw [length_span]; omega) hj hcrc
  · have hcrc : blockCrc u k = blockCrc t k := blockCrc_congr hcfg fun x _ hx => hrest x (by omega)
    have hsame : storedBlockCrc u k = storedBlockCrc t k := by rw [heq, hcrc, hstored]
    have hbyte : (Memory.read u.msg a).toNat ≠ (Memory.read t.msg a).toNat := by
      rw [hflip]
      exact fun h => xor_bit_ne _ hj (BitVec.eq_of_toNat_eq h)
    simp only [storedBlockCrc, hcfg] at hsame
    have hfield : a = t.cfg.blockOff[k] + 2 + t.cfg.blockLen[k] ∨ a = t.cfg.blockOff[k] + 3 + t.cfg.blockLen[k] := by
      omega
    rcases hfield with hlow | hhigh
    · rw [hlow] at hbyte
      rw [hrest (t.cfg.blockOff[k] + 3 + t.cfg.blockLen[k]) (by omega)] at hsame
      omega
    · rw [hhigh] at hbyte
      rw [hrest (t.cfg.blockOff[k] + 2 + t.cfg.blockLen[k]) (by omega)] at hsame
      omega

/-- Settles O51: the comparison held after `BLK.SETCRC`, and no longer does. -/
theorem blockCheckDetectsEverySingleBitFlip : Obligations.BlockCheckDetectsEverySingleBitFlip := by
  intro s t u k a j h hset hcfg hlo hhi hj hflip hrest
  obtain rfl := Host.Outcome.next.inj ((exec_blkSetcrc k s).symm.trans hset)
  have hmatch : crcMatch u k = false :=
    crcMatch_eq_false_of_flip (t := s.storeBlockCrc k (blockCrc s k)) hcfg (State.crcMatch_storeBlockCrc h k) hlo hhi hj
      hflip hrest
  refine ⟨_, exec_blkChkcrc k u, ?_, ?_⟩
  · rw [hmatch]; rfl
  · rw [State.respond_status, State.recordBlockCheck_eq, hmatch]
    exact Vector.getElem_set_self k.isLt

/-! ### `BLK.BUILD` in three commands (R195) -/

/-- Data of the field's width needs no padding. -/
theorem padded_of_length_eq {width : Nat} {data : List Byte} (h : data.length = width) : padded width data = data := by
  simp [padded, h]

/-- `BLK.HDR` and then `SET.STR` of the data span store header and data in one piece. -/
theorem eq_of_blkHdr_setStr {s u v : State} {k : Fin 6} {data : List Byte} (h : s.Inv)
    (hlen : data.length = s.cfg.blockLen[k]) (hhdr : exec (.blkHdr (blkByte k)) s = .next u)
    (hstr : exec (.setStr (bankAddr .msg (s.cfg.blockOff[k] + 2)) (BitVec.ofNat 16 s.cfg.blockLen[k]) data) u =
      .next v) :
    v = { s with msg := s.msg.writeBytes s.cfg.blockOff[k] (s.blockHeader k ++ data), output := v.output } := by
  have hblock := h.block_lt_msgSize k
  rw [msgSize] at hblock
  have hwidth : (BitVec.ofNat 16 s.cfg.blockLen[k]).toNat = s.cfg.blockLen[k] := toNat_length_operand (by omega)
  obtain rfl := Host.Outcome.next.inj ((exec_blkHdr k s).symm.trans hhdr)
  rw [exec_setStr_legal (decodeAddr_bankAddr .msg (by omega)) (by omega)
    (by simp only [hwidth, Space.size, Bank.size, msgSize]; omega), hwidth, padded_of_length_eq hlen] at hstr
  obtain rfl := Host.Outcome.next.inj hstr
  rw [Memory.writeBytes_append]
  rfl

/-- What `BLK.SETCRC` computes once header and data are stored: the CRC of the data. -/
theorem State.blockCrc_of_stored {s v : State} {k : Fin 6} {data : List Byte} (h : s.Inv)
    (hlen : data.length = s.cfg.blockLen[k]) (hcfg : v.cfg = s.cfg)
    (hmsg : v.msg = s.msg.writeBytes s.cfg.blockOff[k] (s.blockHeader k ++ data)) : blockCrc v k = crc16 data := by
  have hblock := h.block_lt_msgSize k
  rw [Memory.writeBytes_append] at hmsg
  have hheader : (s.blockHeader k).length = 2 := rfl
  have hstores : Stores (s.msg.writeBytes s.cfg.blockOff[k] (s.blockHeader k)) v.msg (s.cfg.blockOff[k] + 2) data := by
    rw [hmsg]
    exact Memory.stores_writeBytes (Memory.wf_writeBytes h.msg_wf (by omega)) (by omega)
  rw [blockCrc, hcfg, ← hlen, span_of_stores hstores]

/-- Settles O55: the two writes before `BLK.SETCRC` are the first one of `BLK.BUILD`, and what `BLK.SETCRC` reads back
is the data. -/
theorem buildEqualsHeaderDataAndCrc : Obligations.BuildEqualsHeaderDataAndCrc := by
  intro s t u v w k data h hlen hbuild hhdr hstr hset
  obtain rfl := Host.Outcome.next.inj ((exec_blkBuild_legal hlen).symm.trans hbuild)
  obtain rfl := Host.Outcome.next.inj ((exec_blkSetcrc k v).symm.trans hset)
  have hv := eq_of_blkHdr_setStr h hlen hhdr hstr
  have hcrc : blockCrc v k = crc16 data :=
    State.blockCrc_of_stored h hlen (by rw [hv]) (by rw [hv])
  rw [hcrc, hv]
  exact ⟨rfl, rfl, rfl⟩

end Blocks

end Sys2Proof.Machine

namespace Sys2Proof.Machine

/-! ### The system commands (R230 to R232) -/

section SystemCommands
open Claims

/-- Settles O1: `NOP` hands the state on as it is, and format N takes no operand byte. -/
theorem nopAnswersAndChangesNothing : Obligations.NopAnswersAndChangesNothing := by
  have hanswer (s : State) : exec .nop s = .next (s.respond []) := finish_ok s s []
  have hextra (b : Byte) (rest : Packet) : formatN .nop (b :: rest) = .error .badLength :=
    formatN_eq_badLength_iff.mpr (by simp)
  exact ⟨hanswer, rfl, hextra⟩

theorem getLsbD_byteOf {w : Nat} (v : BitVec w) (i : Nat) {j : Nat} (hj : j < 8) :
    (byteOf v i).getLsbD j = v.getLsbD (8 * i + j) := by
  rw [byteOf, BitVec.getLsbD_extractLsb', decide_eq_true hj, Bool.true_and]

/-- `RD.STATUS` answers the word of R16, low byte first. -/
theorem exec_rdStatus (s : State) :
    exec .rdStatus s = .next (answered s [byteOf s.statusWord 0, byteOf s.statusWord 1]) := by
  have hexec : exec .rdStatus s = .next (s.respond (leBytes 2 s.statusWord.toNat)) := finish_ok s s _
  rw [hexec, State.respond_leBytes_two]

/-- Settles O2: bit `j` of answer byte `i` is bit `8 * i + j` of `STATUS`, which `State.statusWord` lists bit 0 first;
bit 9 says that `SEEN` is full (`sfComplete_iff`). -/
theorem rdStatusAnswersEveryStatusBit : Obligations.RdStatusAnswersEveryStatusBit := by
  refine ⟨rfl, fun s => ⟨byteOf s.statusWord 0, byteOf s.statusWord 1, exec_rdStatus s, ?_⟩⟩
  have hcomplete : (byteOf s.statusWord 1).getLsbD 1 = true ↔ ∀ k, k < 51 → s.seen.getLsbD k = true := by
    rw [getLsbD_byteOf _ _ (by decide), State.getLsbD_nine_statusWord, sfComplete_iff]
  rw [hcomplete]
  simp only [getLsbD_byteOf, Nat.reduceLT, State.statusWord, BitVec.getLsbD_ofBoolListLE, Status.rsOk]
  simp only [Nat.reduceMul, Nat.reduceAdd, List.getD_cons_zero, List.getD_cons_succ, and_self]

/-- Settles O3: the state handed on is the old one with `Status.clearErrors`, which writes the four bits. -/
theorem clrErrClearsOnlyTheStickyBits : Obligations.ClrErrClearsOnlyTheStickyBits := by
  have hexec (s : State) :
      exec .clrErr s = .next ({ s with status := s.status.clearErrors }.respond []) := finish_ok s _ []
  exact ⟨rfl, hexec⟩

end SystemCommands

end Sys2Proof.Machine

namespace Sys2Proof.Machine

/-! ### What a command error leaves (R241) -/

/-- A step whose response is not `OK` took an error: every success adds a response that begins with `OK` (R51). -/
theorem step_raises_of_code_ne_ok {s t : State} {p : Packet} {rest : List Packet} {rc : Byte} {payload : Packet}
    (hin : s.input = p :: rest) (hstep : step s = .next t) (hout : t.output = s.output ++ [rc :: payload])
    (hrc : rc ≠ 0x00#8) : ∃ e, t = State.raise { s with input := rest } e := by
  rcases step_cases hin with ⟨i, u, answer, -, heff, h⟩ | ⟨e, h⟩
  · obtain rfl := Host.Outcome.next.inj (h.symm.trans hstep)
    rw [State.respond_output, heff.output_eq] at hout
    exact absurd (response_inj hout).1.symm hrc
  · exact ⟨e, Host.Outcome.next.inj (hstep.symm.trans h)⟩

/-- Settles O9: the step took an error (`step_raises_of_code_ne_ok`), the error's response is its code alone, and an
error leaves the state it was taken in as `failed` says (`State.raise_eq_failed`). -/
theorem commandErrorsChangeOnlyTheirStickyBit : Obligations.CommandErrorsChangeOnlyTheirStickyBit := by
  intro s t p rest rc payload hin hstep hout hrc
  obtain ⟨e, rfl⟩ := step_raises_of_code_ne_ok hin hstep hout hrc
  obtain ⟨rfl, rfl⟩ := response_inj hout
  exact ⟨rfl, State.raise_eq_failed _ e⟩

end Sys2Proof.Machine

namespace Sys2Proof

/-! ### The decoder inverts the encoder

One lemma per packet format says which operand bytes it takes, and for which command: exactly those that the encoder
writes. `decode_encode` and `encode_of_decode` read them together, in the two directions. -/

/-- A word of `n` bytes is the number of exactly its own little-endian bytes (R6). -/
theorem ofNat_unle_eq_iff {n w : Nat} (hw : 2 ^ w = 256 ^ n) {bytes : List Byte} (hlen : bytes.length = n)
    {v : BitVec w} : BitVec.ofNat w (unle bytes) = v ↔ leBytes n v.toNat = bytes := by
  subst hlen
  constructor
  · rintro rfl
    rw [BitVec.toNat_ofNat, hw, Nat.mod_eq_of_lt (unle_lt bytes), leBytes_unle]
  · intro h
    apply BitVec.eq_of_toNat_eq
    rw [← h, unle_leBytes, BitVec.toNat_ofNat, hw, Nat.mod_mod, ← hw, Nat.mod_eq_of_lt v.isLt]

/-- Two bytes are the operand bytes of exactly one 16-bit value (R55). -/
theorem u16_eq_iff {b0 b1 : Byte} {v : BitVec 16} : u16 b0 b1 = v ↔ leBytes 2 v.toNat = [b0, b1] :=
  ofNat_unle_eq_iff (by norm_num) rfl

/-- Four bytes are the operand bytes of exactly one 32-bit value (R55). -/
theorem u32_eq_iff {b0 b1 b2 b3 : Byte} {v : BitVec 32} :
    u32 b0 b1 b2 b3 = v ↔ leBytes 4 v.toNat = [b0, b1, b2, b3] :=
  ofNat_unle_eq_iff (by norm_num) rfl

/-- The two count bytes are those of the count, and the count fits them, exactly when it is their number (R57). -/
theorem eq_toNat_u16_iff {b0 b1 : Byte} {n : Nat} : n = (u16 b0 b1).toNat ↔ n < 2 ^ 16 ∧ leBytes 2 n = [b0, b1] := by
  constructor
  · rintro rfl
    exact ⟨(u16 b0 b1).isLt, u16_eq_iff.mp rfl⟩
  · rintro ⟨hlt, hbytes⟩
    have hn : (BitVec.ofNat 16 n).toNat = n := by rw [BitVec.toNat_ofNat, Nat.mod_eq_of_lt hlt]
    rw [u16_eq_iff.mpr (hn.symm ▸ hbytes), hn]

section Formats

variable {i : Instr} {rest : Packet}

theorem formatN_eq_ok_iff {f : Instr} : formatN f rest = .ok i ↔ [] = rest ∧ f = i := by
  cases rest <;> simp [formatN]

theorem formatB_eq_ok_iff {f : Byte → Instr} : formatB f rest = .ok i ↔ ∃ blk, [blk] = rest ∧ f blk = i := by
  constructor
  · intro h
    unfold formatB at h
    split at h
    · exact ⟨_, rfl, Except.ok.inj h⟩
    · cases h
  · rintro ⟨blk, rfl, rfl⟩; rfl

theorem formatA_eq_ok_iff {f : BitVec 16 → Instr} :
    formatA f rest = .ok i ↔ ∃ addr, leBytes 2 addr.toNat = rest ∧ f addr = i := by
  constructor
  · intro h
    unfold formatA at h
    split at h
    · exact ⟨_, u16_eq_iff.mp rfl, Except.ok.inj h⟩
    · cases h
  · rintro ⟨addr, rfl, rfl⟩
    exact congrArg (Except.ok <| f ·) (u16_eq_iff.mpr rfl)

theorem formatR_eq_ok_iff {f : BitVec 16 → BitVec 16 → Instr} :
    formatR f rest = .ok i ↔ ∃ addr len, leBytes 2 addr.toNat ++ leBytes 2 len.toNat = rest ∧ f addr len = i := by
  constructor
  · intro h
    unfold formatR at h
    split at h
    · exact ⟨_, _, congrArg₂ _ (u16_eq_iff.mp rfl) (u16_eq_iff.mp rfl), Except.ok.inj h⟩
    · cases h
  · rintro ⟨addr, len, rfl, rfl⟩
    exact congrArg₂ (Except.ok <| f · ·) (u16_eq_iff.mpr rfl) (u16_eq_iff.mpr rfl)

theorem formatV_eq_ok_iff {f : BitVec 16 → BitVec 32 → Instr} :
    formatV f rest = .ok i ↔ ∃ addr val, leBytes 2 addr.toNat ++ leBytes 4 val.toNat = rest ∧ f addr val = i := by
  constructor
  · intro h
    unfold formatV at h
    split at h
    · exact ⟨_, _, congrArg₂ _ (u16_eq_iff.mp rfl) (u32_eq_iff.mp rfl), Except.ok.inj h⟩
    · cases h
  · rintro ⟨addr, val, rfl, rfl⟩
    exact congrArg₂ (Except.ok <| f · ·) (u16_eq_iff.mpr rfl) (u32_eq_iff.mpr rfl)

theorem formatI_eq_ok_iff {f : List Byte → Instr} :
    formatI f rest = .ok i ↔ ∃ data, data.length < 2 ^ 16 ∧ leBytes 2 data.length ++ data = rest ∧ f data = i := by
  constructor
  · intro h
    unfold formatI at h
    split at h
    · split at h
      case isTrue hcount =>
        obtain ⟨hlt, hbytes⟩ := eq_toNat_u16_iff.mp hcount
        exact ⟨_, hlt, congrArg (· ++ _) hbytes, Except.ok.inj h⟩
      case isFalse => cases h
    · cases h
  · rintro ⟨data, hlt, rfl, rfl⟩
    exact if_pos (eq_toNat_u16_iff.mpr ⟨hlt, rfl⟩)

theorem formatS_eq_ok_iff {f : BitVec 16 → BitVec 16 → List Byte → Instr} :
    formatS f rest = .ok i ↔
      ∃ addr width data, data.length < 2 ^ 16 ∧
        leBytes 2 addr.toNat ++ leBytes 2 width.toNat ++ leBytes 2 data.length ++ data = rest ∧
        f addr width data = i := by
  constructor
  · intro h
    unfold formatS at h
    split at h
    case h_1 a0 a1 w0 w1 n0 n1 data =>
      split at h
      case isTrue hcount =>
        obtain ⟨hlt, hbytes⟩ := eq_toNat_u16_iff.mp hcount
        refine ⟨_, _, data, hlt, ?_, Except.ok.inj h⟩
        rw [hbytes, u16_eq_iff.mp (rfl : u16 a0 a1 = _), u16_eq_iff.mp (rfl : u16 w0 w1 = _)]
        rfl
      case isFalse => cases h
    · cases h
  · rintro ⟨addr, width, data, hlt, rfl, rfl⟩
    have haddr := u16_eq_iff.mpr (rfl : leBytes 2 addr.toNat = _)
    have hwidth := u16_eq_iff.mpr (rfl : leBytes 2 width.toNat = _)
    exact (if_pos (eq_toNat_u16_iff.mpr ⟨hlt, rfl⟩)).trans
      (congrArg₂ (fun a w => Except.ok (f a w data)) haddr hwidth)

theorem formatD_eq_ok_iff {f : Byte → List Byte → Instr} :
    formatD f rest = .ok i ↔ ∃ blk data, blk :: data = rest ∧ f blk data = i := by
  cases rest <;> simp [formatD]

end Formats

/-- The packet of a well-formed command decodes to it: its opcode selects its format, which takes its operands. -/
theorem decode_encode {i : Instr} (h : i.wellFormed = true) : decode (encode i) = .ok i := by
  cases i with
  | nop | rdStatus | clrErr | reset | rdCrc | rsEnc | rsDec | sfCapture | sfRdSeen | sfClear
  | blkHdr | blkSetcrc | blkChkcrc | blkRead | blkBuild => rfl
  | getU8 addr | getU16 addr | getU24 addr | getU32 addr | getS8 addr | getS16 addr | getS32 addr | getF32 addr =>
    exact formatA_eq_ok_iff.mpr ⟨addr, rfl, rfl⟩
  | crc16 addr len | whiten addr len | getStr addr len => exact formatR_eq_ok_iff.mpr ⟨addr, len, rfl, rfl⟩
  | setU8 addr val | setU16 addr val | setU24 addr val | setU32 addr val
  | setS8 addr val | setS16 addr val | setS32 addr val | setF32 addr val =>
    exact formatV_eq_ok_iff.mpr ⟨addr, val, rfl, rfl⟩
  | crc16I data => exact formatI_eq_ok_iff.mpr ⟨data, of_decide_eq_true h, rfl, rfl⟩
  | setStr addr width data => exact formatS_eq_ok_iff.mpr ⟨addr, width, data, of_decide_eq_true h, rfl, rfl⟩

/-- Byte 0 is the opcode whose number the decoder found. -/
theorem byte_eq_ofNat {b : Byte} {n : Nat} (h : b.toNat = n) : b = BitVec.ofNat 8 n := by
  rw [← h, BitVec.ofNat_toNat, BitVec.setWidth_eq]

/-- A packet that decodes is the packet of a well-formed command: each opcode's format takes only the operand bytes
that the encoder writes. -/
theorem encode_of_decode {p : Packet} {i : Instr} (h : decode p = .ok i) : i.wellFormed = true ∧ encode i = p := by
  cases p with
  | nil => cases h
  | cons opc rest =>
    simp only [decode] at h
    split at h
    -- format N
    case h_1 hopc | h_2 hopc | h_3 hopc | h_4 hopc | h_7 hopc | h_13 hopc | h_14 hopc | h_34 hopc | h_35 hopc
        | h_36 hopc =>
      obtain ⟨rfl, rfl⟩ := formatN_eq_ok_iff.mp h
      obtain rfl := byte_eq_ofNat hopc
      exact ⟨rfl, rfl⟩
    -- format B
    case h_8 hopc | h_9 hopc | h_10 hopc | h_12 hopc =>
      obtain ⟨blk, rfl, rfl⟩ := formatB_eq_ok_iff.mp h
      obtain rfl := byte_eq_ofNat hopc
      exact ⟨rfl, rfl⟩
    -- format A
    case h_16 hopc | h_17 hopc | h_18 hopc | h_19 hopc | h_20 hopc | h_21 hopc | h_22 hopc | h_23 hopc =>
      obtain ⟨addr, rfl, rfl⟩ := formatA_eq_ok_iff.mp h
      obtain rfl := byte_eq_ofNat hopc
      exact ⟨rfl, rfl⟩
    -- format R
    case h_5 hopc | h_15 hopc | h_24 hopc =>
      obtain ⟨addr, len, rfl, rfl⟩ := formatR_eq_ok_iff.mp h
      obtain rfl := byte_eq_ofNat hopc
      exact ⟨rfl, rfl⟩
    -- format V
    case h_25 hopc | h_26 hopc | h_27 hopc | h_28 hopc | h_29 hopc | h_30 hopc | h_31 hopc | h_32 hopc =>
      obtain ⟨addr, val, rfl, rfl⟩ := formatV_eq_ok_iff.mp h
      obtain rfl := byte_eq_ofNat hopc
      exact ⟨rfl, rfl⟩
    -- format I
    case h_6 hopc =>
      obtain ⟨data, hlt, rfl, rfl⟩ := formatI_eq_ok_iff.mp h
      obtain rfl := byte_eq_ofNat hopc
      exact ⟨decide_eq_true hlt, rfl⟩
    -- format S
    case h_33 hopc =>
      obtain ⟨addr, width, data, hlt, rfl, rfl⟩ := formatS_eq_ok_iff.mp h
      obtain rfl := byte_eq_ofNat hopc
      exact ⟨decide_eq_true hlt, rfl⟩
    -- format D
    case h_11 hopc =>
      obtain ⟨blk, data, rfl, rfl⟩ := formatD_eq_ok_iff.mp h
      obtain rfl := byte_eq_ofNat hopc
      exact ⟨rfl, rfl⟩
    -- no opcode of the table
    case h_37 => cases h

/-- Settles O17: each format takes the operand bytes of its commands (`decode_encode`). -/
theorem decodeOfEncodeIsTheCommand : Obligations.DecodeOfEncodeIsTheCommand := fun _ h => decode_encode h

/-- Settles O18: each format takes no other operand bytes (`encode_of_decode`). -/
theorem decodedPacketIsTheEncoding : Obligations.DecodedPacketIsTheEncoding := fun _ _ h => encode_of_decode h

end Sys2Proof

namespace Sys2Proof

/-! ### What the decoder refuses

Each packet format refuses a packet only for its length (R53), so ILLEGAL_OPCODE is the answer to the bytes 0 outside
the table and to nothing else. -/

/-- The only error among the answers of the decoder or of a packet format is BAD_LENGTH. -/
def RefusesOnlyLength (r : Except CommandError Instr) : Prop := ∀ e, r = .error e → e = .badLength

@[simp] theorem refusesOnlyLength_ok (i : Instr) : RefusesOnlyLength (.ok i) := nofun

@[simp] theorem refusesOnlyLength_badLength : RefusesOnlyLength (.error .badLength) :=
  fun _ h => (Except.error.inj h).symm

section Refusals

variable (rest : Packet)

@[simp] theorem refusesOnlyLength_formatN (f : Instr) : RefusesOnlyLength (formatN f rest) := by
  unfold formatN; split <;> simp

@[simp] theorem refusesOnlyLength_formatB (f : Byte → Instr) : RefusesOnlyLength (formatB f rest) := by
  unfold formatB; split <;> simp

@[simp] theorem refusesOnlyLength_formatA (f : BitVec 16 → Instr) : RefusesOnlyLength (formatA f rest) := by
  unfold formatA; split <;> simp

@[simp] theorem refusesOnlyLength_formatR (f : BitVec 16 → BitVec 16 → Instr) : RefusesOnlyLength (formatR f rest) := by
  unfold formatR; split <;> simp

@[simp] theorem refusesOnlyLength_formatV (f : BitVec 16 → BitVec 32 → Instr) : RefusesOnlyLength (formatV f rest) := by
  unfold formatV; split <;> simp

/-- A format with a count answers its command where the count is that of the data, and BAD_LENGTH otherwise. -/
@[simp] theorem refusesOnlyLength_ite (c : Prop) [Decidable c] (i : Instr) :
    RefusesOnlyLength (if c then .ok i else .error .badLength) := by
  split <;> simp

@[simp] theorem refusesOnlyLength_formatI (f : List Byte → Instr) : RefusesOnlyLength (formatI f rest) := by
  unfold formatI; split <;> simp

@[simp] theorem refusesOnlyLength_formatS (f : BitVec 16 → BitVec 16 → List Byte → Instr) :
    RefusesOnlyLength (formatS f rest) := by
  unfold formatS; split <;> simp

@[simp] theorem refusesOnlyLength_formatD (f : Byte → List Byte → Instr) : RefusesOnlyLength (formatD f rest) := by
  unfold formatD; split <;> simp

/-- One of the 36 opcodes selects a format, which refuses lengths only. -/
theorem refusesOnlyLength_decode {opc : Byte} (h : opc.toNat ∈ Claims.opcodes) :
    RefusesOnlyLength (decode (opc :: rest)) := by
  simp only [decode]
  split
  -- no opcode of the table
  case h_37 => simp_all [Claims.opcodes]
  all_goals simp

/-- Any other byte 0 selects no format. -/
theorem decode_of_not_mem_opcodes {opc : Byte} (h : opc.toNat ∉ Claims.opcodes) :
    decode (opc :: rest) = .error .illegalOpcode := by
  simp only [decode]
  split
  -- no opcode of the table
  case h_37 => rfl
  all_goals
    next hopc =>
    rw [hopc] at h
    exact absurd (by decide) h

/-- The decoder makes the first three checks of R61, which have these two errors. -/
theorem decode_error_cases {p : Packet} {e : CommandError} (h : decode p = .error e) :
    e = .illegalOpcode ∨ e = .badLength := by
  cases p with
  | nil => exact .inr (Except.error.inj h).symm
  | cons opc rest =>
    by_cases hopc : opc.toNat ∈ Claims.opcodes
    · exact .inr (refusesOnlyLength_decode rest hopc e h)
    · exact .inl (Except.error.inj (h.symm.trans (decode_of_not_mem_opcodes rest hopc)))

end Refusals

/-- Settles O20: an opcode of the table selects a format, which never names ILLEGAL_OPCODE. -/
theorem illegalOpcodeExactlyOutsideTheTable : Obligations.IllegalOpcodeExactlyOutsideTheTable := by
  refine fun opc rest => ⟨fun h hopc => ?_, decode_of_not_mem_opcodes rest⟩
  cases refusesOnlyLength_decode rest hopc _ h

end Sys2Proof

namespace Sys2Proof.Machine

/-! ### One step, by what the port and the decoder give -/

section Step

variable {s : State} {p : Packet} {rest : List Packet}

theorem step_of_decode_ok {i : Instr} (hin : s.input = p :: rest) (hdec : decode p = .ok i) :
    step s = exec i { s with input := rest } := by
  simp only [step, State.nextPacket, hin, hdec]

theorem step_of_decode_error {e : CommandError} (hin : s.input = p :: rest) (hdec : decode p = .error e) :
    step s = .next (State.raise { s with input := rest } e) := by
  simp only [step, State.nextPacket, hin, hdec, finish_error]

theorem step_of_input_nil (hin : s.input = []) : step s = .next s := by
  simp only [step, State.nextPacket, hin]

end Step

/-- Settles O5: `step` hands the decoded command to `exec`. -/
theorem stepRunsTheDecodedCommand : Obligations.StepRunsTheDecodedCommand :=
  fun _ _ _ _ hin hdec => step_of_decode_ok hin hdec

/-- Settles O6: the decoder's error is one of two (`decode_error_cases`), and taking it is `failed` with its code. -/
theorem stepTakesTheDecodersError : Obligations.StepTakesTheDecodersError := by
  intro s p rest e hin hdec
  have hstep := step_of_decode_error hin hdec
  rw [State.raise_eq_failed] at hstep
  rcases decode_error_cases hdec with rfl | rfl
  · exact .inl ⟨rfl, hstep⟩
  · exact .inr ⟨rfl, hstep⟩

/-- Settles O7: with an empty input list no packet is taken. -/
theorem idleStepHoldsTheState : Obligations.IdleStepHoldsTheState := fun _ hin => step_of_input_nil hin

/-! ### What no command writes -/

@[simp] theorem State.writeSpace_cfg (s : State) (sp : Space) (off : Nat) (bytes : List Byte) :
    (s.writeSpace sp off bytes).cfg = s.cfg := by
  cases sp with
  | bank b => exact State.writeBank_cfg s b off bytes
  | sfm => rfl

@[simp] theorem State.writeSpace_input (s : State) (sp : Space) (off : Nat) (bytes : List Byte) :
    (s.writeSpace sp off bytes).input = s.input := by
  cases sp with
  | bank b => exact State.writeBank_input s b off bytes
  | sfm => rfl

/-- No command writes the parameters (R22) or the packets still to be presented. -/
theorem Effect.cfg_input_eq {i : Instr} {s u : State} (h : Effect i s u) : u.cfg = s.cfg ∧ u.input = s.input := by
  cases i with
  | nop | rdStatus | rdCrc | sfRdSeen | getU8 | getU16 | getU24 | getU32 | getS8 | getS16 | getS32 | getF32 | getStr
  | clrErr | reset | rsEnc | sfClear => obtain rfl := h; exact ⟨rfl, rfl⟩
  | rsDec => obtain rfl := h; simp
  | crc16 | crc16I => obtain ⟨c, rfl⟩ := h; exact ⟨rfl, rfl⟩
  | blkHdr | blkSetcrc | blkChkcrc | blkRead => obtain ⟨k, -, rfl⟩ := h; exact ⟨rfl, rfl⟩
  | blkBuild => obtain ⟨k, -, -, rfl⟩ := h; exact ⟨rfl, rfl⟩
  | whiten => obtain ⟨b, off, bytes, -, rfl⟩ := h; simp
  | setU8 | setU16 | setU24 | setU32 | setS8 | setS16 | setS32 | setF32 | setStr =>
    obtain ⟨sp, off, bytes, -, rfl⟩ := h; simp
  | sfCapture => obtain ⟨-, rfl⟩ := h; exact ⟨rfl, rfl⟩

/-- What any step can do: the effect of a command and an answer, an error, or, with no packet at the port, nothing; the
first two in the state with the packet taken. -/
theorem step_next_cases {s t : State} (hstep : step s = .next t) :
    t = s ∨ ∃ rest, (∃ i u payload, Effect i { s with input := rest } u ∧ t = u.respond payload) ∨
      ∃ e, t = State.raise { s with input := rest } e := by
  cases hin : s.input with
  | nil => exact .inl (Host.Outcome.next.inj (hstep.symm.trans (step_of_input_nil hin)))
  | cons p rest =>
    rcases step_cases hin with ⟨i, u, payload, -, heff, h⟩ | ⟨e, h⟩
    · exact .inr ⟨rest, .inl ⟨i, u, payload, heff, Host.Outcome.next.inj (hstep.symm.trans h)⟩⟩
    · exact .inr ⟨rest, .inr ⟨e, Host.Outcome.next.inj (hstep.symm.trans h)⟩⟩

/-- Settles O14: taking a packet, responding and taking an error leave the parameters alone, and so does every effect. -/
theorem parametersNeverChange : Obligations.ParametersNeverChange := by
  intro s t hstep
  rcases step_next_cases hstep with rfl | ⟨rest, ⟨i, u, payload, heff, rfl⟩ | ⟨e, rfl⟩⟩
  · rfl
  · exact heff.cfg_input_eq.1
  · rfl

/-- The error codes are 1 to 5 (R240). -/
theorem toNat_errorCode_le (e : CommandError) : (errorCode e).toNat ≤ 5 := by cases e <;> decide

/-- Settles O8: a step with a packet at the port is a success, which adds `OK` and a payload, or an error, which adds
its code alone. -/
theorem everyPacketGetsOneResponse : Obligations.EveryPacketGetsOneResponse := by
  intro s p rest hin
  rcases step_cases hin with ⟨i, u, payload, -, heff, h⟩ | ⟨e, h⟩
  · refine ⟨_, 0x00#8, payload, h, heff.cfg_input_eq.2, ?_, by decide, fun hok => absurd rfl hok⟩
    rw [State.respond_output, heff.output_eq]
  · exact ⟨_, errorCode e, [], h, rfl, rfl, toNat_errorCode_le e, fun _ => rfl⟩

/-! ### Which command writes which memory (R10, R11) -/

section Memories
open Claims

/-- A successful command writes only its own memories. A setter or `WHITEN` may write either, by its address. -/
theorem Effect.keepsMemories {i : Instr} {s u : State} (h : Effect i s u) :
    (writesMsg i = false → u.msg = s.msg) ∧ (writesSft i = false → u.sft = s.sft) := by
  cases i with
  | nop | rdStatus | rdCrc | sfRdSeen | getU8 | getU16 | getU24 | getU32 | getS8 | getS16 | getS32 | getF32 | getStr
  | clrErr | reset | sfClear => obtain rfl := h; exact ⟨fun _ => rfl, fun _ => rfl⟩
  | crc16 | crc16I => obtain ⟨c, rfl⟩ := h; exact ⟨fun _ => rfl, fun _ => rfl⟩
  | blkChkcrc | blkRead => obtain ⟨k, -, rfl⟩ := h; exact ⟨fun _ => rfl, fun _ => rfl⟩
  | blkHdr | blkSetcrc => obtain ⟨k, -, rfl⟩ := h; exact ⟨nofun, fun _ => rfl⟩
  | blkBuild => obtain ⟨k, -, -, rfl⟩ := h; exact ⟨nofun, fun _ => rfl⟩
  | rsEnc => obtain rfl := h; exact ⟨nofun, fun _ => rfl⟩
  | rsDec => obtain rfl := h; exact ⟨nofun, fun _ => by simp⟩
  | sfCapture => obtain ⟨-, rfl⟩ := h; exact ⟨fun _ => rfl, nofun⟩
  | whiten | setU8 | setU16 | setU24 | setU32 | setS8 | setS16 | setS32 | setF32 | setStr => exact ⟨nofun, nofun⟩

/-- Settles O12: an error writes no memory, and each effect only those of its command. -/
theorem memoriesChangeOnlyByTheirWriters : Obligations.MemoriesChangeOnlyByTheirWriters := by
  intro i s t hexec
  rcases exec_cases i s with ⟨u, p, heff, hnext⟩ | ⟨e, hnext⟩
  · obtain rfl := Host.Outcome.next.inj (hnext.symm.trans hexec)
    exact heff.keepsMemories
  · obtain rfl := Host.Outcome.next.inj (hnext.symm.trans hexec)
    exact ⟨fun _ => rfl, fun _ => rfl⟩

end Memories

/-! ### The decoder of R109 (soundness) -/

/-- Settles O33: an answer `true` is `rsCorrect_sound`. -/
theorem rsDecodeNeverOvercorrects : Obligations.RsDecodeNeverOvercorrects := by
  intro c w hw
  unfold rsDecode
  cases hcorrect : rsCorrect c w with
  | none => exact ⟨nofun, fun _ => rfl⟩
  | some x =>
    obtain ⟨hlen, hcode, hdist⟩ := rsCorrect_sound hcorrect
    exact ⟨fun _ => ⟨hlen.trans hw, hcode, hdist⟩, nofun⟩

/-! ### The invariant -/

/-- The parameters after reset are admissible: the constraints are on the defaults of R5 and R36 alone, none is on an
opaque parameter. -/
theorem admissible_atReset : Config.atReset.Admissible where
  irreducible := by decide +kernel
  primitive := by decide +kernel
  fcr := by decide
  parity := by decide
  blocks := by decide +kernel
  slice := by decide

/-- Settles O16: the defaults are admissible, and an empty memory is in canonical form. -/
theorem resetMeetsTheInvariant : Obligations.ResetMeetsTheInvariant := ⟨admissible_atReset, rfl, rfl⟩

section Invariant

variable {s t : State}

/-- The invariant reads the parameters and the two memories alone. -/
theorem State.Inv.congr (h : s.Inv) (hcfg : t.cfg = s.cfg) (hmsg : t.msg = s.msg) (hsft : t.sft = s.sft) : t.Inv :=
  ⟨hcfg ▸ h.admissible, hmsg ▸ h.msg_wf, hsft ▸ h.sft_wf⟩

/-- Bytes stored inside a bank keep the invariant. -/
theorem State.Inv.writeBank (h : s.Inv) {b : Bank} {off : Nat} {bytes : List Byte}
    (hfit : off + bytes.length ≤ b.size) : (s.writeBank b off bytes).Inv := by
  cases b with
  | msg => exact ⟨h.admissible, Memory.wf_writeBytes h.msg_wf hfit, h.sft_wf⟩
  | sft => exact ⟨h.admissible, h.msg_wf, Memory.wf_writeBytes h.sft_wf hfit⟩

/-- Bytes written to an address space keep the invariant: through the window they land in the slice (R180). -/
theorem State.Inv.writeSpace (h : s.Inv) {sp : Space} {off : Nat} {bytes : List Byte}
    (hfit : off + bytes.length ≤ sp.size) : (s.writeSpace sp off bytes).Inv := by
  cases sp with
  | bank b => exact h.writeBank hfit
  | sfm => exact ⟨h.admissible, Memory.wf_writeCells h.msg_wf (h.windowCells_lt off bytes), h.sft_wf⟩

/-- A CRC stored in the CRC field of a block keeps the invariant (R36). -/
theorem State.Inv.storeBlockCrc (h : s.Inv) (k : Fin 6) (c : BitVec 16) : (s.storeBlockCrc k c).Inv := by
  have hblock := h.block_lt_msgSize k
  have hfit : s.blockCrcOff k + (leBytes 2 c.toNat).length ≤ Bank.msg.size := by
    simp only [State.blockCrcOff, State.blockBase, State.blockLength, length_leBytes, Bank.size]
    omega
  exact (h.writeBank hfit).congr rfl rfl rfl

/-- The header of a block and data no longer than the block's keep the invariant (R36). -/
theorem State.Inv.writeBlock (h : s.Inv) (k : Fin 6) {data : List Byte} (hlen : data.length ≤ s.blockLength k) :
    (s.writeBank .msg (s.blockBase k) (s.blockHeader k ++ data)).Inv := by
  have hblock := h.block_lt_msgSize k
  refine h.writeBank ?_
  simp only [State.blockBase, State.blockHeader, State.blockLength, List.length_append, List.length_cons,
    List.length_nil, Bank.size] at hlen ⊢
  omega

/-- The slice of a subframe number up to 50 lies in the table, so capturing it keeps the invariant (R200). -/
theorem State.Inv.capture (h : s.Inv) (hk : s.subframeNumber ≤ lastSubframe) :
    (s.writeBank .sft (sliceLen * s.subframeNumber) s.carriedSlice).Inv := by
  refine h.writeBank ?_
  simp only [State.carriedSlice, Memory.length_readBytes, Bank.size, sliceLen, sftSize, lastSubframe] at hk ⊢
  omega

/-- Every effect keeps the invariant. -/
theorem Effect.inv {i : Instr} {u : State} (heff : Effect i s u) (h : s.Inv) : u.Inv := by
  cases i with
  | nop | rdStatus | rdCrc | sfRdSeen | getU8 | getU16 | getU24 | getU32 | getS8 | getS16 | getS32 | getF32 | getStr
  | clrErr | reset | sfClear => obtain rfl := heff; exact h.congr rfl rfl rfl
  | crc16 | crc16I => obtain ⟨c, rfl⟩ := heff; exact h.congr rfl rfl rfl
  | blkChkcrc | blkRead => obtain ⟨k, -, rfl⟩ := heff; exact h.congr rfl rfl rfl
  | blkHdr => obtain ⟨k, -, rfl⟩ := heff; exact h.writeBlock k (data := []) (Nat.zero_le _)
  | blkSetcrc => obtain ⟨k, -, rfl⟩ := heff; exact h.storeBlockCrc k _
  | blkBuild => obtain ⟨k, -, hlen, rfl⟩ := heff; exact (h.writeBlock k hlen.le).storeBlockCrc k _
  | rsEnc => obtain rfl := heff; exact h.encoded
  | rsDec => obtain rfl := heff; exact (h.decodeStream 0).decodeStream 1
  | whiten => obtain ⟨b, off, bytes, hfit, rfl⟩ := heff; exact h.writeBank hfit
  | setU8 | setU16 | setU24 | setU32 | setS8 | setS16 | setS32 | setF32 | setStr =>
    obtain ⟨sp, off, bytes, hfit, rfl⟩ := heff; exact h.writeSpace hfit
  | sfCapture => obtain ⟨hk, rfl⟩ := heff; exact (h.capture hk).congr rfl rfl rfl

end Invariant

/-- Settles O15: taking a packet, responding and taking an error touch neither the parameters nor a memory, and every
effect keeps the invariant (`Effect.inv`). -/
theorem stepKeepsTheInvariant : Obligations.StepKeepsTheInvariant := by
  intro s t h hstep
  rcases step_next_cases hstep with rfl | ⟨rest, ⟨i, u, payload, heff, rfl⟩ | ⟨e, rfl⟩⟩
  · exact h
  · exact (heff.inv (h.congr rfl rfl rfl)).congr rfl rfl rfl
  · exact h.congr rfl rfl rfl

end Sys2Proof.Machine
